-- ==== Sys2Proof/Word.lean ====
section
/-! DEFINITION. The plainest types of the CORE: a bit, a byte, and a number of the number system `NUM`. -/

namespace Sys2Proof

/-- A bit, 0 or 1 (`00_scope.md` rule R8); `true` is 1. -/
abbrev Bit := Bool

/-- A byte 0..255 (`00_scope.md` rule R11). -/
abbrev Byte := BitVec 8

/-- A value of the number system `NUM` (`00_scope.md` rule R17) as a port presents it and a register keeps it: plain data,
the code of a value of the configured carrier type.  In a binary format it is the rational number the value stands
for, and one that is presented is not rounded (log entry 25); in another number system it is whatever that system says (`Config.lean`, `NumSystem`).  DESIGN CHOICE, log
entry 5. -/
abbrev Num := Rat

end Sys2Proof
end

