-- ==== Sys2Proof/Syntax.lean ====
section
/-! DEFINITION. The operations of the CORE (`30_encoding.md` rules R90 and R91): one constructor for each row of
the opcode table, the units that own the command ports, and what the host presents at a command port. -/

namespace Sys2Proof

/-- The six units (rule R2). -/
inductive UnitName where
  | frx | ftx | cks | mod | gzl | dem
  deriving DecidableEq, Repr

/-- An operation with its operands (rule R91). -/
inductive Instr where
  /-- `RX_PUSH b`, rule R250. -/
  | rxPush (b : Bit)
  /-- `RX_PUSHB B`, rule R252. -/
  | rxPushb (byte : Byte)
  /-- `RX_CLEAR`, rule R145. -/
  | rxClear
  /-- `PK_PUSH b`, rule R144. -/
  | pkPush (b : Bit)
  /-- `TX_ENCODE L, B`, rule R160. -/
  | txEncode (len : BitVec 16) (bytes : List Byte)
  /-- `CK_CALC L, B`, rule R170. -/
  | ckCalc (len : BitVec 16) (bytes : List Byte)
  /-- `CK_VERIFY v, L, B`, rule R174; `v` is presented on 24 lines, of which the configured `K` are read. -/
  | ckVerify (v : BitVec 24) (len : BitVec 16) (bytes : List Byte)
  /-- `MOD_SYM b`, rule R200. -/
  | modSym (b : Bit)
  /-- `OSC_SETF f`, rule R183. -/
  | oscSetf (f : Num)
  /-- `OSC_SETA a`, rule R184. -/
  | oscSeta (a : Num)
  /-- `OSC_STEP`, rule R185. -/
  | oscStep
  /-- `MOD_FLUSH`, rule R204. -/
  | modFlush
  /-- `GZ_SAMPLE x`, rule R212. -/
  | gzSample (x : Num)
  /-- `GZ_RANK`, rule R214. -/
  | gzRank
  /-- `GZ_RESET`, rule R216. -/
  | gzReset
  /-- `DM_SAMPLE x`, rule R226. -/
  | dmSample (x : Num)
  /-- `DM_FLUSH`, rule R243. -/
  | dmFlush
  deriving DecidableEq, Repr

/-- The operand beside a command code: typed values, not bit fields (rules R90 and D2), one lane for each kind of
operand of rule R91.  A command reads the lanes its row names and ignores the others.  Log entry 3. -/
structure Operand where
  /-- `b`, 1 bit. -/
  bit : Bit := false
  /-- `B`, 8 bits (`RX_PUSHB`). -/
  byte : Byte := 0
  /-- `v` (`CK_VERIFY`). -/
  value : BitVec 24 := 0
  /-- `L`, 0..65535. -/
  len : BitVec 16 := 0
  /-- the `L` bytes, byte 0 first. -/
  bytes : List Byte := []
  /-- `f`, `a` or `x`, a `NUM`. -/
  num : Num := 0
  deriving DecidableEq, Repr

/-- One transaction at a command port: the unit whose port it is, `cmd[7:0]`, and the operand (rule R92). -/
structure Transaction where
  unit : UnitName
  code : BitVec 8
  operand : Operand
  deriving DecidableEq, Repr

/-- Why a transaction is no operation. -/
inductive DecodeError where
  /-- The code is reserved, or listed for another unit (rule R97). -/
  | badCommand
  /-- The byte lane does not hold exactly `L` bytes: the transaction of rule R91 is not all there (log entry 3). -/
  | operandMismatch
  deriving DecidableEq, Repr

end Sys2Proof
end

