-- ==== Sys2Proof/WellFormed.lean ====
section
/-! DEFINITION. Which terms of `Instr` are operations: the byte lists have the announced length (rule R91). -/

namespace Sys2Proof

/-- "`L`: 0..65535, then `L` bytes" (rule R91).  The other operands are legal at every value of their type. -/
def Instr.wellFormed : Instr → Bool
  | .rxPush _ => true
  | .rxPushb _ => true
  | .rxClear => true
  | .pkPush _ => true
  | .txEncode len bytes => bytes.length == len.toNat
  | .ckCalc len bytes => bytes.length == len.toNat
  | .ckVerify _ len bytes => bytes.length == len.toNat
  | .modSym _ => true
  | .oscSetf _ => true
  | .oscSeta _ => true
  | .oscStep => true
  | .modFlush => true
  | .gzSample _ => true
  | .gzRank => true
  | .gzReset => true
  | .dmSample _ => true
  | .dmFlush => true

end Sys2Proof
end

