-- ==== Sys2Proof/Decode.lean ====
section
/-! DEFINITION. Decoding a transaction to an operation, total, rejecting by name; then the encoder, written from
the same table (`30_encoding.md` rule R91). -/

namespace Sys2Proof

/-- A row of rule R91 without its operands: format `CMD8`, all eight bits significant (rule R90). -/
inductive Opcode where
  | rxPush | rxPushb | rxClear | pkPush | txEncode | ckCalc | ckVerify | modSym | oscSetf | oscSeta | oscStep
  | modFlush | gzSample | gzRank | gzReset | dmSample | dmFlush
  deriving DecidableEq, Repr

/-- The code column of rule R91. -/
def opcodeTable : List (BitVec 8 × Opcode) :=
  [(0x10, .rxPush), (0x11, .rxPushb), (0x12, .rxClear), (0x13, .pkPush),
   (0x20, .txEncode),
   (0x30, .ckCalc), (0x31, .ckVerify),
   (0x40, .modSym), (0x41, .oscSetf), (0x42, .oscSeta), (0x43, .oscStep), (0x44, .modFlush),
   (0x50, .gzSample), (0x51, .gzRank), (0x52, .gzReset),
   (0x60, .dmSample), (0x61, .dmFlush)]

/-- The row whose code is `c`, if the code is listed. -/
def opcodeOf (c : BitVec 8) : Option Opcode :=
  (opcodeTable.find? (fun row => row.1 == c)).map Prod.snd

/-- The unit that `cmd[7:4]` selects (rules R90 and R91). -/
def unitOfCode (c : BitVec 8) : Option UnitName :=
  match (c >>> 4).toNat with
  | 1 => some .frx
  | 2 => some .ftx
  | 3 => some .cks
  | 4 => some .mod
  | 5 => some .gzl
  | 6 => some .dem
  | _ => none

/-- "`L`, then `L` bytes": the byte lane is read only when it holds exactly `L` bytes. -/
def withBytes (op : Operand) (k : BitVec 16 → List Byte → Instr) : Except DecodeError Instr :=
  if op.bytes.length = op.len.toNat then .ok (k op.len op.bytes) else .error .operandMismatch

/-- The operand column of rule R91. -/
def assemble (o : Opcode) (op : Operand) : Except DecodeError Instr :=
  match o with
  | .rxPush => .ok (.rxPush op.bit)
  | .rxPushb => .ok (.rxPushb op.byte)
  | .rxClear => .ok .rxClear
  | .pkPush => .ok (.pkPush op.bit)
  | .txEncode => withBytes op (fun l b => .txEncode l b)
  | .ckCalc => withBytes op (fun l b => .ckCalc l b)
  | .ckVerify => withBytes op (fun l b => .ckVerify op.value l b)
  | .modSym => .ok (.modSym op.bit)
  | .oscSetf => .ok (.oscSetf op.num)
  | .oscSeta => .ok (.oscSeta op.num)
  | .oscStep => .ok .oscStep
  | .modFlush => .ok .modFlush
  | .gzSample => .ok (.gzSample op.num)
  | .gzRank => .ok .gzRank
  | .gzReset => .ok .gzReset
  | .dmSample => .ok (.dmSample op.num)
  | .dmFlush => .ok .dmFlush

/-- The operation a transaction presents.  A reserved code, or a listed code at another unit's port, is
`badCommand` (rule R97), decided on the code alone before any operand is looked at (rule R270). -/
def decode (t : Transaction) : Except DecodeError Instr :=
  if unitOfCode t.code = some t.unit then
    match opcodeOf t.code with
    | some o => assemble o t.operand
    | none => .error .badCommand
  else .error .badCommand

/-- The row of an operation. -/
def Instr.opcode : Instr → Opcode
  | .rxPush _ => .rxPush
  | .rxPushb _ => .rxPushb
  | .rxClear => .rxClear
  | .pkPush _ => .pkPush
  | .txEncode _ _ => .txEncode
  | .ckCalc _ _ => .ckCalc
  | .ckVerify _ _ _ => .ckVerify
  | .modSym _ => .modSym
  | .oscSetf _ => .oscSetf
  | .oscSeta _ => .oscSeta
  | .oscStep => .oscStep
  | .modFlush => .modFlush
  | .gzSample _ => .gzSample
  | .gzRank => .gzRank
  | .gzReset => .gzReset
  | .dmSample _ => .dmSample
  | .dmFlush => .dmFlush

/-- The unit column of rule R91. -/
def Opcode.unit : Opcode → UnitName
  | .rxPush | .rxPushb | .rxClear | .pkPush => .frx
  | .txEncode => .ftx
  | .ckCalc | .ckVerify => .cks
  | .modSym | .oscSetf | .oscSeta | .oscStep | .modFlush => .mod
  | .gzSample | .gzRank | .gzReset => .gzl
  | .dmSample | .dmFlush => .dem

/-- The unit that performs an operation. -/
def Instr.unit (i : Instr) : UnitName := i.opcode.unit

/-- The code of a row, read back from the table (0 for a row that is not listed: there is none). -/
def Opcode.code (o : Opcode) : BitVec 8 :=
  ((opcodeTable.find? (fun row => row.2 == o)).map Prod.fst).getD 0

/-- The operand lanes an operation is presented with; the lanes its row does not name are 0. -/
def Instr.operand : Instr → Operand
  | .rxPush b => { bit := b }
  | .rxPushb byte => { byte := byte }
  | .rxClear => {}
  | .pkPush b => { bit := b }
  | .txEncode len bytes => { len := len, bytes := bytes }
  | .ckCalc len bytes => { len := len, bytes := bytes }
  | .ckVerify v len bytes => { value := v, len := len, bytes := bytes }
  | .modSym b => { bit := b }
  | .oscSetf f => { num := f }
  | .oscSeta a => { num := a }
  | .oscStep => {}
  | .modFlush => {}
  | .gzSample x => { num := x }
  | .gzRank => {}
  | .gzReset => {}
  | .dmSample x => { num := x }
  | .dmFlush => {}

/-- The transaction that presents an operation. -/
def encode (i : Instr) : Transaction :=
  { unit := i.unit, code := i.opcode.code, operand := i.operand }

/-- The transaction that stands for the bits `w` of a table row of `nbits` bits: the code is the first eight bits,
presented at the unit its high nibble names (FRX where it names none), every operand lane 0. -/
def tableTransaction (nbits w : Nat) : Transaction :=
  let code := BitVec.ofNat 8 (w % 2 ^ nbits)
  { unit := (unitOfCode code).getD .frx, code := code, operand := {} }

/-- The operation the decoder reads from the bits of a table row. -/
def decodeTableWord (nbits w : Nat) : Option Instr :=
  match decode (tableTransaction nbits w) with
  | .ok i => some i
  | .error _ => none

end Sys2Proof
end

