-- ==== Sys2Proof/Machine/Bits.lean ====
section
/-! DEFINITION. Bit sequences, first bit in time first and most significant (`00_scope.md` rules R8, R9 and R11;
`20_memory.md` rules R65 to R67). -/

namespace Sys2Proof.Machine

/-- `val(s)`, rule R9: the unsigned integer a bit sequence spells, big-endian. -/
def val (s : List Bit) : Nat :=
  s.foldl (fun acc b => 2 * acc + b.toNat) 0

/-- `bits_n(v)`, rule R9: the `n` low bits of `v`, most significant first. -/
def bitsN : Nat → Nat → List Bit
  | 0, _ => []
  | n + 1, v => v.testBit n :: bitsN n v

/-- `bits_8(b)`: bit 7 first (rules R66 and R67). -/
def bits8 (b : Byte) : List Bit := bitsN 8 b.toNat

/-- `bitsof(B)`, rule R11. -/
def bitsOf (bytes : List Byte) : List Bit := bytes.flatMap bits8

/-- `bytes(s)`, rule R11: byte `i` is `val(s[8i..8i+8))`, for the whole bytes of `s`. -/
def bytesOf : List Bit → List Byte
  | a :: b :: c :: d :: e :: f :: g :: h :: rest =>
    BitVec.ofNat 8 (val [a, b, c, d, e, f, g, h]) :: bytesOf rest
  | _ => []

end Sys2Proof.Machine
end

