-- ==== Sys2Proof/Config.lean ====
section
/-! DEFINITION. What an implementation or a host fixes: the configuration registers of rules R35 to R40 as they are
presented at `CFG` and as they are latched, the shape of the number system, and the free values.

An `opaque` constant here has no body: no proof can learn a value of it. -/

namespace Sys2Proof

/-- The number system `NUM` (rule R17, decision D15): the carrier type and its functions and constants.  Nothing is
assumed of them.  `code` and `value` say how a register keeps a value of the carrier (log entry 5). -/
structure NumSystem where
  Carrier : Type
  code : Carrier → Num
  value : Num → Carrier
  add : Carrier → Carrier → Carrier
  sub : Carrier → Carrier → Carrier
  mul : Carrier → Carrier → Carrier
  div : Carrier → Carrier → Carrier
  sin : Carrier → Carrier
  cos : Carrier → Carrier
  /-- `x mod TWO_PI` (rules R16 and R187). -/
  mod2pi : Carrier → Carrier
  twoPi : Carrier
  floor : Carrier → Int
  ofInt : Int → Carrier
  ofRat : Rat → Carrier
  /-- Comparison `x <= y`. -/
  le : Carrier → Carrier → Bool

/-- What `NUM` is configured to be: the reference form, IEEE 754 binary64 (decision D15), or a record of one's own. -/
inductive NumChoice where
  | binary64
  | custom (system : NumSystem)
  deriving Inhabited

/-- The functions of a number system on the codes that registers keep. -/
structure NumOps where
  add : Num → Num → Num
  sub : Num → Num → Num
  mul : Num → Num → Num
  div : Num → Num → Num
  sin : Num → Num
  cos : Num → Num
  /-- `x mod TWO_PI` (rules R16 and R187). -/
  mod2pi : Num → Num
  twoPi : Num
  floor : Num → Int
  ofInt : Int → Num
  ofRat : Rat → Num
  /-- Comparison `x <= y`. -/
  le : Num → Num → Bool

/-- The number 0 of a number system. -/
def NumOps.zero (ops : NumOps) : Num := ops.ofInt 0

/-- The functions of a number system on codes: decode the operands, compute in the carrier, code the result. -/
def NumSystem.ops (n : NumSystem) : NumOps where
  add x y := n.code (n.add (n.value x) (n.value y))
  sub x y := n.code (n.sub (n.value x) (n.value y))
  mul x y := n.code (n.mul (n.value x) (n.value y))
  div x y := n.code (n.div (n.value x) (n.value y))
  sin x := n.code (n.sin (n.value x))
  cos x := n.code (n.cos (n.value x))
  mod2pi x := n.code (n.mod2pi (n.value x))
  twoPi := n.code n.twoPi
  floor x := n.floor (n.value x)
  ofInt i := n.code (n.ofInt i)
  ofRat q := n.code (n.ofRat q)
  le x y := n.le (n.value x) (n.value y)

/-- Which one of an open family an instance was built with: the one the spec writes out, or some other, about which
nothing is known.  Plain data, so that a configuration that holds it can be compared and printed. -/
inductive Variant where
  | reference
  | other (n : Nat)
  deriving DecidableEq, Repr, Inhabited

/-- FREE VALUE (log entry 5): any number system whatever (rule R17: `NUM` is configuration). -/
opaque Config.otherNum : Nat → NumChoice

/-- FREE VALUE (log entry 7): the result of a binary operation format of the given precision whose exact result lies
outside the format's finite range. -/
opaque Config.overflow : Nat → Rat → Rat

/-- FREE VALUE (log entry 7): a quotient by zero. -/
opaque Config.divByZero : Rat → Rat

/-- FREE VALUE (log entry 10, 93 U11): `EASE_FN(k, E)` of decision D18 for every ease curve but the linear one, whose is
`k / E`: the fraction of the way from one value to the other at sample `k` of a ramp of `ease` samples. -/
opaque Config.otherEase : Nat → (k ease : Nat) → Num

/-- FREE VALUE (log entry 11, 93 U10): every other sample codec, integer output of the given width. -/
opaque Config.otherCodecInt : Nat → (width : Nat) → Num → Int

/-- FREE VALUE (log entry 11, 93 U10): every other sample codec, floating output of the given width. -/
opaque Config.otherCodecFloat : Nat → (width : Nat) → Num → Rat

/-- FREE VALUE (log entry 11): the spec's codec in another number system, the binary value of the given width nearest a
value whose real number is not known. -/
opaque Config.otherNearest : Nat → (width : Nat) → Num → Rat

/-- FREE VALUE (log entry 12, 93 U6): whether mark (`true`) or space wins a mark-space tie, given the energies. -/
opaque Config.otherTie : Nat → List Num → Bool

/-- `CK_ALG` (rule R36): 0 = `NOOP`, 1 = `CRC24`. -/
inductive CkAlg where
  | noop | crc24
  deriving DecidableEq, Repr

/-- `K`, the checksum width in bits (rules R36 and R171, R172). -/
def CkAlg.width : CkAlg → Nat
  | .noop => 0
  | .crc24 => 24

/-- `DEPTH` (rule R38): the supported output formats. -/
inductive Depth where
  | d8 | d16 | d32 | d32f | d64
  deriving DecidableEq, Repr

/-- The 3-bit code of `DEPTH` (rule R38): 5, 6 and 7 are unsupported. -/
def Depth.ofCode (c : BitVec 3) : Option Depth :=
  match c.toNat with
  | 0 => some .d8
  | 1 => some .d16
  | 2 => some .d32
  | 3 => some .d32f
  | 4 => some .d64
  | _ => none

/-- FRX and FTX configuration as the host presents it (rule R36).  The pattern elements are host-side numbers, since a
value that is not an integer 0..255 is "malformed" (rule R262). -/
structure FramerCfgIn where
  preNBytes : BitVec 8
  pattern : List Rat
  ckAlg : CkAlg
  maxPayload : BitVec 16
  deriving DecidableEq, Repr

/-- FRX and FTX configuration registers, latched (rule R36). -/
structure FramerCfg where
  pattern : List Byte
  ckAlg : CkAlg
  maxPayload : BitVec 16
  deriving DecidableEq, Repr

/-- CKS configuration (rule R37). -/
structure CksCfg where
  ckAlg : CkAlg
  deriving DecidableEq, Repr

/-- MOD configuration as presented (rules R38 and R6). -/
structure ModCfgIn where
  num : Variant
  easeFn : Variant
  codec : Variant
  fMark : Num
  fSpace : Num
  fCarrier : Num
  fs : Num
  sps : Int
  ease : Int
  depth : BitVec 3
  amp : Num
  nosc : Nat
  deriving DecidableEq, Repr

/-- MOD configuration registers, latched (rule R38; `NOSC` is 1, rule R195). -/
structure ModCfg where
  num : Variant
  easeFn : Variant
  codec : Variant
  fMark : Num
  fSpace : Num
  fCarrier : Num
  fs : Num
  sps : Nat
  ease : Nat
  depth : Depth
  amp : Num
  deriving DecidableEq, Repr

/-- GZL configuration, presented and latched (rule R39); `NF` is the number of frequencies. -/
structure GzlCfg where
  num : Variant
  freqs : List Num
  fs : Num
  deriving DecidableEq, Repr

/-- DEM configuration as presented (rule R40); `cls` is register 6. -/
structure DemCfgIn where
  num : Variant
  tie : Variant
  fMark : Num
  fSpace : Num
  fCarrier : Num
  fs : Num
  win : Int
  step : Int
  cls : Bool
  deriving DecidableEq, Repr

/-- DEM configuration registers, latched (rule R40; `CLS` is 0 in every instance that can be constructed). -/
structure DemCfg where
  num : Variant
  tie : Variant
  fMark : Num
  fSpace : Num
  fCarrier : Num
  fs : Num
  win : Nat
  step : Nat
  cls : Bool
  deriving DecidableEq, Repr

/-- What is presented at a unit's `CFG` port when its `RST` is asserted (rules R92 and R290). -/
inductive UnitCfg where
  | frx (c : FramerCfgIn)
  | ftx (c : FramerCfgIn)
  | cks (c : CksCfg)
  | mod (c : ModCfgIn)
  | gzl (c : GzlCfg)
  | dem (c : DemCfgIn)
  deriving DecidableEq, Repr

end Sys2Proof
end

