-- ==== Sys2Proof/Machine/Crc.lean ====
section
/-! DEFINITION. The checksum function `CK` (`42_checksum.md` rules R170 to R172). -/

namespace Sys2Proof.Machine

/-- One of the eight iterations of rule R172 on the 25-bit register. -/
def crcShift (r : BitVec 25) : BitVec 25 :=
  let r := r <<< 1
  if r.getLsbD 24 then r ^^^ 0x1864CFB else r

/-- One input byte of rule R172: into bits 23..16, then eight iterations. -/
def crcByte (r : BitVec 25) (b : Byte) : BitVec 25 :=
  Nat.iterate crcShift 8 (r ^^^ (b.zeroExtend 25 <<< 16))

/-- `crc24(B)`, rule R172. -/
def crc24 (bytes : List Byte) : BitVec 24 :=
  (bytes.foldl crcByte 0xB704CE).truncate 24

/-- `CK(B)`, rule R170: 0 for the no-op (rule R171). -/
def checksum (alg : CkAlg) (bytes : List Byte) : Nat :=
  match alg with
  | .noop => 0
  | .crc24 => (crc24 bytes).toNat

end Sys2Proof.Machine
end

