-- ==== Sys2Proof/Machine/Units.lean ====
section
/-! DEFINITION. The state of one unit of each kind (`10_state.md` rules R20 to R50) and the records of its output
streams (`30_encoding.md` rule R92).  Plain data. -/

namespace Sys2Proof.Machine

/-! ## FRX and FTX -/

/-- A BitSequence (rule R120): `bits[0..N-1]`, where `N` is the length of the list, and the cursor `c`. -/
structure BitSeq where
  bits : List Bit
  c : Nat
  deriving DecidableEq, Repr

/-- The payload field (rules R23 and R132): storage of `CAP` bits, cursor, and `PAY.end`, the effective length in bits. -/
structure PayField where
  bits : List Bit
  c : Nat
  endBits : Nat
  deriving DecidableEq, Repr

/-- The four fields of a Packet (rule R138). -/
structure Packet where
  pre : BitSeq
  len : BitSeq
  pay : PayField
  ckf : BitSeq
  deriving DecidableEq, Repr

/-- A record at `FRX.PAYLOAD` (rules R92 and R254). -/
structure PayloadRecord where
  len : BitVec 16
  bytes : List Byte
  deriving DecidableEq, Repr

/-- FRX (rules R20 to R25): configuration, the one Packet, and the records emitted at `PAYLOAD`, oldest first. -/
structure FrxUnit where
  cfg : FramerCfg
  pkt : Packet
  payload : List PayloadRecord
  deriving DecidableEq, Repr

/-- FTX (rule R26: no state between operations): configuration and the records emitted at `BITS`. -/
structure FtxUnit where
  cfg : FramerCfg
  bitsOut : List (List Bit)
  deriving DecidableEq, Repr

/-! ## CKS -/

/-- A value at `CKS.VALUE`: `K` bits wide (rule R92). -/
structure CkValue where
  width : Nat
  value : Nat
  deriving DecidableEq, Repr

/-- CKS (rule R27: no state between operations): configuration and what was emitted at `VALUE` and `OK`. -/
structure CksUnit where
  cfg : CksCfg
  valueOut : List CkValue
  okOut : List Bit
  deriving DecidableEq, Repr

/-! ## MOD -/

/-- A ramp (rule R46): `*_from`, `*_to`, `*_k`. -/
structure Ramp where
  fromValue : Num
  toValue : Num
  k : Nat
  deriving DecidableEq, Repr

/-- The oscillator and its ease state (rules R45 and R46). -/
structure Osc where
  freq : Num
  amp : Num
  phase : Num
  fRamp : Ramp
  aRamp : Ramp
  deriving DecidableEq, Repr

/-- A quantised sample, a number of the configured output format (rules R68 and R205). -/
inductive Sample where
  | int8 (q : BitVec 8)
  | int16 (q : BitVec 16)
  | int32 (q : BitVec 32)
  | float32 (v : Rat)
  | float64 (v : Rat)
  deriving DecidableEq, Repr

/-- MOD (rules R45 to R47): configuration, oscillator, `OBUF` oldest first, and what was emitted at `SAMPLES` and
`OSC_OUT`. -/
structure ModUnit where
  cfg : ModCfg
  osc : Osc
  obuf : List Num
  samplesOut : List (List Sample)
  oscOut : List Num
  deriving DecidableEq, Repr

/-! ## GZL -/

/-- One lane of the analyzer: `coeff[i]`, `s1[i]`, `s2[i]` (rules R39 and R48). -/
structure Lane where
  coeff : Num
  s1 : Num
  s2 : Num
  deriving DecidableEq, Repr

/-- The analyzer (rules R39 and R48): its configuration, one lane for each target frequency, and the counter `n`. -/
structure Goertzel where
  cfg : GzlCfg
  lanes : List Lane
  n : Nat
  deriving DecidableEq, Repr

/-- A record at `GZL.RANK` (rules R92 and R214). -/
structure RankRecord where
  energy : List Num
  order : List Nat
  dominant : Nat
  deriving DecidableEq, Repr

/-- GZL: the analyzer and the records emitted at `RANK`. -/
structure GzlUnit where
  gz : Goertzel
  rankOut : List RankRecord
  deriving DecidableEq, Repr

/-! ## DEM -/

/-- The class of a window (rules R33 and R98). -/
inductive Tone where
  | idle | space | mark
  deriving DecidableEq, Repr

/-- DEM (rule R49): configuration, `prev`, `WBUF` and `PACK` oldest first, the private analyzer, and the records
emitted at `BYTES`. -/
structure DemUnit where
  cfg : DemCfg
  prev : Tone
  wbuf : List Num
  pack : List Bit
  gz : Goertzel
  bytesOut : List (List Byte)
  deriving DecidableEq, Repr

/-! ## The ports every unit has -/

/-- What the `ERR` port shows (rules R99 and R261): the error of the operation or reset just ended and what it
recorded.  `configuration none` is an answer of code 1 by a unit for which no failed reset is on record. -/
inductive ErrReport where
  /-- code 0 -/
  | none
  /-- code 1, `ConfigurationError`: the number of the offending register -/
  | configuration (register : Option Nat)
  /-- code 2, `CapacityError`: `L` -/
  | capacity (len : Nat)
  /-- code 3, `BadCommand`: the code -/
  | badCommand (code : BitVec 8)
  deriving DecidableEq, Repr

/-- A unit at its ports: what `ERR` shows, and the state of the unit; no state when it is unconstructed (rule R268). -/
structure Port (α : Type) where
  err : ErrReport
  built : Option α
  deriving DecidableEq, Repr

end Sys2Proof.Machine
end

