-- ==== Sys2Proof/Machine/Flags.lean ====
section
/-! DEFINITION. FRX's flags and phase, functions of its fields (`10_state.md` rules R30 and R31), and the checksum
test they need. -/

namespace Sys2Proof.Machine

/-- `BS.isFulfilled`, rule R123. -/
def BitSeq.isFulfilled (f : BitSeq) : Bool := decide (f.bits.length ≤ f.c)

/-- `BS.value`, rule R124. -/
def BitSeq.value (f : BitSeq) : Nat := val f.bits

/-- `PRE.isValid`, rule R128: the window equals the pattern, bit for bit. -/
def preValid (cfg : FramerCfg) (pkt : Packet) : Bool := pkt.pre.bits == bitsOf cfg.pattern

/-- `PAY.isFulfilled`, rule R134. -/
def PayField.isFulfilled (f : PayField) : Bool := decide (f.endBits ≤ f.c)

/-- `PAY.bytes`, rule R135: the first `PAY.end` bits of the storage, as bytes. -/
def PayField.bytes (f : PayField) : List Byte := bytesOf (f.bits.take f.endBits)

/-- `CKF.verify(B)`, rule R137. -/
def ckfVerify (cfg : FramerCfg) (ckf : BitSeq) (bytes : List Byte) : Bool :=
  ckf.value == checksum cfg.ckAlg bytes

/-- `PKT.isFulfilled`, rule R140. -/
def Packet.isFulfilled (pkt : Packet) : Bool :=
  pkt.len.isFulfilled && pkt.pay.isFulfilled && pkt.ckf.isFulfilled

/-- `PKT.isValid`, rule R141: false for a length above `MAX_PAYLOAD`. -/
def pktValid (cfg : FramerCfg) (pkt : Packet) : Bool :=
  pkt.isFulfilled && decide (pkt.len.value ≤ cfg.maxPayload.toNat) && ckfVerify cfg pkt.ckf pkt.pay.bytes

/-- Which field takes the next bit (rule R31). -/
inductive Phase where
  | hunt | len | pay | cks | done
  deriving DecidableEq, Repr

/-- `FRX.phase`, rule R31. -/
def phaseOf (cfg : FramerCfg) (pkt : Packet) : Phase :=
  if preValid cfg pkt = false then .hunt
  else if pkt.len.isFulfilled = false then .len
  else if pkt.pay.isFulfilled = false then .pay
  else if pkt.ckf.isFulfilled = false then .cks
  else .done

/-- The phase numbers at the status port (rule R92). -/
def Phase.code : Phase → BitVec 3
  | .hunt => 0
  | .len => 1
  | .pay => 2
  | .cks => 3
  | .done => 4

end Sys2Proof.Machine
end

