-- ==== Sys2Proof/Machine/Num.lean ====
section
/-! DEFINITION. The number system `NUM` (rule R17, decision D15): IEEE 754 binary64, the spec's reference form, and
the choice between it and any other one. -/

namespace Sys2Proof.Machine

/-! ## Rounding to a binary format -/

/-- The exponent `e` with `2^e <= n/d < 2^(e+1)`, for `n`, `d` not 0. -/
def binaryExponent (n d : Nat) : Int :=
  let e0 : Int := (Nat.log2 n : Int) - (Nat.log2 d : Int)
  let fits : Bool := if 0 ≤ e0 then Nat.ble (d <<< e0.toNat) n else Nat.ble d (n <<< (-e0).toNat)
  if fits then e0 else e0 - 1

/-- `m * 2^u`. -/
def scaled (m : Int) (u : Int) : Rat :=
  if 0 ≤ u then mkRat (m * ((1 <<< u.toNat : Nat) : Int)) 1 else mkRat m (1 <<< (-u).toNat)

/-- The natural number nearest `num / den`, ties to even. -/
def roundHalfEven (num den : Nat) : Nat :=
  let m := num / den
  let twice := 2 * (num % den)
  if twice < den then m else if den < twice then m + 1 else m + m % 2

/-- `q` rounded to nearest, ties to even, in a binary format with `precision` significant bits, least exponent `emin`
(of the last bit of a subnormal) and all values below `2^emax`; nothing when the rounded value is not below. -/
def roundBinary (precision : Nat) (emin emax : Int) (q : Rat) : Option Rat :=
  let n := q.num.natAbs
  let d := q.den
  let u := max (binaryExponent n d - ((precision : Int) - 1)) emin
  let m := if 0 ≤ u then roundHalfEven n (d <<< u.toNat) else roundHalfEven (n <<< (-u).toNat) d
  let v := scaled (if q.num < 0 then -(m : Int) else (m : Int)) u
  if v.num.natAbs < v.den <<< emax.toNat then some v else none

/-- Rounding to IEEE 754 binary64; a result outside its finite range is a free value (log entry 7). -/
def fl64 (q : Rat) : Rat := (roundBinary 53 (-1074) 1024 q).getD (Config.overflow 53 q)

/-- Rounding to IEEE 754 binary32; a result outside its finite range is a free value (log entry 7). -/
def fl32 (q : Rat) : Rat := (roundBinary 24 (-149) 128 q).getD (Config.overflow 24 q)

/-- `x <= y` on the rational numbers the values stand for. -/
def ratLe (x y : Rat) : Bool := decide (x.num * (y.den : Int) ≤ y.num * (x.den : Int))

/-! ## Sine and cosine, `TWO_PI` and the wrap -/

/-- `2 * π` in binary64: twice the binary64 value nearest `π`. -/
def twoPi64 : Rat := mkRat 884279719003555 140737488355328

/-- The integer part of `(π / 2) * 2^1300`. -/
def halfPiScaled : Nat :=
  34285796271659019131920846242754005522073792510829611114124396090681091074792410727144034864498665878836400312442954197476002839714901544331646622165559354329808277674078220278911739133589808489883827833421902420918779632233744154720890164524202826568464119889025407074544264916870964735424936011786787599244145891174442393555015018952710922924090566493743532934596278687970620818228157145478

/-- Fractional bits of the fixed-point numbers the series are summed in. -/
def fixBits : Nat := 200

/-- The Taylor sum of a sine or cosine from the term `term` on: each next term is `-term * z / (k * (k + 1))`, where
`z` is the square of the angle. -/
def taylor : Nat → Int → Int → Nat → Int
  | 0, _, _, _ => 0
  | terms + 1, z, term, k =>
    term + taylor terms z (-((term * z) >>> fixBits) / ((k * (k + 1) : Nat) : Int)) (k + 2)

/-- Sine and cosine of a fixed-point angle of at most a quarter turn. -/
def sinFix (r : Int) : Int := taylor 24 ((r * r) >>> fixBits) r 2

def cosFix (r : Int) : Int := taylor 24 ((r * r) >>> fixBits) ((1 <<< fixBits : Nat) : Int) 1

/-- The number of quarter turns nearest the absolute value of an angle, and the fixed-point angle that is left. -/
def quarterTurns (x : Rat) : Nat × Int :=
  let scaledX : Nat := (x.num.natAbs <<< 1300) / x.den
  let k := (scaledX + halfPiScaled / 2) / halfPiScaled
  (k, ((scaledX : Int) - ((k * halfPiScaled : Nat) : Int)) >>> (1300 - fixBits))

/-- The sine of `k` quarter turns and the angle `r`, in fixed point. -/
def sinTurned (k : Nat) (r : Int) : Int :=
  match k % 4 with
  | 0 => sinFix r
  | 1 => cosFix r
  | 2 => -sinFix r
  | _ => -cosFix r

/-- The sine in binary64 (log entry 6): the series rounded once; of a tiny angle, its first two terms. -/
def sin64 (x : Rat) : Rat :=
  if x.num.natAbs <<< 40 < x.den then fl64 (x - x * x * x / 6)
  else
    let turned := quarterTurns x
    let y := sinTurned turned.1 turned.2
    fl64 (mkRat (if x.num < 0 then -y else y) (1 <<< fixBits))

/-- The cosine in binary64 (log entry 6). -/
def cos64 (x : Rat) : Rat :=
  let turned := quarterTurns x
  fl64 (mkRat (sinTurned (turned.1 + 1) turned.2) (1 <<< fixBits))

/-- `x mod TWO_PI` in binary64 (rules R16 and R187): `x` less the whole turns in it, rounded; a value that rounds up
to a whole turn is wrapped once more, so that the result is always in `[0, TWO_PI)` (log entry 8). -/
def mod2pi64 (x : Rat) : Rat :=
  let turns := x / twoPi64
  let r := fl64 (x - twoPi64 * ((turns.num / (turns.den : Int) : Int) : Rat))
  if ratLe 0 r && !ratLe twoPi64 r then r else 0

/-! ## The number systems -/

/-- IEEE 754 binary64, the reference form of `NUM` (decision D15): a value is the rational number it stands for, and that
is its code.  DESIGN CHOICE (log entry 25): the spec does not say how a number the host writes becomes a `NUM` value; any
rational number presented, `1/3` say, is taken as it is, and only the results of the functions below are rounded. -/
def binary64 : NumSystem where
  Carrier := Rat
  code x := x
  value x := x
  add x y := fl64 (x + y)
  sub x y := fl64 (x - y)
  mul x y := fl64 (x * y)
  div x y := if y.num = 0 then Config.divByZero x else fl64 (x / y)
  sin := sin64
  cos := cos64
  mod2pi := mod2pi64
  twoPi := twoPi64
  floor x := x.num / (x.den : Int)
  ofInt n := fl64 (mkRat n 1)
  ofRat := fl64
  le := ratLe

/-- The number system a configuration selects. -/
def numSystem : Variant → NumSystem
  | .reference => binary64
  | .other n =>
    match Config.otherNum n with
    | .binary64 => binary64
    | .custom system => system

/-- Its functions, on codes. -/
def numOps (v : Variant) : NumOps := (numSystem v).ops

/-- The integer nearest `x`, halves away from zero (rule R205), found with the number system's own floor and
comparison: `x` lies in `[m, m + 1)`, and a value at the middle goes up from 0 on and down below 0. -/
def roundHalfAway (ops : NumOps) (x : Num) : Int :=
  let m := ops.floor x
  let middle := ops.ofRat (mkRat (2 * m + 1) 2)
  if ops.le ops.zero x then (if ops.le middle x then m + 1 else m)
  else (if ops.le x middle then m else m + 1)

/-- The value of the binary format of `width` 32 or 64 bits nearest a value of a number system (rule R205).  What real
number a value of another number system stands for is not known: a free value there (log entry 11). -/
def nearestBinary (v : Variant) (width : Nat) (x : Num) : Rat :=
  match v with
  | .reference => if width = 32 then fl32 x else fl64 x
  | .other n => Config.otherNearest n width x

end Sys2Proof.Machine
end

