-- ==== Sys2Proof/Machine/Construct.lean ====
section
/-! DEFINITION. Construction of a unit: latching and checking its configuration (`70_reset_and_hazards.md` rules R290,
R291 and R306) and the reset value of every state element (`10_state.md` rule R55). -/

namespace Sys2Proof.Machine

/-- What asserting `RST` with a configuration leads to (rules R290 and R41). -/
inductive Built (α : Type) where
  /-- The unit is constructed. -/
  | ok (unit : α)
  /-- `ConfigurationError`, with the number of the offending register (rules R261 to R263). -/
  | error (register : Nat)
  /-- A configuration the spec gives no meaning (rules R41 and R306). -/
  | refused
  deriving DecidableEq, Repr

/-! ## FRX, FTX and CKS -/

/-- A cleared BitSequence of capacity `n` (rule R122). -/
def BitSeq.fresh (n : Nat) : BitSeq := { bits := List.replicate n false, c := 0 }

/-- `P` (rule R36). -/
def preBits (cfg : FramerCfg) : Nat := 8 * cfg.pattern.length

/-- `CAP` (rule R36). -/
def capBits (cfg : FramerCfg) : Nat := 8 * cfg.maxPayload.toNat

/-- The cleared Packet of a configuration (rules R55 and R292). -/
def Packet.fresh (cfg : FramerCfg) : Packet where
  pre := BitSeq.fresh (preBits cfg)
  len := BitSeq.fresh 16
  pay := { bits := List.replicate (capBits cfg) false, c := 0, endBits := 0 }
  ckf := BitSeq.fresh cfg.ckAlg.width

/-- FRX after reset (rule R55). -/
def FrxUnit.fresh (cfg : FramerCfg) : FrxUnit := { cfg := cfg, pkt := Packet.fresh cfg, payload := [] }

/-- FTX after reset (rule R26). -/
def FtxUnit.fresh (cfg : FramerCfg) : FtxUnit := { cfg := cfg, bitsOut := [] }

/-- CKS after reset (rule R27). -/
def CksUnit.fresh (cfg : CksCfg) : CksUnit := { cfg := cfg, valueOut := [], okOut := [] }

/-- A pattern element that is an integer 0..255 (rule R262). -/
def isByteValue (x : Rat) : Bool := x.den == 1 && decide (0 ≤ x.num) && decide (x.num ≤ 255)

/-- The check of `PATTERN` (rules R291 and R262): absent when `PRE_NBYTES` is 0 (register 0); malformed when not all
of `PATTERN[0..NP-1]` are there as integers 0..255 (register 1).  Log entry 16. -/
def latchFramer (c : FramerCfgIn) : Built FramerCfg :=
  let np := c.preNBytes.toNat
  let shown := c.pattern.take np
  if np = 0 then .error 0
  else if shown.length = np ∧ shown.all isByteValue = true then
    .ok { pattern := shown.map (fun x => BitVec.ofInt 8 x.num), ckAlg := c.ckAlg, maxPayload := c.maxPayload }
  else .error 1

/-! ## MOD -/

/-- A finished ramp at `v` (rule R46). -/
def Ramp.finished (v : Num) (ease : Nat) : Ramp := { fromValue := v, toValue := v, k := ease }

/-- MOD after reset (rule R55). -/
def ModUnit.fresh (cfg : ModCfg) : ModUnit where
  cfg := cfg
  osc := { freq := cfg.fCarrier, amp := cfg.amp, phase := (numOps cfg.num).zero,
           fRamp := Ramp.finished cfg.fCarrier cfg.ease, aRamp := Ramp.finished cfg.amp cfg.ease }
  obuf := []
  samplesOut := []
  oscOut := []

/-- `FS > 0` (rule R306), by the number system's own comparison. -/
def positiveRate (num : Variant) (fs : Num) : Bool := !(numOps num).le fs (numOps num).zero

/-- The check of `DEPTH` (rules R291 and R263: register 6); then the refused configurations (rule R306). -/
def latchMod (c : ModCfgIn) : Built ModCfg :=
  match Depth.ofCode c.depth with
  | none => .error 6
  | some depth =>
    if positiveRate c.num c.fs = true ∧ 0 ≤ c.sps ∧ 0 ≤ c.ease ∧ c.nosc = 1 then
      .ok { num := c.num, easeFn := c.easeFn, codec := c.codec, fMark := c.fMark, fSpace := c.fSpace,
            fCarrier := c.fCarrier, fs := c.fs, sps := c.sps.toNat, ease := c.ease.toNat, depth := depth,
            amp := c.amp }
    else .refused

/-! ## GZL and DEM -/

/-- `coeff[i]`, fixed at reset (rule R211). -/
def coefficient (ops : NumOps) (fs f : Num) : Num :=
  ops.mul (ops.ofInt 2) (ops.cos (ops.div (ops.mul ops.twoPi f) fs))

/-- The analyzer after reset (rules R48 and R55). -/
def Goertzel.fresh (cfg : GzlCfg) : Goertzel where
  cfg := cfg
  lanes :=
    let ops := numOps cfg.num
    cfg.freqs.map (fun f => { coeff := coefficient ops cfg.fs f, s1 := ops.zero, s2 := ops.zero })
  n := 0

/-- GZL after reset. -/
def GzlUnit.fresh (cfg : GzlCfg) : GzlUnit := { gz := Goertzel.fresh cfg, rankOut := [] }

/-- The refused GZL configurations: `NF < 1`, `FS <= 0` (rule R306). -/
def latchGzl (c : GzlCfg) : Built GzlCfg :=
  if 1 ≤ c.freqs.length ∧ positiveRate c.num c.fs = true then .ok c else .refused

/-- The configuration of DEM's private analyzer (rule R228). -/
def demGzCfg (cfg : DemCfg) : GzlCfg :=
  { num := cfg.num, freqs := [cfg.fCarrier, cfg.fMark, cfg.fSpace], fs := cfg.fs }

/-- DEM after reset (rule R55). -/
def DemUnit.fresh (cfg : DemCfg) : DemUnit where
  cfg := cfg
  prev := .idle
  wbuf := []
  pack := []
  gz := Goertzel.fresh (demGzCfg cfg)
  bytesOut := []

/-- The refused DEM configurations (rules R40 and R306). -/
def latchDem (c : DemCfgIn) : Built DemCfg :=
  if positiveRate c.num c.fs = true ∧ 1 ≤ c.win ∧ 1 ≤ c.step ∧ c.step ≤ c.win ∧ c.cls = false then
    .ok { num := c.num, tie := c.tie, fMark := c.fMark, fSpace := c.fSpace, fCarrier := c.fCarrier, fs := c.fs,
          win := c.win.toNat, step := c.step.toNat, cls := c.cls }
  else .refused

end Sys2Proof.Machine
end

