-- ==== Sys2Proof/Machine/State.lean ====
section
/-! DEFINITION. The state of the CORE: one instance of each of the six units at its ports (rules R2 and R20), and
what the host has presented and the units have not yet served. -/

namespace Sys2Proof.Machine

/-- One thing the host does at a unit's inputs (rule R92): a transaction at `CMD`, or `RST` with the values at `CFG`. -/
inductive PortEvent where
  | cmd (t : Transaction)
  | rst (cfg : UnitCfg)
  deriving DecidableEq, Repr

/-- The machine.  `presented` is the model's own (log entry 2): the host's transactions in the order in which it
presents them (rule R77), the next one first. -/
structure State where
  presented : List PortEvent
  frx : Port FrxUnit
  ftx : Port FtxUnit
  cks : Port CksUnit
  mod : Port ModUnit
  gzl : Port GzlUnit
  dem : Port DemUnit
  deriving DecidableEq, Repr

/-- The machine never stops with a fault: every error of the spec is reported at an `ERR` port and the unit goes on
(rules R268 and R269), so there is no fault to name. -/
inductive Fault where
  deriving DecidableEq, Repr

/-- Why a step has no meaning.  Every one is safe: the model stops where the spec says nothing. -/
inductive Refusal where
  /-- Raised by an arm of `exec` that has no meaning yet.  Safe. -/
  | notModelled (mnemonic : String)
  /-- Raised by `RST` with a configuration the spec refuses: "a model gives such a configuration no meaning (no
  instance can be constructed with it)" (rules R41 and R306).  Safe. -/
  | refusedConfiguration (unit : UnitName)
  /-- Raised for a transaction whose byte lane does not hold the announced `L` bytes: it is not a transaction of rule
  R91, and the spec gives it no effect (log entry 3).  Safe. -/
  | operandMismatch (unit : UnitName)
  deriving DecidableEq, Repr

/-! ## The configuration of the state after reset

The spec has no defaults inside the hardware (rule R7): the host presents every register.  These are the values the
model's reset is given: UT's named defaults where there are any (rule R294), the values of program S4 for the rest.
DESIGN CHOICE, log entry 4. -/

/-- FRX and FTX: the pattern `0xAA 0xAA 0xAA`, the no-op checksum, 1522 bytes (rule R294). -/
def resetFramerCfg : FramerCfg := { pattern := [0xAA, 0xAA, 0xAA], ckAlg := .noop, maxPayload := 1522 }

def resetCksCfg : CksCfg := { ckAlg := .noop }

/-- MOD: the values of program S4. -/
def resetModCfg : ModCfg where
  num := .reference
  easeFn := .reference
  codec := .reference
  fMark := 2000
  fSpace := 3000
  fCarrier := 1000
  fs := 8000
  sps := 8
  ease := 0
  depth := .d64
  amp := 1

/-- GZL: the frequencies of vectors V39 to V41. -/
def resetGzlCfg : GzlCfg := { num := .reference, freqs := [1000, 2000, 3000], fs := 8000 }

/-- DEM: the values of program S4. -/
def resetDemCfg : DemCfg where
  num := .reference
  tie := .reference
  fMark := 2000
  fSpace := 3000
  fCarrier := 1000
  fs := 8000
  win := 8
  step := 8
  cls := false

/-- A unit right after a successful reset: `ERR = 0` (rule R290). -/
def Port.after {α : Type} (unit : α) : Port α := { err := .none, built := some unit }

/-- The machine right after the reset of every unit (rules R55 and R290); nothing is presented yet. -/
def State.reset : State where
  presented := []
  frx := Port.after (FrxUnit.fresh resetFramerCfg)
  ftx := Port.after (FtxUnit.fresh resetFramerCfg)
  cks := Port.after (CksUnit.fresh resetCksCfg)
  mod := Port.after (ModUnit.fresh resetModCfg)
  gzl := Port.after (GzlUnit.fresh resetGzlCfg)
  dem := Port.after (DemUnit.fresh resetDemCfg)

/-! ## Replacing one field -/

def State.setPresented (s : State) (l : List PortEvent) : State := { s with presented := l }
def State.setFrx (s : State) (p : Port FrxUnit) : State := { s with frx := p }
def State.setFtx (s : State) (p : Port FtxUnit) : State := { s with ftx := p }
def State.setCks (s : State) (p : Port CksUnit) : State := { s with cks := p }
def State.setMod (s : State) (p : Port ModUnit) : State := { s with mod := p }
def State.setGzl (s : State) (p : Port GzlUnit) : State := { s with gzl := p }
def State.setDem (s : State) (p : Port DemUnit) : State := { s with dem := p }

end Sys2Proof.Machine
end

