-- ==== Sys2Proof/Machine/Operands.lean ====
section
/-! DEFINITION. The operand forms (`30_encoding.md` rule R91): how an operand that is more than the value itself is
read.  A bit, a `NUM` and a byte list are read as they are; a byte is a run of eight bits, and the stored checksum of
`CK_VERIFY` is as wide as the configured algorithm. -/

namespace Sys2Proof.Machine

/-- The eight received bits of an `RX_PUSHB` operand, in time order: bit 7 first (rules R67 and R252). -/
def receivedBits (byte : Byte) : List Bit := bits8 byte

/-- The `K`-bit operand `v` of `CK_VERIFY` (rule R174): the `K` low lines; for `K = 0` the empty value 0. -/
def storedValue (alg : CkAlg) (v : BitVec 24) : Nat := v.toNat % 2 ^ alg.width

/-- The bit that an emitted class is: the class code itself (rule R230). -/
def Tone.bit : Tone → Bit
  | .mark => true
  | .space => false
  | .idle => false

/-- "mark(1), space(0), or idle(-1)" (rule R98). -/
def Tone.code : Tone → Int
  | .mark => 1
  | .space => 0
  | .idle => -1

end Sys2Proof.Machine
end

