-- ==== Sys2Proof/Machine/Ops.lean ====
section
/-! DEFINITION. The shared operations: serving an operation at a unit's ports with the errors it can raise, and the
primitives of the packet fields (`40_bitsequence_packet.md`). -/

namespace Sys2Proof.Machine

/-! ## Serving an operation: error entry

The one way an operation ends (rules R13, R90 and R268).  There is no return from an error, since there is no handler
context (rule R269). -/

/-- What an unconstructed unit answers: code 1 again (rule R268), with what its failed reset recorded (log entry 13). -/
def ErrReport.again : ErrReport → ErrReport
  | .configuration register => .configuration register
  | _ => .configuration Option.none

/-- Perform one operation of a unit: a normal end shows code 0; an error is shown and leaves the unit as it was; an
unconstructed unit accepts nothing. -/
def Port.serve {α : Type} (p : Port α) (op : α → Except ErrReport α) : Port α :=
  match p.built with
  | none => { p with err := p.err.again }
  | some u =>
    match op u with
    | .ok u' => { err := .none, built := some u' }
    | .error e => { p with err := e }

/-- An operation that cannot fail (rule R261, last paragraph). -/
def Port.run {α : Type} (p : Port α) (op : α → α) : Port α := p.serve (fun u => .ok (op u))

/-- A reserved command at a unit (rules R97 and R261): `BadCommand` with the code, no state change. -/
def Port.reject {α : Type} (p : Port α) (code : BitVec 8) : Port α := p.serve (fun _ => .error (.badCommand code))

/-- A reserved command at the port of the named unit. -/
def rejectCommand (s : State) (u : UnitName) (code : BitVec 8) : State :=
  match u with
  | .frx => s.setFrx (s.frx.reject code)
  | .ftx => s.setFtx (s.ftx.reject code)
  | .cks => s.setCks (s.cks.reject code)
  | .mod => s.setMod (s.mod.reject code)
  | .gzl => s.setGzl (s.gzl.reject code)
  | .dem => s.setDem (s.dem.reject code)

/-! ## BitSequence -/

/-- `BS.push(F, b)`, rule R121. -/
def BitSeq.push (f : BitSeq) (b : Bit) : BitSeq :=
  if f.bits.length ≤ f.c then f else { bits := f.bits.set f.c b, c := f.c + 1 }

/-- `BS.clear(F)`, rule R122. -/
def BitSeq.clear (f : BitSeq) : BitSeq := { bits := List.replicate f.bits.length false, c := 0 }

/-- `BS.setValue(F, v)`, rule R125. -/
def BitSeq.setValue (f : BitSeq) (v : Nat) : BitSeq := { bits := bitsN f.bits.length v, c := f.bits.length }

/-! ## Preamble and payload -/

/-- `PRE.shift(b)`, rule R127: the oldest bit falls off, the cursor stays. -/
def preShift (f : BitSeq) (b : Bit) : BitSeq := { f with bits := f.bits.tail ++ [b] }

/-- `PRE.fill()`, rule R129. -/
def preFill (cfg : FramerCfg) : BitSeq := { bits := bitsOf cfg.pattern, c := (preBits cfg) }

/-- `PAY.push(b)`, rule R133: past the storage a bit is counted and not stored. -/
def PayField.push (f : PayField) (b : Bit) : PayField :=
  if f.endBits ≤ f.c then f
  else { f with bits := if f.c < f.bits.length then f.bits.set f.c b else f.bits, c := f.c + 1 }

/-- `BS.clear(PAY); PAY.end <- 0` (rule R142). -/
def PayField.clear (f : PayField) : PayField :=
  { bits := List.replicate f.bits.length false, c := 0, endBits := 0 }

/-! ## Packet -/

/-- The push of a bit in phase `LEN` (rules R139 and R131): the 16th length bit sets `PAY.end`. -/
def pushLen (pkt : Packet) (b : Bit) : Packet :=
  let len := pkt.len.push b
  { pkt with
    len := len
    pay := if len.isFulfilled then { pkt.pay with endBits := 8 * len.value } else pkt.pay }

/-- `PKT.push(b)`, rule R139: the phase before the bit decides which field takes it. -/
def pktPush (cfg : FramerCfg) (pkt : Packet) (b : Bit) : Packet :=
  match phaseOf cfg pkt with
  | .hunt => { pkt with pre := preShift pkt.pre b }
  | .len => pushLen pkt b
  | .pay => { pkt with pay := pkt.pay.push b }
  | .cks => { pkt with ckf := pkt.ckf.push b }
  | .done => pkt

/-- `PKT.clear()`, rule R142. -/
def Packet.clear (pkt : Packet) : Packet where
  pre := pkt.pre.clear
  len := pkt.len.clear
  pay := pkt.pay.clear
  ckf := pkt.ckf.clear

end Sys2Proof.Machine
end

