-- ==== Sys2Proof/Machine/Checksum.lean ====
section
/-! DEFINITION. CKS: `CK_CALC` and `CK_VERIFY` (`42_checksum.md`). -/

namespace Sys2Proof.Machine

/-- `CK_CALC L, B`, rule R170. -/
def execCkCalc (_len : BitVec 16) (bytes : List Byte) (s : State) : Host.Outcome State Fault Refusal :=
  .next (s.setCks (s.cks.run (fun u =>
    { u with valueOut := u.valueOut ++ [{ width := u.cfg.ckAlg.width, value := checksum u.cfg.ckAlg bytes }] })))

/-- `CK_VERIFY v, L, B`, rule R174. -/
def execCkVerify (v : BitVec 24) (_len : BitVec 16) (bytes : List Byte) (s : State) :
    Host.Outcome State Fault Refusal :=
  .next (s.setCks (s.cks.run (fun u =>
    { u with okOut := u.okOut ++ [storedValue u.cfg.ckAlg v == checksum u.cfg.ckAlg bytes] })))

end Sys2Proof.Machine
end

