-- ==== Sys2Proof/Machine/Analyzer.lean ====
section
/-! DEFINITION. GZL: `GZ_SAMPLE`, `GZ_RANK`, `GZ_RESET` (`44_analyzer.md`), and the analysis of a window. -/

namespace Sys2Proof.Machine

/-- One sample for one lane, rule R212. -/
def Lane.sample (ops : NumOps) (x : Num) (l : Lane) : Lane :=
  { l with s1 := ops.sub (ops.add x (ops.mul l.coeff l.s1)) l.s2, s2 := l.s1 }

/-- `GZ_SAMPLE x` on the analyzer, rule R212: every lane, and the counter. -/
def Goertzel.sample (g : Goertzel) (x : Num) : Goertzel :=
  { g with lanes := g.lanes.map (Lane.sample (numOps g.cfg.num) x), n := g.n + 1 }

/-- `energy[i]`, rule R213. -/
def Lane.energy (ops : NumOps) (l : Lane) : Num :=
  ops.sub (ops.add (ops.mul l.s1 l.s1) (ops.mul l.s2 l.s2)) (ops.mul (ops.mul l.coeff l.s1) l.s2)

/-- Put an index into a ranking, after every index whose energy is at least its own (rule R215: a stable sort). -/
def insertRank (le : Num → Num → Bool) (x : Nat × Num) : List (Nat × Num) → List (Nat × Num)
  | [] => [x]
  | y :: ys => if le x.2 y.2 then y :: insertRank le x ys else x :: y :: ys

/-- The indices by energy descending, lower index first among equals (rules R214 and R215). -/
def rankOrder (le : Num → Num → Bool) (energy : List Num) : List Nat :=
  ((energy.zipIdx.foldl (fun ranked e => insertRank le (e.2, e.1) ranked) []).map Prod.fst)

/-- What `GZ_RANK` reports, rule R214. -/
def Goertzel.rank (g : Goertzel) : RankRecord :=
  let ops := numOps g.cfg.num
  let energy := g.lanes.map (Lane.energy ops)
  let order := rankOrder ops.le energy
  { energy := energy, order := order, dominant := order.headD 0 }

/-- `GZ_RESET` on the analyzer, rule R216: the coefficients are kept. -/
def Goertzel.clear (g : Goertzel) : Goertzel :=
  let zero := (numOps g.cfg.num).zero
  { g with lanes := g.lanes.map (fun l => { l with s1 := zero, s2 := zero }), n := 0 }

/-- `analyse_window(W)`, rule R217: the analyzer after the window. -/
def Goertzel.window (g : Goertzel) (w : List Num) : Goertzel := w.foldl Goertzel.sample g.clear

/-- `GZ_SAMPLE x`, rule R212. -/
def execGzSample (x : Num) (s : State) : Host.Outcome State Fault Refusal :=
  .next (s.setGzl (s.gzl.run (fun u => { u with gz := u.gz.sample x })))

/-- `GZ_RANK`, rule R214: the accumulators stay. -/
def execGzRank (s : State) : Host.Outcome State Fault Refusal :=
  .next (s.setGzl (s.gzl.run (fun u => { u with rankOut := u.rankOut ++ [u.gz.rank] })))

/-- `GZ_RESET`, rule R216. -/
def execGzReset (s : State) : Host.Outcome State Fault Refusal :=
  .next (s.setGzl (s.gzl.run (fun u => { u with gz := u.gz.clear })))

end Sys2Proof.Machine
end

