-- ==== Sys2Proof/Machine/Demodulator.lean ====
section
/-! DEFINITION. DEM: `DM_SAMPLE` and `DM_FLUSH` (`45_demodulator.md`). -/

namespace Sys2Proof.Machine

/-- `classify(dom)`, rule R229, on the index order carrier, mark, space (rule R228). -/
def classify (dominant : Nat) : Tone :=
  match dominant with
  | 0 => .idle
  | 1 => .mark
  | _ => .space

/-- Space is not below mark: with mark dominant, a tie (93 U6). -/
def markSpaceTie (ops : NumOps) (r : RankRecord) : Bool :=
  match r.energy with
  | [_, mark, space] => ops.le mark space
  | _ => false

/-- The class of a ranked window.  Mark and space tied above the carrier: the lower index, mark (rule R215), or, in
another build, whichever it is (93 U6, log entry 12). -/
def windowClass (cfg : DemCfg) (r : RankRecord) : Tone :=
  match cfg.tie with
  | .reference => classify r.dominant
  | .other n =>
    if r.dominant = 1 ∧ markSpaceTie (numOps cfg.num) r = true then
      if Config.otherTie n r.energy then .mark else .space
    else classify r.dominant

/-- The end of a window, rules R226 and R231 to R233: a bit only from idle to non-idle; `prev` in every case; the
oldest `STEP` samples leave. -/
def closeWindow (u : DemUnit) (w : List Num) : DemUnit :=
  let gz := u.gz.window w
  let cur := windowClass u.cfg gz.rank
  { u with
    gz := gz
    pack := if u.prev = .idle ∧ cur ≠ .idle then u.pack ++ [cur.bit] else u.pack
    prev := cur
    wbuf := w.drop u.cfg.step }

/-- `DM_SAMPLE x` on the unit, rule R226. -/
def dmSample (x : Num) (u : DemUnit) : DemUnit :=
  let w := u.wbuf ++ [x]
  if w.length = u.cfg.win then closeWindow u w else { u with wbuf := w }

/-- `DM_FLUSH` on the unit, rule R243: whole bytes leave, 0 to 7 bits stay. -/
def dmFlush (u : DemUnit) : DemUnit :=
  let m := u.pack.length / 8
  { u with bytesOut := u.bytesOut ++ [bytesOf u.pack], pack := u.pack.drop (8 * m) }

/-- `DM_SAMPLE x`, rule R226. -/
def execDmSample (x : Num) (s : State) : Host.Outcome State Fault Refusal :=
  .next (s.setDem (s.dem.run (dmSample x)))

/-- `DM_FLUSH`, rule R243. -/
def execDmFlush (s : State) : Host.Outcome State Fault Refusal :=
  .next (s.setDem (s.dem.run dmFlush))

end Sys2Proof.Machine
end

