-- ==== Sys2Proof/Machine/Encoder.lean ====
section
/-! DEFINITION. FTX: `TX_ENCODE` (`41_encoder.md`). -/

namespace Sys2Proof.Machine

/-- The local Packet of rule R160, filled: preamble, length, payload bits one by one, checksum. -/
def encodedPacket (cfg : FramerCfg) (len : Nat) (bytes : List Byte) : Packet :=
  let t := Packet.fresh cfg
  { pre := preFill cfg
    len := t.len.setValue len
    pay := (bitsOf bytes).foldl PayField.push { t.pay with endBits := 8 * len }
    ckf := t.ckf.setValue (checksum cfg.ckAlg bytes) }

/-- The bits emitted at `FTX.BITS` (rule R160, last line). -/
def packetBits (cfg : FramerCfg) (len : Nat) (pkt : Packet) : List Bit :=
  pkt.pre.bits.take (preBits cfg) ++ pkt.len.bits.take 16 ++ pkt.pay.bits.take (8 * len) ++
    pkt.ckf.bits.take cfg.ckAlg.width

/-- Rule R160 on the unit; `CapacityError` (rule R161) before any output. -/
def txEncode (len : BitVec 16) (bytes : List Byte) (u : FtxUnit) : Except ErrReport FtxUnit :=
  if u.cfg.maxPayload.toNat < len.toNat then .error (.capacity len.toNat)
  else .ok { u with bitsOut := u.bitsOut ++ [packetBits u.cfg len.toNat (encodedPacket u.cfg len.toNat bytes)] }

/-- `TX_ENCODE L, B`, rule R160. -/
def execTxEncode (len : BitVec 16) (bytes : List Byte) (s : State) : Host.Outcome State Fault Refusal :=
  .next (s.setFtx (s.ftx.serve (txEncode len bytes)))

end Sys2Proof.Machine
end

