-- ==== Sys2Proof/Machine/Framer.lean ====
section
/-! DEFINITION. FRX: `RX_PUSH`, `RX_PUSHB`, `RX_CLEAR`, `PK_PUSH` (`46_decoder.md`, `40_bitsequence_packet.md`). -/

namespace Sys2Proof.Machine

/-- One turn of the Decoder loop, rule R250: push; a fulfilled packet is emitted if valid, and cleared. -/
def decoderPush (u : FrxUnit) (b : Bit) : FrxUnit :=
  let pkt := pktPush u.cfg u.pkt b
  if pkt.isFulfilled then
    { u with
      pkt := pkt.clear
      payload :=
        if pktValid u.cfg pkt then
          u.payload ++ [{ len := BitVec.ofNat 16 pkt.len.value, bytes := pkt.pay.bytes }]
        else u.payload }
  else { u with pkt := pkt }

/-- `RX_PUSH b`, rule R250. -/
def execRxPush (b : Bit) (s : State) : Host.Outcome State Fault Refusal :=
  .next (s.setFrx (s.frx.run (fun u => decoderPush u b)))

/-- `RX_PUSHB B`, rule R252: eight turns, bit 7 first, as one operation. -/
def execRxPushb (byte : Byte) (s : State) : Host.Outcome State Fault Refusal :=
  .next (s.setFrx (s.frx.run (fun u => (receivedBits byte).foldl decoderPush u)))

/-- `RX_CLEAR`, rule R145: the records already emitted stay. -/
def execRxClear (s : State) : Host.Outcome State Fault Refusal :=
  .next (s.setFrx (s.frx.run (fun u => { u with pkt := u.pkt.clear })))

/-- `PK_PUSH b`, rule R144: the push and nothing else. -/
def execPkPush (b : Bit) (s : State) : Host.Outcome State Fault Refusal :=
  .next (s.setFrx (s.frx.run (fun u => { u with pkt := pktPush u.cfg u.pkt b })))

end Sys2Proof.Machine
end

