-- ==== Sys2Proof/Machine/Modulator.lean ====
section
/-! DEFINITION. MOD: `MOD_SYM`, `OSC_SETF`, `OSC_SETA`, `OSC_STEP`, `MOD_FLUSH` (`43_modulator.md`). -/

namespace Sys2Proof.Machine

/-! ## The oscillator -/

/-- The value of a ramp at its sample `k` of `ease`, rule R182: `from + (to - from) * k / EASE` on the linear curve, and
with another `EASE_FN(k, E)` in place of `k / E` (decision D18).  Every curve is at the target on sample `ease` (rule
R188 b, 93 U11).  Log entries 9 and 10. -/
def easeCurve (cfg : ModCfg) (fromValue toValue : Num) (k : Nat) : Num :=
  if k = cfg.ease then toValue
  else
    let ops := numOps cfg.num
    let height := ops.sub toValue fromValue
    match cfg.easeFn with
    | .reference => ops.add fromValue (ops.div (ops.mul height (ops.ofInt k)) (ops.ofInt cfg.ease))
    | .other n => ops.add fromValue (ops.mul height (Config.otherEase n k cfg.ease))

/-- `ease_advance`, rule R182: the value in force for the next sample, and the ramp one sample on. -/
def easeAdvance (cfg : ModCfg) (r : Ramp) : Num × Ramp :=
  if r.k < cfg.ease then (easeCurve cfg r.fromValue r.toValue (r.k + 1), { r with k := r.k + 1 })
  else (r.toValue, r)

/-- `OSC_SETF`, rule R183. -/
def Osc.setFreq (o : Osc) (f : Num) : Osc := { o with fRamp := { fromValue := o.freq, toValue := f, k := 0 } }

/-- `OSC_SETA`, rule R184. -/
def Osc.setAmp (o : Osc) (a : Num) : Osc := { o with aRamp := { fromValue := o.amp, toValue := a, k := 0 } }

/-- The increment `TWO_PI * f / FS`, rule R181. -/
def phaseStep (cfg : ModCfg) (f : Num) : Num :=
  let ops := numOps cfg.num
  ops.div (ops.mul ops.twoPi f) cfg.fs

/-- `OSC_STEP`, rule R185: ramps first, the sample at the old phase, then the phase by the new frequency. -/
def Osc.advance (cfg : ModCfg) (o : Osc) : Num × Osc :=
  let ops := numOps cfg.num
  let f := easeAdvance cfg o.fRamp
  let a := easeAdvance cfg o.aRamp
  (ops.mul a.1 (ops.sin o.phase),
   { freq := f.1, amp := a.1, phase := ops.mod2pi (ops.add o.phase (phaseStep cfg f.1)), fRamp := f.2, aRamp := a.2 })

/-! ## Mixer and sequencer -/

/-- `mix`, rule R195: the sum of the oscillators' samples. -/
def mix (ops : NumOps) : List Num → Num
  | [] => ops.zero
  | y :: ys => ys.foldl ops.add y

/-- `n` times `OSC_STEP`: the samples and the oscillator after them (rule R200). -/
def render (cfg : ModCfg) : Nat → Osc → List Num × Osc
  | 0, o => ([], o)
  | n + 1, o =>
    let one := o.advance cfg
    let rest := render cfg n one.2
    (mix (numOps cfg.num) [one.1] :: rest.1, rest.2)

/-- `MOD_SYM b`, rule R200: the idle half, then the mark or space half. -/
def modSym (b : Bit) (u : ModUnit) : ModUnit :=
  let idle := render u.cfg u.cfg.sps (u.osc.setFreq u.cfg.fCarrier)
  let data := render u.cfg u.cfg.sps (idle.2.setFreq (if b then u.cfg.fMark else u.cfg.fSpace))
  { u with osc := data.2, obuf := u.obuf ++ idle.1 ++ data.1 }

/-! ## The quantiser -/

/-- An integer output of `width` bits (rule R205): scale, round half away from zero, clamp. -/
def codecInt (cfg : ModCfg) (width : Nat) (y : Num) : Int :=
  match cfg.codec with
  | .reference =>
    let full : Int := 2 ^ (width - 1)
    let ops := numOps cfg.num
    let q := roundHalfAway ops (ops.mul y (ops.ofInt (full - 1)))
    max (-full) (min q (full - 1))
  | .other n => Config.otherCodecInt n width y

/-- `quantise(y)`, rule R205. -/
def quantise (cfg : ModCfg) (y : Num) : Sample :=
  match cfg.depth with
  | .d8 => .int8 (BitVec.ofInt 8 (codecInt cfg 8 y))
  | .d16 => .int16 (BitVec.ofInt 16 (codecInt cfg 16 y))
  | .d32 => .int32 (BitVec.ofInt 32 (codecInt cfg 32 y))
  | .d32f =>
    match cfg.codec with
    | .reference => .float32 (nearestBinary cfg.num 32 y)
    | .other n => .float32 (Config.otherCodecFloat n 32 y)
  | .d64 =>
    match cfg.codec with
    | .reference => .float64 (nearestBinary cfg.num 64 y)
    | .other n => .float64 (Config.otherCodecFloat n 64 y)

/-! ## The operations -/

/-- `MOD_SYM b`, rule R200. -/
def execModSym (b : Bit) (s : State) : Host.Outcome State Fault Refusal :=
  .next (s.setMod (s.mod.run (modSym b)))

/-- `OSC_SETF f`, rule R183. -/
def execOscSetf (f : Num) (s : State) : Host.Outcome State Fault Refusal :=
  .next (s.setMod (s.mod.run (fun u => { u with osc := u.osc.setFreq f })))

/-- `OSC_SETA a`, rule R184. -/
def execOscSeta (a : Num) (s : State) : Host.Outcome State Fault Refusal :=
  .next (s.setMod (s.mod.run (fun u => { u with osc := u.osc.setAmp a })))

/-- `OSC_STEP`, rule R185: the sample goes to `OSC_OUT`, unquantised (rule R206). -/
def execOscStep (s : State) : Host.Outcome State Fault Refusal :=
  .next (s.setMod (s.mod.run (fun u =>
    let one := u.osc.advance u.cfg
    { u with osc := one.2, oscOut := u.oscOut ++ [one.1] })))

/-- `MOD_FLUSH`, rule R204. -/
def execModFlush (s : State) : Host.Outcome State Fault Refusal :=
  .next (s.setMod (s.mod.run (fun u =>
    { u with samplesOut := u.samplesOut ++ [u.obuf.map (quantise u.cfg)], obuf := [] })))

end Sys2Proof.Machine
end

