-- ==== Sys2Proof/Machine/Dispatch.lean ====
section
/-! DEFINITION. One arm per operation. -/

namespace Sys2Proof.Machine

def exec (i : Instr) (s : State) : Host.Outcome State Fault Refusal :=
  match i with
  -- FRX
  | .rxPush b => Sys2Proof.Machine.execRxPush b s
  | .rxPushb byte => Sys2Proof.Machine.execRxPushb byte s
  | .rxClear => Sys2Proof.Machine.execRxClear s
  | .pkPush b => Sys2Proof.Machine.execPkPush b s
  -- FTX
  | .txEncode len bytes => Sys2Proof.Machine.execTxEncode len bytes s
  -- CKS
  | .ckCalc len bytes => Sys2Proof.Machine.execCkCalc len bytes s
  | .ckVerify v len bytes => Sys2Proof.Machine.execCkVerify v len bytes s
  -- MOD
  | .modSym b => Sys2Proof.Machine.execModSym b s
  | .oscSetf f => Sys2Proof.Machine.execOscSetf f s
  | .oscSeta a => Sys2Proof.Machine.execOscSeta a s
  | .oscStep => Sys2Proof.Machine.execOscStep s
  | .modFlush => Sys2Proof.Machine.execModFlush s
  -- GZL
  | .gzSample x => Sys2Proof.Machine.execGzSample x s
  | .gzRank => Sys2Proof.Machine.execGzRank s
  | .gzReset => Sys2Proof.Machine.execGzReset s
  -- DEM
  | .dmSample x => Sys2Proof.Machine.execDmSample x s
  | .dmFlush => Sys2Proof.Machine.execDmFlush s

end Sys2Proof.Machine
end

