-- ==== Sys2Proof/Machine/Reset.lean ====
section
/-! DEFINITION. Asserting `RST` on one unit (`70_reset_and_hazards.md` rules R290 and R291). -/

namespace Sys2Proof.Machine

/-- What a unit's reset leaves at its ports: the fresh unit and code 0; or `ConfigurationError` and an unconstructed
unit (rule R268); nothing for a refused configuration. -/
def Built.port {α β : Type} (fresh : α → β) : Built α → Option (Port β)
  | .ok cfg => some (Port.after (fresh cfg))
  | .error register => some { err := .configuration (some register), built := none }
  | .refused => none

/-- Install what a reset left, or refuse the configuration (rule R41). -/
def installed {β : Type} (u : UnitName) (set : Port β → State) :
    Option (Port β) → Host.Outcome State Fault Refusal
  | some p => .next (set p)
  | none => .refused (.refusedConfiguration u)

/-- `RST` on the unit whose configuration is presented (rule R290); no other unit is touched (rule R75). -/
def resetUnit (cfg : UnitCfg) (s : State) : Host.Outcome State Fault Refusal :=
  match cfg with
  | .frx c => installed .frx s.setFrx ((latchFramer c).port FrxUnit.fresh)
  | .ftx c => installed .ftx s.setFtx ((latchFramer c).port FtxUnit.fresh)
  | .cks c => installed .cks s.setCks ((Built.ok c).port CksUnit.fresh)
  | .mod c => installed .mod s.setMod ((latchMod c).port ModUnit.fresh)
  | .gzl c => installed .gzl s.setGzl ((latchGzl c).port GzlUnit.fresh)
  | .dem c => installed .dem s.setDem ((latchDem c).port DemUnit.fresh)

/-- Whether a unit is constructed. -/
def unitBuilt (s : State) (u : UnitName) : Bool :=
  match u with
  | .frx => s.frx.built.isSome
  | .ftx => s.ftx.built.isSome
  | .cks => s.cks.built.isSome
  | .mod => s.mod.built.isSome
  | .gzl => s.gzl.built.isSome
  | .dem => s.dem.built.isSome

/-- The transaction of an event was no operation: `BadCommand` at that unit (rule R97), or no meaning where the
transaction is not all there (log entry 3).  An unconstructed unit answers code 1 to either (rule R268). -/
def rejectTransaction (t : Transaction) (e : DecodeError) (s : State) : Host.Outcome State Fault Refusal :=
  match e with
  | .badCommand => .next (rejectCommand s t.unit t.code)
  | .operandMismatch =>
    if unitBuilt s t.unit then .refused (.operandMismatch t.unit) else .next (rejectCommand s t.unit t.code)

end Sys2Proof.Machine
end

