-- ==== Sys2Proof/Machine/Status.lean ====
section
/-! DEFINITION. The status ports (`30_encoding.md` rule R92): combinational, read at any time without side effect
(rule R74). -/

namespace Sys2Proof.Machine

/-- `FRX.STATUS` (rule R92). -/
structure FrxStatus where
  phase : BitVec 3
  preValid : Bool
  lenC : BitVec 5
  lenValue : BitVec 16
  payC : BitVec 19
  payEnd : BitVec 19
  ckC : BitVec 5
  fulfilled : Bool
  valid : Bool
  deriving DecidableEq, Repr

def FrxUnit.status (u : FrxUnit) : FrxStatus where
  phase := (phaseOf u.cfg u.pkt).code
  preValid := Sys2Proof.Machine.preValid u.cfg u.pkt
  lenC := BitVec.ofNat 5 u.pkt.len.c
  lenValue := BitVec.ofNat 16 u.pkt.len.value
  payC := BitVec.ofNat 19 u.pkt.pay.c
  payEnd := BitVec.ofNat 19 u.pkt.pay.endBits
  ckC := BitVec.ofNat 5 u.pkt.ckf.c
  fulfilled := u.pkt.isFulfilled
  valid := pktValid u.cfg u.pkt

/-- `MOD.STATUS` (rule R92). -/
structure ModStatus where
  obufN : Nat
  fBusy : Bool
  aBusy : Bool
  deriving DecidableEq, Repr

def ModUnit.status (u : ModUnit) : ModStatus where
  obufN := u.obuf.length
  fBusy := decide (u.osc.fRamp.k < u.cfg.ease)
  aBusy := decide (u.osc.aRamp.k < u.cfg.ease)

/-- `DEM.STATUS` (rule R92); `prev` in two's complement. -/
structure DemStatus where
  prev : BitVec 2
  wbufN : Nat
  packN : Nat
  deriving DecidableEq, Repr

def DemUnit.status (u : DemUnit) : DemStatus where
  prev := BitVec.ofInt 2 u.prev.code
  wbufN := u.wbuf.length
  packN := u.pack.length

/-- The code at the `ERR` port (rule R99). -/
def ErrReport.code : ErrReport → Nat
  | .none => 0
  | .configuration _ => 1
  | .capacity _ => 2
  | .badCommand _ => 3

end Sys2Proof.Machine
end

