-- ==== Sys2Proof/Machine/Step.lean ====
section
/-! DEFINITION. One step: the next thing the host presented is served to completion (rules R15, R77 and R90); where
nothing is presented the machine keeps its state (rule R82). -/

namespace Sys2Proof.Machine

def step (s : State) : Host.Outcome State Fault Refusal :=
  match s.presented with
  | [] => .next s
  | .rst cfg :: rest => resetUnit cfg (s.setPresented rest)
  | .cmd t :: rest =>
    match decode t with
    | .ok i => exec i (s.setPresented rest)
    | .error e => rejectTransaction t e (s.setPresented rest)

/-- The state in which the transaction of a table row is the next one presented (log entry 2). -/
def State.withFetchWord (s : State) (nbits w : Nat) : State :=
  s.setPresented (.cmd (tableTransaction nbits w) :: s.presented)

end Sys2Proof.Machine
end

