-- ==== Sys2Proof/Safety.lean ====
section
/-! DEFINITION. The terms claims are stated in: runs of operations, and the invariant of the state, which says of every
unit what its registers can hold (`10_state.md`). -/

namespace Sys2Proof.Machine

/-! ## Runs -/

/-- Operations one after another (rule R77), until one does not answer a next state. -/
def execAll : List Instr → State → Host.Outcome State Fault Refusal
  | [], s => .next s
  | i :: rest, s =>
    match exec i s with
    | .next t => execAll rest t
    | .fault r => .fault r
    | .refused r => .refused r

/-- So many steps one after another, until one does not answer a next state. -/
def stepTimes : Nat → State → Host.Outcome State Fault Refusal
  | 0, s => .next s
  | n + 1, s =>
    match step s with
    | .next t => stepTimes n t
    | .fault r => .fault r
    | .refused r => .refused r

/-- The pseudo-operation `RX_FEED s` (rule R103). -/
def rxFeed (bits : List Bit) : List Instr := bits.map Instr.rxPush

/-- `PK_PUSH` of the bits of a sequence in order. -/
def pkFeed (bits : List Bit) : List Instr := bits.map Instr.pkPush

/-- The pseudo-operation `DM_FEED X` (rule R103). -/
def dmFeed (xs : List Num) : List Instr := xs.map Instr.dmSample

/-! ## Looking at one unit -/

/-- What the `ERR` port of a unit shows. -/
def State.err (s : State) : UnitName → ErrReport
  | .frx => s.frx.err
  | .ftx => s.ftx.err
  | .cks => s.cks.err
  | .mod => s.mod.err
  | .gzl => s.gzl.err
  | .dem => s.dem.err

/-- A port of `t` is as it was in `s`: what `ERR` shows and the unit. -/
def samePort (s t : State) : UnitName → Prop
  | .frx => t.frx = s.frx
  | .ftx => t.ftx = s.ftx
  | .cks => t.cks = s.cks
  | .mod => t.mod = s.mod
  | .gzl => t.gzl = s.gzl
  | .dem => t.dem = s.dem

/-- No unit of `t` differs from that of `s`, whatever the `ERR` ports show. -/
structure SameUnits (s t : State) : Prop where
  frx : t.frx.built = s.frx.built
  ftx : t.ftx.built = s.ftx.built
  cks : t.cks.built = s.cks.built
  mod : t.mod.built = s.mod.built
  gzl : t.gzl.built = s.gzl.built
  dem : t.dem.built = s.dem.built

/-- The configuration registers of every constructed unit. -/
structure Configuration where
  frx : Option FramerCfg
  ftx : Option FramerCfg
  cks : Option CksCfg
  mod : Option ModCfg
  gzl : Option GzlCfg
  dem : Option DemCfg
  demGz : Option GzlCfg
  deriving DecidableEq, Repr

def State.configuration (s : State) : Configuration where
  frx := s.frx.built.map FrxUnit.cfg
  ftx := s.ftx.built.map FtxUnit.cfg
  cks := s.cks.built.map CksUnit.cfg
  mod := s.mod.built.map ModUnit.cfg
  gzl := s.gzl.built.map (fun u => u.gz.cfg)
  dem := s.dem.built.map DemUnit.cfg
  demGz := s.dem.built.map (fun u => u.gz.cfg)

/-- The output streams of rule R92, oldest record first; nothing for an unconstructed unit. -/
structure Outputs where
  payload : List PayloadRecord
  bits : List (List Bit)
  value : List CkValue
  ok : List Bit
  samples : List (List Sample)
  oscOut : List Num
  rank : List RankRecord
  bytes : List (List Byte)
  deriving DecidableEq, Repr

def State.outputs (s : State) : Outputs where
  payload := (s.frx.built.map FrxUnit.payload).getD []
  bits := (s.ftx.built.map FtxUnit.bitsOut).getD []
  value := (s.cks.built.map CksUnit.valueOut).getD []
  ok := (s.cks.built.map CksUnit.okOut).getD []
  samples := (s.mod.built.map ModUnit.samplesOut).getD []
  oscOut := (s.mod.built.map ModUnit.oscOut).getD []
  rank := (s.gzl.built.map GzlUnit.rankOut).getD []
  bytes := (s.dem.built.map DemUnit.bytesOut).getD []

/-- Every output stream of `a` is the beginning of that of `b`. -/
structure Outputs.Begins (a b : Outputs) : Prop where
  payload : a.payload <+: b.payload
  bits : a.bits <+: b.bits
  value : a.value <+: b.value
  ok : a.ok <+: b.ok
  samples : a.samples <+: b.samples
  oscOut : a.oscOut <+: b.oscOut
  rank : a.rank <+: b.rank
  bytes : a.bytes <+: b.bytes

/-! ## What a number system is assumed to do, where a claim assumes anything -/

/-- A number system whose comparison, floor and half-integers (as far as any output format reaches) are those of the real
numbers its values stand for. -/
structure NumOpsReads (ops : NumOps) (real : Num → ℝ) : Prop where
  le : ∀ x y, ops.le x y = true ↔ real x ≤ real y
  floor : ∀ x, ops.floor x = ⌊real x⌋
  zero : real ops.zero = 0
  middle : ∀ m : Int, |m| ≤ 2 ^ 31 → real (ops.ofRat (mkRat (2 * m + 1) 2)) = m + 1 / 2

/-- Over a ramp of `ease` samples from `x` to `x` the arithmetic of a ramp stays at `x`: what it needs of a difference, a
product, a quotient and a sum with 0. -/
structure NumOpsZeroHeight (ops : NumOps) (x : Num) (ease : Nat) : Prop where
  sub : ops.sub x x = ops.zero
  mul : ∀ y, ops.mul ops.zero y = ops.zero
  div : 0 < ease → ops.div ops.zero (ops.ofInt ease) = ops.zero
  add : ops.add x ops.zero = x

/-- Exact arithmetic. -/
structure NumOpsExact (ops : NumOps) : Prop where
  add : ∀ x y, ops.add x y = x + y
  sub : ∀ x y, ops.sub x y = x - y
  mul : ∀ x y, ops.mul x y = x * y

/-- Comparison is a total order (up to equality of values that compare both ways). -/
structure NumOpsOrdered (ops : NumOps) : Prop where
  total : ∀ x y, ops.le x y = true ∨ ops.le y x = true
  trans : ∀ x y z, ops.le x y = true → ops.le y z = true → ops.le x z = true

/-! ## The spec's own functions, for claims -/

/-- The unit and code columns of rule R91. -/
def listedCommands : List (UnitName × BitVec 8) :=
  [(.frx, 0x10), (.frx, 0x11), (.frx, 0x12), (.frx, 0x13), (.ftx, 0x20), (.cks, 0x30), (.cks, 0x31), (.mod, 0x40),
   (.mod, 0x41), (.mod, 0x42), (.mod, 0x43), (.mod, 0x44), (.gzl, 0x50), (.gzl, 0x51), (.gzl, 0x52), (.dem, 0x60),
   (.dem, 0x61)]

/-- The finite values of an IEEE binary format: `m * 2^e` with fewer than `precision + 1` bits in `m`. -/
def BinaryValue (precision : Nat) (emin emax : Int) (v : Rat) : Prop :=
  ∃ m e : Int, |m| < 2 ^ precision ∧ emin ≤ e ∧ e ≤ emax ∧ v = m * (2 : Rat) ^ e

/-- `v` is a value of the format nearest `y`. -/
def NearestBinaryValue (precision : Nat) (emin emax : Int) (y v : Rat) : Prop :=
  BinaryValue precision emin emax v ∧ ∀ w, BinaryValue precision emin emax w → |y - v| ≤ |y - w|

/-- `packet(B)`, rule R93. -/
def wirePacket (cfg : FramerCfg) (bytes : List Byte) : List Bit :=
  bitsOf cfg.pattern ++ bitsN 16 bytes.length ++ bitsOf bytes ++ bitsN cfg.ckAlg.width (checksum cfg.ckAlg bytes)

/-- Rule R172 on natural numbers, with no width: one input byte. -/
def crcByteOnNat (r : Nat) (b : Byte) : Nat :=
  Nat.iterate (fun r => let r := 2 * r; if r.testBit 24 then r ^^^ 0x1864CFB else r) 8 (r ^^^ (b.toNat * 2 ^ 16))

/-- Rule R172 on natural numbers. -/
def crc24OnNat (bytes : List Byte) : Nat := bytes.foldl crcByteOnNat 0xB704CE &&& 0xFFFFFF

/-- The bits an edge trigger emits for a run of window classes, given the class before them (rule R231). -/
def edgeBits : Tone → List Tone → List Bit
  | _, [] => []
  | prev, cur :: rest => (if prev = .idle ∧ cur ≠ .idle then [cur.bit] else []) ++ edgeBits cur rest

/-- The class of a window by itself, for a configuration (rule R217: it depends on nothing before the window). -/
def classOfWindow (cfg : DemCfg) (w : List Num) : Tone :=
  windowClass cfg ((Goertzel.fresh (demGzCfg cfg)).window w).rank

/-- The number of windows completed after `n` samples (rule R233). -/
def windowsAfter (win step n : Nat) : Nat := if n < win then 0 else (n - win) / step + 1

/-- The angle `m` turns of the rotation `(c, s)` away from 0, as its cosine and sine. -/
def turnBy (c s : Rat) : Nat → Rat × Rat
  | 0 => (1, 0)
  | m + 1 => let p := turnBy c s m; (p.1 * c - p.2 * s, p.2 * c + p.1 * s)

/-! ## The invariant -/

/-- Bits at and after the cursor are 0 (rule R124: "bits not yet written are 0 after a clear"). -/
def zeroFrom (bits : List Bit) (c : Nat) : Prop := bits.drop c = List.replicate (bits.length - c) false

/-- The widths and ranges of the packet fields (rules R21 to R24), and what the routing of rule R139 keeps: a field is
begun only when those before it are full. -/
structure PacketInv (cfg : FramerCfg) (pkt : Packet) : Prop where
  patternLength : 1 ≤ cfg.pattern.length ∧ cfg.pattern.length ≤ 255
  preBits : pkt.pre.bits.length = preBits cfg
  preCursor : pkt.pre.c = 0
  lenBits : pkt.len.bits.length = 16
  lenCursor : pkt.len.c ≤ 16
  payBits : pkt.pay.bits.length = capBits cfg
  payCursor : pkt.pay.c ≤ pkt.pay.endBits
  payEnd : pkt.pay.endBits = if pkt.len.c = 16 then 8 * pkt.len.value else 0
  ckfBits : pkt.ckf.bits.length = cfg.ckAlg.width
  ckfCursor : pkt.ckf.c ≤ cfg.ckAlg.width
  lenBegun : 0 < pkt.len.c → preValid cfg pkt = true
  ckfBegun : 0 < pkt.ckf.c → pkt.len.c = 16 ∧ pkt.pay.c = pkt.pay.endBits
  lenZero : zeroFrom pkt.len.bits pkt.len.c
  payZero : zeroFrom pkt.pay.bits pkt.pay.c
  ckfZero : zeroFrom pkt.ckf.bits pkt.ckf.c

/-- FRX. -/
def FrxUnit.Inv (u : FrxUnit) : Prop := PacketInv u.cfg u.pkt

/-- FTX: a pattern of 1 to 255 bytes (rule R36). -/
def FtxUnit.Inv (u : FtxUnit) : Prop := 1 ≤ u.cfg.pattern.length ∧ u.cfg.pattern.length ≤ 255

/-- `0 <= OSC.phase < TWO_PI` (rules R45 and R187), for the reference number system. -/
def phaseWrapped (u : ModUnit) : Prop :=
  u.cfg.num = .reference → 0 ≤ u.osc.phase ∧ u.osc.phase < twoPi64

/-- MOD: ramp counters at most `EASE` (rule R46), the phase wrapped, a rate the rules have a meaning for (rule R306). -/
structure ModInv (u : ModUnit) : Prop where
  fRamp : u.osc.fRamp.k ≤ u.cfg.ease
  aRamp : u.osc.aRamp.k ≤ u.cfg.ease
  phase : phaseWrapped u
  rate : positiveRate u.cfg.num u.cfg.fs = true

/-- The analyzer: one lane for each of at least one frequency, with the coefficient computed at reset (rules R39, R48
and R211). -/
structure GoertzelInv (g : Goertzel) : Prop where
  someFreq : 1 ≤ g.cfg.freqs.length
  coeffs : g.lanes.map Lane.coeff = g.cfg.freqs.map (coefficient (numOps g.cfg.num) g.cfg.fs)
  rate : positiveRate g.cfg.num g.cfg.fs = true

/-- DEM: `1 <= STEP <= WIN`, the three-tone classifier, an unfinished window in `WBUF` (rules R40 and R50), its analyzer as rule R228 says. -/
structure DemInv (u : DemUnit) : Prop where
  step : 1 ≤ u.cfg.step ∧ u.cfg.step ≤ u.cfg.win
  threeTone : u.cfg.cls = false
  window : u.wbuf.length < u.cfg.win
  gzCfg : u.gz.cfg = demGzCfg u.cfg
  gz : GoertzelInv u.gz

/-- A unit at its ports: an unconstructed unit shows code 1 (rule R268); a constructed one keeps its invariant. -/
def Port.Inv {α : Type} (inv : α → Prop) (p : Port α) : Prop :=
  match p.built with
  | none => p.err.code = 1
  | some u => inv u

/-- The invariant of the machine. -/
structure State.Inv (s : State) : Prop where
  frx : s.frx.Inv FrxUnit.Inv
  ftx : s.ftx.Inv FtxUnit.Inv
  cks : s.cks.Inv (fun _ => True)
  mod : s.mod.Inv ModInv
  gzl : s.gzl.Inv (fun u => GoertzelInv u.gz)
  dem : s.dem.Inv DemInv

end Sys2Proof.Machine
end

