-- ==== Sys2Proof/Certificates/Slice0/Obligations.lean ====
section
/-! DEFINITION. The statements for the provers. -/

open Sys2Proof Sys2Proof.Machine

/-! ## FRX -/

/-- `PK_PUSH b` (rule R144) is `PKT.push(b)` (rule R139): the phase before the bit decides which field takes it; the
16th length bit sets `PAY.end` (rule R131); a payload bit past the storage is counted and not stored (the update past the
end of a list changes nothing), which is this spec's own reading of conflict C5 (rule R133; log entry 15, 93 U3); in
phase `DONE` nothing happens (rule R150).  Nothing else changes. -/
def Obligations.PacketPushRoutesOneBit : Prop :=
  ∀ (s : State) (u : FrxUnit) (b : Bit), s.frx.built = some u → u.pkt.len.bits.length = 16 →
    exec (.pkPush b) s = .next (s.setFrx (Port.after { u with
      pkt :=
        match phaseOf u.cfg u.pkt with
        | .hunt => { u.pkt with pre := { bits := u.pkt.pre.bits.drop 1 ++ [b], c := u.pkt.pre.c } }
        | .len =>
          let bits := u.pkt.len.bits.set u.pkt.len.c b
          { u.pkt with
            len := { bits := bits, c := u.pkt.len.c + 1 }
            pay := { u.pkt.pay with endBits := if 16 ≤ u.pkt.len.c + 1 then 8 * val bits else u.pkt.pay.endBits } }
        | .pay =>
          { u.pkt with
            pay := { u.pkt.pay with bits := u.pkt.pay.bits.set u.pkt.pay.c b, c := u.pkt.pay.c + 1 } }
        | .cks => { u.pkt with ckf := { bits := u.pkt.ckf.bits.set u.pkt.ckf.c b, c := u.pkt.ckf.c + 1 } }
        | .done => u.pkt }))

/-- How the phase advances under `PK_PUSH` (rule R32).  For a length above `MAX_PAYLOAD`, that the phase stays `PAY` for all
`8 * L` bits holds under this spec's rule only (log entry 15, 93 U3). -/
def Obligations.PhaseAdvancesByFieldCounts : Prop :=
  ∀ (s : State) (u : FrxUnit) (b : Bit), s.frx.built = some u → u.Inv →
    ∃ v, exec (.pkPush b) s = .next (s.setFrx (Port.after v)) ∧ v.cfg = u.cfg ∧
      let afterLen : Phase :=
        if 0 < v.pkt.len.value then .pay else if 0 < u.cfg.ckAlg.width then .cks else .done
      let afterPay : Phase := if 0 < u.cfg.ckAlg.width then .cks else .done
      phaseOf v.cfg v.pkt =
        match phaseOf u.cfg u.pkt with
        | .hunt => if u.pkt.pre.bits.drop 1 ++ [b] = bitsOf u.cfg.pattern then .len else .hunt
        | .len => if u.pkt.len.c + 1 < 16 then .len else afterLen
        | .pay => if u.pkt.pay.c + 1 < u.pkt.pay.endBits then .pay else afterPay
        | .cks => if u.pkt.ckf.c + 1 < u.cfg.ckAlg.width then .cks else .done
        | .done => .done

/-- `RX_PUSH b` (rule R250): the push; a fulfilled packet is emitted when its length is at most `MAX_PAYLOAD` and its
checksum matches (rules R141 and R251), and the packet is cleared in either case; afterwards the phase is never `DONE`
and `fulfilled` and `valid` read 0. -/
def Obligations.DecoderEmitsOrDropsAndClears : Prop :=
  ∀ (s : State) (u : FrxUnit) (b : Bit), s.frx.built = some u → u.Inv →
    ∃ v p, exec (.rxPush b) s = .next (s.setFrx (Port.after v)) ∧
      exec (.pkPush b) s = .next (s.setFrx (Port.after { u with pkt := p })) ∧
      v.cfg = u.cfg ∧
      (p.isFulfilled = true →
        v.pkt = Packet.fresh u.cfg ∧
        v.payload = u.payload ++
          (if p.len.value ≤ u.cfg.maxPayload.toNat ∧
              val p.ckf.bits = checksum u.cfg.ckAlg (bytesOf (p.pay.bits.take (8 * p.len.value))) then
            [{ len := BitVec.ofNat 16 p.len.value, bytes := bytesOf (p.pay.bits.take (8 * p.len.value)) }]
          else [])) ∧
      (p.isFulfilled = false → v.pkt = p ∧ v.payload = u.payload) ∧
      phaseOf v.cfg v.pkt ≠ .done ∧ v.pkt.isFulfilled = false ∧ pktValid v.cfg v.pkt = false

/-- `RX_PUSHB B` is eight `RX_PUSH`, bit 7 first, and emits at most one record (rule R252). -/
def Obligations.ByteIsEightPushesFirstBitSeven : Prop :=
  ∀ (s : State) (u : FrxUnit) (byte : Byte), s.frx.built = some u → u.Inv →
    ∃ v, exec (.rxPushb byte) s = .next (s.setFrx (Port.after v)) ∧
      execAll (rxFeed [byte.getLsbD 7, byte.getLsbD 6, byte.getLsbD 5, byte.getLsbD 4, byte.getLsbD 3,
        byte.getLsbD 2, byte.getLsbD 1, byte.getLsbD 0]) s = .next (s.setFrx (Port.after v)) ∧
      (v.payload = u.payload ∨ ∃ r, v.payload = u.payload ++ [r])

/-- `RX_CLEAR` gives the reset state of FRX's fields, leaves the emitted records, and applied again changes nothing
(rules R142, R145, R146 and R292). -/
def Obligations.ClearGivesTheResetFields : Prop :=
  ∀ (s : State) (u : FrxUnit), s.frx.built = some u → u.Inv →
    let cleared : FrxUnit :=
      { u with
        pkt :=
          { pre := { bits := List.replicate (8 * u.cfg.pattern.length) false, c := 0 },
            len := { bits := List.replicate 16 false, c := 0 },
            pay := { bits := List.replicate (8 * u.cfg.maxPayload.toNat) false, c := 0, endBits := 0 },
            ckf := { bits := List.replicate u.cfg.ckAlg.width false, c := 0 } } }
    exec .rxClear s = .next (s.setFrx (Port.after cleared)) ∧
    execAll [.rxClear, .rxClear] s = .next (s.setFrx (Port.after cleared)) ∧
    cleared.pkt = (FrxUnit.fresh u.cfg).pkt ∧ cleared.pkt.isFulfilled = false

/-- The packet is fulfilled when its length, payload and checksum fields are, which is exactly in phase `DONE`
(rule R140). -/
def Obligations.FulfilledExactlyInPhaseDone : Prop :=
  ∀ u : FrxUnit, u.Inv →
    (u.pkt.isFulfilled = true ↔
      16 ≤ u.pkt.len.c ∧ u.pkt.pay.endBits ≤ u.pkt.pay.c ∧ u.cfg.ckAlg.width ≤ u.pkt.ckf.c) ∧
    (u.pkt.isFulfilled = true ↔ phaseOf u.cfg u.pkt = .done)

/-- From the match on, exactly `16 + 8 * L + K` bits are consumed, `L` being what the first 16 spell, and the window is
not shifted meanwhile (rule R143).  For an `L` above `MAX_PAYLOAD` this holds under this spec's rule only (log entry 15,
93 U3). -/
def Obligations.LockLastsTheCountedBits : Prop :=
  ∀ (s : State) (u : FrxUnit) (bits : List Bit), s.frx.built = some u → u.Inv → preValid u.cfg u.pkt = true →
    u.pkt.len.c = 0 → bits.length = 16 + 8 * val (bits.take 16) + u.cfg.ckAlg.width →
    ∀ n ≤ bits.length, ∃ t v, execAll (pkFeed (bits.take n)) s = .next t ∧ t.frx.built = some v ∧
      v.cfg = u.cfg ∧ v.pkt.pre = u.pkt.pre ∧ v.payload = u.payload ∧
      (phaseOf v.cfg v.pkt = .done ↔ n = bits.length)

/-- No payload longer than `MAX_PAYLOAD` is ever emitted, and a record holds as many bytes as its length says
(rules R251 and R254; 93 U3: safe under every reading of an over-long length field). -/
def Obligations.NoOversizePayloadIsEmitted : Prop :=
  ∀ (i : Instr) (s t : State) (u v : FrxUnit), s.frx.built = some u → u.Inv → exec i s = .next t →
    t.frx.built = some v → ∀ r ∈ v.payload,
      r ∈ u.payload ∨ (r.len.toNat ≤ u.cfg.maxPayload.toNat ∧ r.bytes.length = r.len.toNat)

/-- Flipping any one bit of the payload or of the checksum of a valid packet makes it invalid with CRC-24; with the
no-op checksum a flipped payload bit goes unnoticed (rule R176). -/
def Obligations.SingleBitFlipSoundness : Prop :=
  ∀ (cfg : FramerCfg) (pkt : Packet), PacketInv cfg pkt → pktValid cfg pkt = true →
    (∀ k < pkt.pay.endBits,
      pktValid cfg { pkt with pay := { pkt.pay with bits := pkt.pay.bits.set k (!pkt.pay.bits.getD k false) } }
        = decide (cfg.ckAlg = .noop)) ∧
    (∀ k < cfg.ckAlg.width,
      pktValid cfg { pkt with ckf := { pkt.ckf with bits := pkt.ckf.bits.set k (!pkt.ckf.bits.getD k false) } }
        = false)

/-- The status port shows the cursors whole: their registers are as wide as rules R22 to R24 and R92 say. -/
def Obligations.StatusShowsCursorsWhole : Prop :=
  ∀ u : FrxUnit, u.Inv →
    u.status.lenC.toNat = u.pkt.len.c ∧ u.status.lenValue.toNat = val u.pkt.len.bits ∧
    u.status.payC.toNat = u.pkt.pay.c ∧ u.status.payEnd.toNat = u.pkt.pay.endBits ∧
    u.status.ckC.toNat = u.pkt.ckf.c

/-- With a pattern of zero bits only, the cleared window matches already and the phase is `LEN` (rule R148 b); with any
other pattern the cleared framer hunts. -/
def Obligations.ZeroPatternMatchesTheClearedWindow : Prop :=
  ∀ cfg : FramerCfg,
    phaseOf cfg (Packet.fresh cfg) = if ∀ b ∈ cfg.pattern, b = 0 then Phase.len else Phase.hunt

/-! ## FTX -/

/-- `TX_ENCODE` emits `packet(B)` (rules R160 and R93). -/
def Obligations.EncoderEmitsTheWirePacket : Prop :=
  ∀ (s : State) (u : FtxUnit) (len : BitVec 16) (bytes : List Byte), s.ftx.built = some u →
    (Instr.txEncode len bytes).wellFormed = true → len.toNat ≤ u.cfg.maxPayload.toNat →
    exec (.txEncode len bytes) s = .next (s.setFtx (Port.after { u with
      bitsOut := u.bitsOut ++
        [bitsOf u.cfg.pattern ++ bitsN 16 len.toNat ++ bitsOf bytes ++
          bitsN u.cfg.ckAlg.width (checksum u.cfg.ckAlg bytes)] }))

/-- A payload above `MAX_PAYLOAD` is a `CapacityError`, code 2, that records `L`; nothing is emitted and no unit changes
(rule R161); a payload of exactly `MAX_PAYLOAD` bytes, and every shorter one, is encoded with code 0. -/
def Obligations.OversizePayloadIsCapacityError : Prop :=
  ∀ (s : State) (u : FtxUnit) (len : BitVec 16) (bytes : List Byte), s.ftx.built = some u →
    (u.cfg.maxPayload.toNat < len.toNat →
      ∃ t, exec (.txEncode len bytes) s = .next t ∧ t.ftx = { err := .capacity len.toNat, built := some u } ∧
        t.ftx.err.code = 2 ∧ SameUnits s t ∧ t.outputs = s.outputs ∧ t.presented = s.presented) ∧
    (len.toNat ≤ u.cfg.maxPayload.toNat →
      ∃ t v w, exec (.txEncode len bytes) s = .next t ∧ t.ftx.err.code = 0 ∧ t.ftx.built = some v ∧
        v.bitsOut = u.bitsOut ++ [w])

/-- The bit positions of an emitted packet (rule R94) and its length (rule R160). -/
def Obligations.PacketBitPositions : Prop :=
  ∀ (s : State) (u : FtxUnit) (len : BitVec 16) (bytes : List Byte), s.ftx.built = some u →
    (Instr.txEncode len bytes).wellFormed = true → len.toNat ≤ u.cfg.maxPayload.toNat →
    ∃ t v w, exec (.txEncode len bytes) s = .next t ∧ t.ftx.built = some v ∧ v.bitsOut = u.bitsOut ++ [w] ∧
      let p := 8 * u.cfg.pattern.length
      let l := len.toNat
      let k := u.cfg.ckAlg.width
      w.length = p + 16 + 8 * l + k ∧
      (∀ i < p, w[i]? = some ((u.cfg.pattern.getD (i / 8) 0).getLsbD (7 - i % 8))) ∧
      (∀ i < 16, w[p + i]? = some (len.getLsbD (15 - i))) ∧
      (∀ i < 8 * l, w[p + 16 + i]? = some ((bytes.getD (i / 8) 0).getLsbD (7 - i % 8))) ∧
      (∀ i < k, w[p + 16 + 8 * l + i]? = some ((checksum u.cfg.ckAlg bytes).testBit (k - 1 - i)))

/-- Round trip at the bit level (rule R165): the bits FTX emits for a payload, fed to a cleared FRX of the same pattern
and checksum with `RX_PUSH`, emit exactly that payload and leave FRX cleared, unless the pattern is all zeros. -/
def Obligations.EncodedPacketIsReceivedWhole : Prop :=
  ∀ (s : State) (tx : FtxUnit) (rx : FrxUnit) (len : BitVec 16) (bytes : List Byte),
    s.ftx.built = some tx → s.frx.built = some rx → rx.Inv → rx.pkt = Packet.fresh rx.cfg →
    tx.cfg.pattern = rx.cfg.pattern → tx.cfg.ckAlg = rx.cfg.ckAlg → (∃ b ∈ rx.cfg.pattern, b ≠ 0) →
    (Instr.txEncode len bytes).wellFormed = true → len.toNat ≤ tx.cfg.maxPayload.toNat →
    len.toNat ≤ rx.cfg.maxPayload.toNat →
    ∃ t v w, exec (.txEncode len bytes) s = .next t ∧ t.ftx.built = some v ∧ v.bitsOut = tx.bitsOut ++ [w] ∧
      execAll (rxFeed w) t = .next (t.setFrx (Port.after { rx with
        payload := rx.payload ++ [{ len := len, bytes := bytes }] }))

/-! ## CKS -/

/-- `CK_CALC` with CRC-24 is the loop of rule R172 on natural numbers, so no bit is lost in the 25-bit register; with
the no-op it emits the empty value 0 (rule R171). -/
def Obligations.ChecksumIsTheLoopOnNumbers : Prop :=
  ∀ (s : State) (u : CksUnit) (len : BitVec 16) (bytes : List Byte), s.cks.built = some u →
    exec (.ckCalc len bytes) s = .next (s.setCks (Port.after { u with
      valueOut := u.valueOut ++
        [match u.cfg.ckAlg with
          | .noop => { width := 0, value := 0 }
          | .crc24 => { width := 24, value := crc24OnNat bytes }] }))

/-- The CRC register stays below `2^24` between iterations and bytes, and below `2^25` within an iteration (rule R173 a):
the XOR of an input byte touches bits 23..16 only, no shift loses a bit, and a whole byte is the byte step on numbers. -/
def Obligations.CrcRegisterNeverLosesABit : Prop :=
  ∀ (r : BitVec 25) (b : Byte), r.toNat < 2 ^ 24 →
    (r <<< 1).toNat = 2 * r.toNat ∧ (r <<< 1).toNat < 2 ^ 25 ∧ (crcShift r).toNat < 2 ^ 24 ∧
    (r ^^^ (b.zeroExtend 25 <<< 16)).toNat = r.toNat ^^^ (b.toNat * 2 ^ 16) ∧
    (r ^^^ (b.zeroExtend 25 <<< 16)).toNat < 2 ^ 24 ∧
    (crcByte r b).toNat = crcByteOnNat r.toNat b ∧ (crcByte r b).toNat < 2 ^ 24

/-- `CK_VERIFY` emits 1 exactly when the stored value is the calculated one; always 1 with the no-op (rule R174). -/
def Obligations.VerifyTellsEquality : Prop :=
  ∀ (s : State) (u : CksUnit) (v : BitVec 24) (len : BitVec 16) (bytes : List Byte), s.cks.built = some u →
    exec (.ckVerify v len bytes) s = .next (s.setCks (Port.after { u with
      okOut := u.okOut ++
        [match u.cfg.ckAlg with
          | .noop => true
          | .crc24 => decide (v.toNat = checksum .crc24 bytes)] }))

/-! ## MOD -/

/-- `OSC_SETF f` and `OSC_SETA a` start a ramp from the value in force and change nothing else (rules R183 and
R184). -/
def Obligations.SettingATargetStartsARamp : Prop :=
  ∀ (s : State) (u : ModUnit) (x : Sys2Proof.Num), s.mod.built = some u →
    exec (.oscSetf x) s = .next (s.setMod (Port.after { u with
      osc := { u.osc with fRamp := { fromValue := u.osc.freq, toValue := x, k := 0 } } })) ∧
    exec (.oscSeta x) s = .next (s.setMod (Port.after { u with
      osc := { u.osc with aRamp := { fromValue := u.osc.amp, toValue := x, k := 0 } } }))

/-- `OSC_STEP` (rule R185): ramps first (rule R182), the sample at the old phase, then the phase by the new frequency;
the sample goes to `OSC_OUT` (rule R206).  The order of
evaluation in a rounding number system is the model's (log entry 9). -/
def Obligations.OscillatorStepOrder : Prop :=
  ∀ (s : State) (u : ModUnit), s.mod.built = some u →
    let ops := numOps u.cfg.num
    let ramp (r : Ramp) : Sys2Proof.Num × Ramp :=
      if r.k < u.cfg.ease then
        (easeCurve u.cfg r.fromValue r.toValue (r.k + 1), { r with k := r.k + 1 })
      else (r.toValue, r)
    let f := ramp u.osc.fRamp
    let a := ramp u.osc.aRamp
    exec .oscStep s = .next (s.setMod (Port.after { u with
      osc :=
        { freq := f.1
          amp := a.1
          phase := ops.mod2pi (ops.add u.osc.phase (ops.div (ops.mul ops.twoPi f.1) u.cfg.fs))
          fRamp := f.2
          aRamp := a.2 }
      oscOut := u.oscOut ++ [ops.mul a.1 (ops.sin u.osc.phase)] }))

/-- A change of frequency is complete after `EASE` samples (rule R188 a and b), and before that the frequency in force
after `n` samples is the ease curve at `n` (rule R182): `from + (to - from) * n / EASE` on the linear curve, and with
`EASE_FN(n, EASE)` in place of `n / EASE` on another (decision D18).  That every curve ends exactly at its target also
under rounding, and the order of evaluation, are the model's (log entries 9 and 10). -/
def Obligations.FrequencyRampRunsItsCurve : Prop :=
  ∀ (s : State) (u : ModUnit) (f : Sys2Proof.Num) (n : Nat), s.mod.built = some u → 1 ≤ n →
    let ops := numOps u.cfg.num
    ∃ t v, execAll (.oscSetf f :: List.replicate n .oscStep) s = .next t ∧ t.mod.built = some v ∧
      (u.cfg.ease ≤ n → v.osc.freq = f) ∧
      (n < u.cfg.ease → v.osc.freq = easeCurve u.cfg u.osc.freq f n) ∧
      (n < u.cfg.ease → u.cfg.easeFn = .reference → v.osc.freq = ops.add u.osc.freq
        (ops.div (ops.mul (ops.sub f u.osc.freq) (ops.ofInt n)) (ops.ofInt u.cfg.ease))) ∧
      (n < u.cfg.ease → ∀ m, u.cfg.easeFn = .other m → v.osc.freq = ops.add u.osc.freq
        (ops.mul (ops.sub f u.osc.freq) (Config.otherEase m n u.cfg.ease)))

/-- A change of amplitude (rules R184 and R188, "the amplitude ramp is alike") is complete after `EASE` samples, and
before that the amplitude in force after `n` samples is the ease curve at `n` (rule R182): `from + (to - from) * n / EASE`
on the linear curve, and with `EASE_FN(n, EASE)` in place of `n / EASE` on another (decision D18).  The frequency and the
phase are what they are without it.  That every curve ends exactly at its target also under rounding, and the order of
evaluation, are the model's (log entries 9 and 10). -/
def Obligations.AmplitudeRampRunsItsCurve : Prop :=
  ∀ (s : State) (u : ModUnit) (a : Sys2Proof.Num) (n : Nat), s.mod.built = some u → 1 ≤ n →
    let ops := numOps u.cfg.num
    ∃ t v t' v', execAll (.oscSeta a :: List.replicate n .oscStep) s = .next t ∧ t.mod.built = some v ∧
      (u.cfg.ease ≤ n → v.osc.amp = a) ∧
      (n < u.cfg.ease → v.osc.amp = easeCurve u.cfg u.osc.amp a n) ∧
      (n < u.cfg.ease → u.cfg.easeFn = .reference → v.osc.amp = ops.add u.osc.amp
        (ops.div (ops.mul (ops.sub a u.osc.amp) (ops.ofInt n)) (ops.ofInt u.cfg.ease))) ∧
      (n < u.cfg.ease → ∀ m, u.cfg.easeFn = .other m → v.osc.amp = ops.add u.osc.amp
        (ops.mul (ops.sub a u.osc.amp) (Config.otherEase m n u.cfg.ease))) ∧
      execAll (List.replicate n .oscStep) s = .next t' ∧ t'.mod.built = some v' ∧
      v.osc.freq = v'.osc.freq ∧ v.osc.fRamp = v'.osc.fRamp ∧ v.osc.phase = v'.osc.phase

/-- Setting the target the oscillator already holds is harmless (rules R183 and R184): on every ease curve the value stays
what it is over any number of samples.  In binary64, for a value that is a binary64 value (the model keeps others too, log
entry 25) and an `EASE` in its range; and in every number system in which a difference, product, quotient and sum with 0
are what they are for real numbers. -/
def Obligations.ZeroHeightRampIsHarmless : Prop :=
  ∀ (s : State) (u : ModUnit) (n : Nat), s.mod.built = some u →
    let flat (x : Sys2Proof.Num) : Prop :=
      (u.cfg.num = .reference ∧ BinaryValue 53 (-1074) 971 x ∧
        (u.cfg.ease : Rat) ≤ (2 ^ 53 - 1) * (2 : Rat) ^ (971 : Int)) ∨
      NumOpsZeroHeight (numOps u.cfg.num) x u.cfg.ease
    (flat u.osc.freq → ∃ t v, execAll (.oscSetf u.osc.freq :: List.replicate n .oscStep) s = .next t ∧
      t.mod.built = some v ∧ v.osc.freq = u.osc.freq) ∧
    (flat u.osc.amp → ∃ t v, execAll (.oscSeta u.osc.amp :: List.replicate n .oscStep) s = .next t ∧
      t.mod.built = some v ∧ v.osc.amp = u.osc.amp)

/-- `MOD_SYM b` is: the carrier for `SPS` oscillator steps, then the mark or space frequency for `SPS` steps, the
`2 * SPS` samples going to `OBUF` (rule R200). -/
def Obligations.SymbolIsCarrierThenTone : Prop :=
  ∀ (s : State) (u : ModUnit) (b : Bit), s.mod.built = some u →
    ∃ t v xs,
      execAll ([.oscSetf u.cfg.fCarrier] ++ List.replicate u.cfg.sps .oscStep ++
        [.oscSetf (if b then u.cfg.fMark else u.cfg.fSpace)] ++ List.replicate u.cfg.sps .oscStep) s = .next t ∧
      t.mod.built = some v ∧ v.oscOut = u.oscOut ++ xs ∧ xs.length = 2 * u.cfg.sps ∧
      exec (.modSym b) s = .next (s.setMod (Port.after { u with osc := v.osc, obuf := u.obuf ++ xs }))

/-- `MOD_FLUSH` emits all of `OBUF`, quantised, and empties it; the oscillator is not touched (rule R204). -/
def Obligations.FlushEmitsAndEmptiesTheBuffer : Prop :=
  ∀ (s : State) (u : ModUnit), s.mod.built = some u →
    ∃ v, exec .modFlush s = .next (s.setMod (Port.after v)) ∧
      v.samplesOut = u.samplesOut ++ [u.obuf.map (fun y => quantise u.cfg y)] ∧ v.obuf = [] ∧ v.osc = u.osc ∧
      v.oscOut = u.oscOut ∧ v.cfg = u.cfg ∧ v.status.obufN = 0

/-- Where the flushes of MOD fall changes the grouping of the samples and nothing else (rules R204 and R314). -/
def Obligations.ModulatorChunkingIsInvisible : Prop :=
  ∀ (s : State) (u : ModUnit) (l : List Instr), s.mod.built = some u → (∀ i ∈ l, i.unit = .mod) →
    ∃ t t' v v', execAll (l ++ [.modFlush]) s = .next t ∧
      execAll (l.filter (fun i => decide (i ≠ .modFlush)) ++ [.modFlush]) s = .next t' ∧
      t.mod.built = some v ∧ t'.mod.built = some v' ∧
      v.samplesOut.flatten = v'.samplesOut.flatten ∧ v.obuf = [] ∧ v'.obuf = [] ∧ v.osc = v'.osc ∧
      v.oscOut = v'.oscOut

/-- The output formats of the spec's codec (rule R205).  The integer ones: the sample times `2^(n-1) - 1`, the nearest
integer, halves away from zero, clamped to `n` bits, and the clamped integer is what the `n`-bit sample holds; in
binary64, whose values are their own codes, and in every number system whose comparison, floor and half-integers are
those of the reals its values stand for.  The floating ones, in binary64, for a sample in the format's range: the
binary32 or binary64 value nearest it.  That the product is taken in the number system is the model's reading (log
entry 11). -/
def Obligations.QuantiserRoundsAndClamps : Prop :=
  ∀ (cfg : ModCfg) (y : Sys2Proof.Num), cfg.codec = .reference →
    (∀ real : Sys2Proof.Num → ℝ,
      (cfg.num = .reference ∧ real = fun x : Sys2Proof.Num => ((x : Rat) : ℝ)) ∨ NumOpsReads (numOps cfg.num) real →
      let ops := numOps cfg.num
      let nearest (x : ℝ) (q : Int) : Prop := |x - q| ≤ 1 / 2 ∧ (|x - q| = 1 / 2 → |x| ≤ |(q : ℝ)|)
      (cfg.depth = .d8 → ∃ (r : Int) (q : BitVec 8), quantise cfg y = .int8 q ∧
        nearest (real (ops.mul y (ops.ofInt 127))) r ∧ q.toInt = max (-128) (min r 127)) ∧
      (cfg.depth = .d16 → ∃ (r : Int) (q : BitVec 16), quantise cfg y = .int16 q ∧
        nearest (real (ops.mul y (ops.ofInt 32767))) r ∧ q.toInt = max (-32768) (min r 32767)) ∧
      (cfg.depth = .d32 → ∃ (r : Int) (q : BitVec 32), quantise cfg y = .int32 q ∧
        nearest (real (ops.mul y (ops.ofInt 2147483647))) r ∧
        q.toInt = max (-2147483648) (min r 2147483647))) ∧
    (cfg.num = .reference →
      (cfg.depth = .d32f → |y| ≤ (2 ^ 24 - 1) * (2 : Rat) ^ (104 : Int) →
        ∃ v, quantise cfg y = .float32 v ∧ NearestBinaryValue 24 (-149) 104 y v) ∧
      (cfg.depth = .d64 → |y| ≤ (2 ^ 53 - 1) * (2 : Rat) ^ (971 : Int) →
        ∃ v, quantise cfg y = .float64 v ∧ NearestBinaryValue 53 (-1074) 971 y v))

/-! ## GZL -/

/-- `GZ_SAMPLE x` (rule R212): every lane takes one step of the recurrence, from its own old values, and `n` counts.  The order of
evaluation in a rounding number system is the model's (log entry 9). -/
def Obligations.AnalyzerSampleStepsEveryLane : Prop :=
  ∀ (s : State) (u : GzlUnit) (x : Sys2Proof.Num), s.gzl.built = some u →
    let ops := numOps u.gz.cfg.num
    exec (.gzSample x) s = .next (s.setGzl (Port.after { u with
      gz := { u.gz with
        lanes := u.gz.lanes.map (fun l =>
          { coeff := l.coeff, s1 := ops.sub (ops.add x (ops.mul l.coeff l.s1)) l.s2, s2 := l.s1 })
        n := u.gz.n + 1 } }))

/-- `GZ_RESET` zeroes the accumulators, keeps the coefficients, and applied again changes nothing (rule R216). -/
def Obligations.AnalyzerResetZeroesAccumulators : Prop :=
  ∀ (s : State) (u : GzlUnit), s.gzl.built = some u →
    let zero := (numOps u.gz.cfg.num).zero
    let cleared : GzlUnit :=
      { u with gz := { u.gz with lanes := u.gz.lanes.map (fun l => { coeff := l.coeff, s1 := zero, s2 := zero }), n := 0 } }
    exec .gzReset s = .next (s.setGzl (Port.after cleared)) ∧
    execAll [.gzReset, .gzReset] s = .next (s.setGzl (Port.after cleared))

/-- `GZ_RANK` (rules R213 to R215): the energy of every lane; every index once; the first is dominant; and, where the
number system's comparison is a total order, by energy descending, the lower index first among equal energies.  The
accumulators do not change.  The order of evaluation of the energy is the model's (log entry 9). -/
def Obligations.RankingIsSortedByEnergy : Prop :=
  ∀ (s : State) (u : GzlUnit), s.gzl.built = some u → 1 ≤ u.gz.lanes.length →
    ∃ r, exec .gzRank s = .next (s.setGzl (Port.after { u with rankOut := u.rankOut ++ [r] })) ∧
      let ops := numOps u.gz.cfg.num
      r.energy = u.gz.lanes.map (fun l =>
        ops.sub (ops.add (ops.mul l.s1 l.s1) (ops.mul l.s2 l.s2)) (ops.mul (ops.mul l.coeff l.s1) l.s2)) ∧
      r.order.Perm (List.range u.gz.lanes.length) ∧
      r.order.head? = some r.dominant ∧
      (NumOpsOrdered ops → r.order.Pairwise (fun i j =>
        ops.le (r.energy.getD j 0) (r.energy.getD i 0) = true ∧
        (ops.le (r.energy.getD i 0) (r.energy.getD j 0) = true → i < j)))

/-- The analysis of a window depends on the window and the configuration, not on any earlier window (rule R217). -/
def Obligations.WindowAnalysisForgetsThePast : Prop :=
  ∀ (g g' : Goertzel) (w : List Sys2Proof.Num), GoertzelInv g → GoertzelInv g' → g.cfg = g'.cfg →
    (g.window w).rank = (g'.window w).rank

/-- In exact arithmetic the energy of a lane is the squared magnitude of the sum of the samples times the powers of the
rotation whose cosine is half the coefficient (rule R213), hence never negative. -/
def Obligations.EnergyIsSpectralPower : Prop :=
  ∀ (ops : NumOps) (c s : Rat) (xs : List Sys2Proof.Num), NumOpsExact ops → c * c + s * s = 1 →
    let lane := xs.foldl (fun l x => Lane.sample ops x l) { coeff := 2 * c, s1 := 0, s2 := 0 }
    let re := ((xs.zipIdx.map (fun e => e.1 * (turnBy c s e.2).1)).sum : Rat)
    let im := ((xs.zipIdx.map (fun e => e.1 * (turnBy c s e.2).2)).sum : Rat)
    Lane.energy ops lane = re * re + im * im ∧ 0 ≤ Lane.energy ops lane

/-- In exact arithmetic a positive scaling common to all samples of a window does not change the ranking (rule R213). -/
def Obligations.CommonScalingKeepsTheRanking : Prop :=
  ∀ (ops : NumOps) (lanes : List Lane) (xs : List Sys2Proof.Num) (a : Rat), NumOpsExact ops →
    (∀ x y, ops.le x y = true ↔ x ≤ y) → 0 < a → (∀ l ∈ lanes, l.s1 = 0 ∧ l.s2 = 0) →
    let ranking (w : List Sys2Proof.Num) : List Nat :=
      rankOrder ops.le (lanes.map (fun l => Lane.energy ops (w.foldl (fun l x => Lane.sample ops x l) l)))
    ranking (xs.map (fun x => a * x)) = ranking xs

/-! ## DEM -/

/-- `DM_SAMPLE x` (rules R226, R229 and R231 to R233): the sample joins the window; a full window is analysed and
classified by its dominant frequency; a bit is appended only from idle to non-idle; `prev` takes the class; the oldest
`STEP` samples leave.  Nothing is emitted.  With the reference tie rule the class is that of rule R229; the other builds
may differ from it as the next statement says. -/
def Obligations.DemodulatorSampleSlidesTheWindow : Prop :=
  ∀ (s : State) (u : DemUnit) (x : Sys2Proof.Num), s.dem.built = some u →
    ∃ v cur, exec (.dmSample x) s = .next (s.setDem (Port.after v)) ∧
      let w := u.wbuf ++ [x]
      let gz := u.gz.window w
      (w.length ≠ u.cfg.win → v = { u with wbuf := w }) ∧
      (w.length = u.cfg.win →
        v = { u with
          gz := gz
          pack := if u.prev = .idle ∧ cur = .mark then u.pack ++ [true]
            else if u.prev = .idle ∧ cur = .space then u.pack ++ [false] else u.pack
          prev := cur
          wbuf := w.drop u.cfg.step } ∧
        (gz.rank.dominant = 0 → cur = .idle) ∧
        (u.cfg.tie = .reference →
          cur = if gz.rank.dominant = 0 then .idle else if gz.rank.dominant = 1 then .mark else .space))

/-- What the spec leaves to any build (93 U6, log entry 12): the class of a window is that of rule R229, but where mark
is dominant and space compares equal to it, where it may be space. -/
def Obligations.TieOnlyDecidesBetweenMarkAndSpace : Prop :=
  ∀ (cfg : DemCfg) (r : RankRecord), windowClass cfg r = classify r.dominant ∨
    (classify r.dominant = .mark ∧ windowClass cfg r = .space ∧ cfg.tie ≠ .reference ∧
      ∃ carrier mark space, r.energy = [carrier, mark, space] ∧ (numOps cfg.num).le mark space = true)

/-- With windows that do not overlap, a run of windows appends exactly the bits of the edges of its classes, and each
class is that of the window by itself (rules R227, R231 and R232); so an idle window and then one or more mark windows
append exactly one bit 1 (rule R235). -/
def Obligations.EdgeTriggerEmitsOneBitPerEdge : Prop :=
  (∀ (s : State) (u : DemUnit) (windows : List (List Sys2Proof.Num)), s.dem.built = some u → DemInv u →
    u.cfg.step = u.cfg.win → u.wbuf = [] → (∀ w ∈ windows, w.length = u.cfg.win) →
    ∃ t v, execAll (dmFeed windows.flatten) s = .next t ∧ t.dem.built = some v ∧
      v.pack = u.pack ++ edgeBits u.prev (windows.map (classOfWindow u.cfg)) ∧
      v.prev = ((windows.map (classOfWindow u.cfg)).getLast?).getD u.prev ∧ v.wbuf = [] ∧
      v.bytesOut = u.bytesOut) ∧
  (∀ (prev : Tone) (n : Nat), edgeBits prev (.idle :: List.replicate (n + 1) .mark) = [true])

/-- The window grid (rule R233): after `n` samples from an empty buffer the completed windows are `0` if `n < WIN`, else
`(n - WIN) / STEP + 1`, and the buffer holds the samples from the beginning of the next window on. -/
def Obligations.WindowGridIsAlignedToTheFirstSample : Prop :=
  ∀ (s : State) (u : DemUnit) (xs : List Sys2Proof.Num), s.dem.built = some u → DemInv u → u.wbuf = [] →
    ∃ t v, execAll (dmFeed xs) s = .next t ∧ t.dem.built = some v ∧
      v.wbuf = xs.drop (windowsAfter u.cfg.win u.cfg.step xs.length * u.cfg.step)

/-- `DM_FLUSH` (rules R243 and R244): the emitted bytes, bit 7 earliest, and the 0 to 7 bits that stay are the bits that
were buffered, in order; `prev`, `WBUF` and the analyzer are not touched. -/
def Obligations.FlushPacksWholeBytes : Prop :=
  ∀ (s : State) (u : DemUnit), s.dem.built = some u →
    ∃ bytes rest, exec .dmFlush s = .next (s.setDem (Port.after { u with
        bytesOut := u.bytesOut ++ [bytes], pack := rest })) ∧
      bitsOf bytes ++ rest = u.pack ∧ bytes.length = u.pack.length / 8 ∧ rest.length = u.pack.length % 8

/-- Where the flushes of DEM fall changes the grouping of the bytes and nothing else (rules R243 and R314). -/
def Obligations.DemodulatorChunkingIsInvisible : Prop :=
  ∀ (s : State) (u : DemUnit) (l : List Instr), s.dem.built = some u → (∀ i ∈ l, i.unit = .dem) →
    ∃ t t' v v', execAll (l ++ [.dmFlush]) s = .next t ∧
      execAll (l.filter (fun i => decide (i ≠ .dmFlush)) ++ [.dmFlush]) s = .next t' ∧
      t.dem.built = some v ∧ t'.dem.built = some v' ∧
      v.bytesOut.flatten = v'.bytesOut.flatten ∧
      v.pack = v'.pack ∧ v.prev = v'.prev ∧ v.wbuf = v'.wbuf ∧ v.gz = v'.gz

/-! ## Decoding and stepping -/

/-- Some words of rule R91, and what they decode to. -/
def Obligations.ListedWordsDecode : Prop :=
  decodeTableWord 8 0b00010000 = some (.rxPush false) ∧
  decodeTableWord 8 0b00010010 = some .rxClear ∧
  decodeTableWord 8 0b00100000 = some (.txEncode 0 []) ∧
  decodeTableWord 8 0b00110001 = some (.ckVerify 0 0 []) ∧
  decodeTableWord 8 0b01000011 = some .oscStep ∧
  decodeTableWord 8 0b01010001 = some .gzRank ∧
  decodeTableWord 8 0b01100001 = some .dmFlush ∧
  decodeTableWord 8 0b00010100 = none

/-- Decoding undoes encoding, for every operation with every operand. -/
def Obligations.DecodeUndoesEncode : Prop :=
  ∀ i : Instr, i.wellFormed = true → decode (encode i) = .ok i

/-- A transaction that decodes has the unit and the code of what it decodes to, which is well formed; no operation of
another row has that unit and code; and that unit and code, with the transaction's own operand lanes, decode to it
again. -/
def Obligations.DecodedTransactionIsItsEncoding : Prop :=
  ∀ (t : Transaction) (i : Instr), decode t = .ok i →
    i.wellFormed = true ∧ (encode i).unit = t.unit ∧ (encode i).code = t.code ∧
    (∀ j : Instr, (encode j).unit = t.unit → (encode j).code = t.code → j.opcode = i.opcode) ∧
    decode { encode i with operand := t.operand } = .ok i

/-- The codes of rule R91 are all there are: any other code, or a listed code at another unit's port, is rejected as
`BadCommand`, whatever the operand (rules R97 and R270). -/
def Obligations.OnlyListedCodesAreCommands : Prop :=
  ∀ t : Transaction, decode t = .error .badCommand ↔ (t.unit, t.code) ∉ listedCommands

/-- A step serves the operation presented next, to completion (rules R77 and R90), and takes its transaction from the
queue.  The queue, and `withFetchWord`, are the model's own (log entry 2): the spec gives ports and an order. -/
def Obligations.StepRunsThePresentedOperation : Prop :=
  (∀ (s : State) (t : Transaction) (rest : List PortEvent) (i : Instr), s.presented = .cmd t :: rest →
    decode t = .ok i → step s = exec i (s.setPresented rest)) ∧
  (∀ (s : State) (nbits w : Nat) (i : Instr), decodeTableWord nbits w = some i →
    step (s.withFetchWord nbits w) = exec i s)

/-- With nothing presented every unit keeps its state (rule R82). -/
def Obligations.SuspensionKeepsTheState : Prop :=
  ∀ s : State, s.presented = [] → step s = .next s

/-! ## Errors -/

/-- A code that rule R91 does not list for the unit, at a constructed unit: `BadCommand`, code 3, with the command code, no state of any unit changes, no other port
shows anything (rules R97, R261 and R268). -/
def Obligations.ReservedCommandChangesNoState : Prop :=
  ∀ (s : State) (tr : Transaction) (rest : List PortEvent), s.presented = .cmd tr :: rest →
    (tr.unit, tr.code) ∉ listedCommands → unitBuilt s tr.unit = true →
    ∃ t, step s = .next t ∧ t.err tr.unit = .badCommand tr.code ∧ (t.err tr.unit).code = 3 ∧ SameUnits s t ∧
      t.presented = rest ∧ ∀ u, u ≠ tr.unit → samePort s t u

/-- An unconstructed unit answers every command with code 1 and nothing changes (rule R268); a reserved command too,
which is how the model reads rules R268 and R270 together (log entry 17). -/
def Obligations.UnconstructedUnitAnswersCodeOne : Prop :=
  ∀ (s : State) (tr : Transaction) (rest : List PortEvent), s.presented = .cmd tr :: rest →
    unitBuilt s tr.unit = false →
    ∃ t, step s = .next t ∧ (t.err tr.unit).code = 1 ∧ SameUnits s t ∧ t.outputs = s.outputs ∧ t.presented = rest ∧
      ∀ u, u ≠ tr.unit → samePort s t u

/-- An operation that ends with an error has changed no state and emitted nothing (rules R13 and R268). -/
def Obligations.ErrorChangesNoState : Prop :=
  ∀ (i : Instr) (s t : State), exec i s = .next t → (t.err i.unit).code ≠ 0 →
    SameUnits s t ∧ t.outputs = s.outputs

/-- At a constructed unit every operation ends normally with `ERR` 0, for every state and every operand, but for
`TX_ENCODE` above `MAX_PAYLOAD` (rule R261). -/
def Obligations.OnlyEncodeCanFail : Prop :=
  ∀ (i : Instr) (s : State), unitBuilt s i.unit = true →
    ∃ t, exec i s = .next t ∧
      (t.err i.unit = .none ∨
        ∃ len bytes u, i = .txEncode len bytes ∧ s.ftx.built = some u ∧ u.cfg.maxPayload.toNat < len.toNat ∧
          t.err i.unit = .capacity len.toNat)

/-! ## The whole machine -/

/-- Units share no state (rule R75): an operation leaves every other unit, its port, and what is presented as they
were. -/
def Obligations.OperationTouchesOnlyItsUnit : Prop :=
  ∀ (i : Instr) (s t : State), exec i s = .next t →
    t.presented = s.presented ∧ ∀ u, u ≠ i.unit → samePort s t u

/-- Operations of different units can be exchanged: there is no ordering between units (rule R78). -/
def Obligations.OperationsOfDifferentUnitsCommute : Prop :=
  ∀ (i j : Instr) (s : State), i.unit ≠ j.unit →
    ∃ t, execAll [i, j] s = .next t ∧ execAll [j, i] s = .next t

/-- No operation writes a configuration register, or constructs or destroys a unit (rules R35 and R80). -/
def Obligations.NoOperationWritesConfiguration : Prop :=
  ∀ (i : Instr) (s t : State), exec i s = .next t → t.configuration = s.configuration

/-- Emitted records stay emitted, in order (rules R14 and R77): an operation only appends to the output streams. -/
def Obligations.OutputsOnlyGrow : Prop :=
  ∀ (i : Instr) (s t : State), exec i s = .next t → s.outputs.Begins t.outputs

/-- Every step keeps the invariant: field widths and cursors (rules R21 to R24), `PAY.end` (rule R131), fields begun in
order (rule R139), bits past a cursor 0, ramp counters (rule R46), the oscillator's phase in `[0, TWO_PI)` (rule R187,
for the reference number system), coefficients as computed at reset (rule R211), `1 <= STEP <= WIN` and an unfinished
window (rules R40 and R233), and code 1 at unconstructed units (rule R268). -/
def Obligations.EveryStepKeepsTheInvariant : Prop :=
  ∀ s t : State, s.Inv → step s = .next t → t.Inv

/-- The invariant holds after reset, with the configuration of log entry 4. -/
def Obligations.InvariantAfterReset : Prop := State.reset.Inv

/-! ## Reset -/

/-- `RST` of FRX (rules R290, R55, R262 and R268).  The pattern is presented with `PRE_NBYTES` bytes.  `PRE_NBYTES` 0 is
`ConfigurationError` on register 0; an element that is not an integer 0..255 is one on register 1, and the unit is
unconstructed; otherwise every state element has its reset value. -/
def Obligations.ResetOfTheFramer : Prop :=
  ∀ (s : State) (c : FramerCfgIn) (rest : List PortEvent), s.presented = .rst (.frx c) :: rest →
    c.pattern.length = c.preNBytes.toNat →
    (c.preNBytes = 0 → step s = .next ((s.setPresented rest).setFrx
      { err := .configuration (some 0), built := none })) ∧
    (c.preNBytes ≠ 0 → (∃ x ∈ c.pattern, ¬ ∃ n : Nat, n ≤ 255 ∧ x = (n : Rat)) →
      step s = .next ((s.setPresented rest).setFrx { err := .configuration (some 1), built := none })) ∧
    (∀ pattern : List Byte, c.preNBytes ≠ 0 → c.pattern = pattern.map (fun b => (b.toNat : Rat)) →
      step s = .next ((s.setPresented rest).setFrx (Port.after
        { cfg := { pattern := pattern, ckAlg := c.ckAlg, maxPayload := c.maxPayload },
          pkt :=
            { pre := { bits := List.replicate (8 * pattern.length) false, c := 0 },
              len := { bits := List.replicate 16 false, c := 0 },
              pay := { bits := List.replicate (8 * c.maxPayload.toNat) false, c := 0, endBits := 0 },
              ckf := { bits := List.replicate c.ckAlg.width false, c := 0 } },
          payload := [] })))

/-- `RST` of MOD (rules R290, R55, R38 and R263): a `DEPTH` code of 5, 6 or 7 is `ConfigurationError` on register 6 and the
unit is unconstructed; with a supported depth and a configuration the spec does not refuse, every configuration register
holds what was presented and every state element has its reset value; the other configurations with a supported depth
are refused (rule R306).  That the output streams are empty is the model's choice (log entry 14). -/
def Obligations.ResetOfTheModulator : Prop :=
  ∀ (s : State) (c : ModCfgIn) (rest : List PortEvent), s.presented = .rst (.mod c) :: rest →
    let ops := numOps c.num
    (5 ≤ c.depth.toNat → step s = .next ((s.setPresented rest).setMod
      { err := .configuration (some 6), built := none })) ∧
    (c.depth.toNat < 5 → ops.le c.fs ops.zero = false → 0 ≤ c.sps → 0 ≤ c.ease → c.nosc = 1 →
      step s = .next ((s.setPresented rest).setMod (Port.after
        { cfg :=
            { num := c.num, easeFn := c.easeFn, codec := c.codec, fMark := c.fMark, fSpace := c.fSpace,
              fCarrier := c.fCarrier, fs := c.fs, sps := c.sps.toNat, ease := c.ease.toNat,
              depth :=
                if c.depth = 0 then .d8 else if c.depth = 1 then .d16 else if c.depth = 2 then .d32
                else if c.depth = 3 then .d32f else .d64,
              amp := c.amp },
          osc :=
            { freq := c.fCarrier, amp := c.amp, phase := ops.ofInt 0,
              fRamp := { fromValue := c.fCarrier, toValue := c.fCarrier, k := c.ease.toNat },
              aRamp := { fromValue := c.amp, toValue := c.amp, k := c.ease.toNat } },
          obuf := [], samplesOut := [], oscOut := [] }))) ∧
    (c.depth.toNat < 5 → ops.le c.fs ops.zero = true ∨ c.sps < 0 ∨ c.ease < 0 ∨ c.nosc ≠ 1 →
      step s = .refused (.refusedConfiguration .mod))

/-- `RST` of DEM and of GZL (rules R290, R55, R39, R40, R228, R211 and R306): a configuration that is not refused gives
`ERR` 0, every configuration register as presented, `prev` idle, empty buffers, zero accumulators and the coefficients
`2 * cos(TWO_PI * F / FS)`; the others are refused.  The order of evaluation of the coefficient is the model's (log
entry 9), and that the output streams are empty is its choice (log entry 14). -/
def Obligations.ResetOfTheReceiverTones : Prop :=
  ∀ (s : State) (rest : List PortEvent),
    let analyzer (num : Variant) (freqs : List Sys2Proof.Num) (fs : Sys2Proof.Num) : Goertzel :=
      let ops := numOps num
      { cfg := { num := num, freqs := freqs, fs := fs },
        lanes := freqs.map (fun f =>
          { coeff := ops.mul (ops.ofInt 2) (ops.cos (ops.div (ops.mul ops.twoPi f) fs)),
            s1 := ops.ofInt 0, s2 := ops.ofInt 0 }),
        n := 0 }
    (∀ c : DemCfgIn, s.presented = .rst (.dem c) :: rest →
      let legal : Prop :=
        (numOps c.num).le c.fs (numOps c.num).zero = false ∧ 1 ≤ c.win ∧ 1 ≤ c.step ∧ c.step ≤ c.win ∧ c.cls = false
      (legal →
        step s = .next ((s.setPresented rest).setDem (Port.after
          { cfg :=
              { num := c.num, tie := c.tie, fMark := c.fMark, fSpace := c.fSpace, fCarrier := c.fCarrier, fs := c.fs,
                win := c.win.toNat, step := c.step.toNat, cls := false },
            prev := .idle, wbuf := [], pack := [],
            gz := analyzer c.num [c.fCarrier, c.fMark, c.fSpace] c.fs,
            bytesOut := [] }))) ∧
      (¬ legal → step s = .refused (.refusedConfiguration .dem))) ∧
    (∀ c : GzlCfg, s.presented = .rst (.gzl c) :: rest →
      let legal : Prop := (numOps c.num).le c.fs (numOps c.num).zero = false ∧ c.freqs ≠ []
      (legal →
        step s = .next ((s.setPresented rest).setGzl (Port.after
          { gz := analyzer c.num c.freqs c.fs, rankOut := [] }))) ∧
      (¬ legal → step s = .refused (.refusedConfiguration .gzl)))

/-- `RST` of FTX and of CKS (rules R290, R291, R262, R26 and R27): FTX checks its pattern as FRX does, presented with
`PRE_NBYTES` elements: none is code 1 with register 0, an element that is not an integer 0..255 is code 1 with register 1,
and the unit is unconstructed; otherwise, and for CKS always, `ERR` is 0 and the registers are as presented.  That the
output streams are empty is the model's choice (log entry 14). -/
def Obligations.ResetOfEncoderAndChecksum : Prop :=
  ∀ (s : State) (rest : List PortEvent),
    (∀ c : FramerCfgIn, s.presented = .rst (.ftx c) :: rest → c.pattern.length = c.preNBytes.toNat →
      (c.preNBytes = 0 → step s = .next ((s.setPresented rest).setFtx
        { err := .configuration (some 0), built := none })) ∧
      (c.preNBytes ≠ 0 → (∃ x ∈ c.pattern, ¬ ∃ n : Nat, n ≤ 255 ∧ x = (n : Rat)) →
        step s = .next ((s.setPresented rest).setFtx { err := .configuration (some 1), built := none })) ∧
      (∀ pattern : List Byte, c.preNBytes ≠ 0 → c.pattern = pattern.map (fun b => (b.toNat : Rat)) →
        step s = .next ((s.setPresented rest).setFtx (Port.after
          { cfg := { pattern := pattern, ckAlg := c.ckAlg, maxPayload := c.maxPayload }, bitsOut := [] })))) ∧
    (∀ c : CksCfg, s.presented = .rst (.cks c) :: rest →
      step s = .next ((s.setPresented rest).setCks (Port.after { cfg := c, valueOut := [], okOut := [] })))

/-- The state after reset (rule R55), every port written out: `ERR` 0, every unit constructed with the configuration of
log entry 4 (the model's choice), and every state element at its reset value; FRX hunts, MOD and DEM are idle.  It is what
the resets of the six units with that configuration leave, from any state whatever (rule R290).  That nothing is
presented, and that the output streams of the units other than FRX are empty, are the model's choices (log entries 2 and
14), and so is the order of evaluation of the coefficients (log entry 9). -/
def Obligations.StateAfterReset : Prop :=
  let framer : FramerCfg := { pattern := [0xAA, 0xAA, 0xAA], ckAlg := .noop, maxPayload := 1522 }
  let framerIn : FramerCfgIn :=
    { preNBytes := 3, pattern := [170, 170, 170], ckAlg := .noop, maxPayload := 1522 }
  let gzlCfg : GzlCfg := { num := .reference, freqs := [1000, 2000, 3000], fs := 8000 }
  let analyzer : Goertzel :=
    let ops := numOps .reference
    { cfg := gzlCfg
      lanes := [1000, 2000, 3000].map (fun f =>
        { coeff := ops.mul (ops.ofInt 2) (ops.cos (ops.div (ops.mul ops.twoPi f) 8000)), s1 := 0, s2 := 0 })
      n := 0 }
  State.reset.presented = [] ∧
  State.reset.frx =
    { err := .none
      built := some
        { cfg := framer
          pkt :=
            { pre := { bits := List.replicate 24 false, c := 0 }
              len := { bits := List.replicate 16 false, c := 0 }
              pay := { bits := List.replicate 12176 false, c := 0, endBits := 0 }
              ckf := { bits := [], c := 0 } }
          payload := [] } } ∧
  State.reset.ftx = { err := .none, built := some { cfg := framer, bitsOut := [] } } ∧
  State.reset.cks = { err := .none, built := some { cfg := { ckAlg := .noop }, valueOut := [], okOut := [] } } ∧
  State.reset.mod =
    { err := .none
      built := some
        { cfg :=
            { num := .reference, easeFn := .reference, codec := .reference, fMark := 2000, fSpace := 3000,
              fCarrier := 1000, fs := 8000, sps := 8, ease := 0, depth := .d64, amp := 1 }
          osc :=
            { freq := 1000, amp := 1, phase := 0
              fRamp := { fromValue := 1000, toValue := 1000, k := 0 }
              aRamp := { fromValue := 1, toValue := 1, k := 0 } }
          obuf := [], samplesOut := [], oscOut := [] } } ∧
  State.reset.gzl = { err := .none, built := some { gz := analyzer, rankOut := [] } } ∧
  State.reset.dem =
    { err := .none
      built := some
        { cfg :=
            { num := .reference, tie := .reference, fMark := 2000, fSpace := 3000, fCarrier := 1000, fs := 8000,
              win := 8, step := 8, cls := false }
          prev := .idle, wbuf := [], pack := [], gz := analyzer, bytesOut := [] } } ∧
  (∃ u, State.reset.frx.built = some u ∧ phaseOf u.cfg u.pkt = .hunt) ∧
  (∃ u, State.reset.mod.built = some u ∧ u.status = { obufN := 0, fBusy := false, aBusy := false }) ∧
  (∃ u, State.reset.dem.built = some u ∧ u.status = { prev := 3, wbufN := 0, packN := 0 }) ∧
  (∀ s : State, stepTimes 6 (s.setPresented
      [.rst (.frx framerIn), .rst (.ftx framerIn), .rst (.cks { ckAlg := .noop }),
       .rst (.mod
        { num := .reference, easeFn := .reference, codec := .reference, fMark := 2000, fSpace := 3000,
          fCarrier := 1000, fs := 8000, sps := 8, ease := 0, depth := 4, amp := 1, nosc := 1 }),
       .rst (.gzl gzlCfg),
       .rst (.dem
        { num := .reference, tie := .reference, fMark := 2000, fSpace := 3000, fCarrier := 1000, fs := 8000, win := 8,
          step := 8, cls := false })]) = .next State.reset)
end

