-- ==== Sys2Proof/Laws/Bits.lean ====
section
/-! SUPPORT. Bit sequences: lengths, values, and that bytes and bits determine each other (rules R9 and R11). -/

namespace Sys2Proof.Machine

theorem val_foldl (s : List Bit) (a : Nat) :
    s.foldl (fun acc b => 2 * acc + b.toNat) a = a * 2 ^ s.length + val s := by
  induction s generalizing a with
  | nil => simp [val]
  | cons b s ih =>
    simp only [List.foldl_cons, val, List.length_cons]
    rw [ih, ih (2 * 0 + b.toNat)]
    ring

@[simp] theorem val_nil : val [] = 0 := rfl

/-- The first bit is the most significant (rule R8). -/
theorem val_cons (b : Bit) (s : List Bit) : val (b :: s) = b.toNat * 2 ^ s.length + val s := by
  rw [val, List.foldl_cons, val_foldl]; simp

theorem val_append (s t : List Bit) : val (s ++ t) = val s * 2 ^ t.length + val t := by
  rw [val, List.foldl_append, ← val, val_foldl]

theorem val_lt (s : List Bit) : val s < 2 ^ s.length := by
  induction s with
  | nil => simp
  | cons b s ih =>
    rw [val_cons, List.length_cons, pow_succ]
    have : b.toNat ≤ 1 := by cases b <;> simp
    nlinarith [Nat.two_pow_pos s.length]

@[simp] theorem val_zeros (n : Nat) : val (List.replicate n false) = 0 := by
  induction n with
  | zero => rfl
  | succ n ih => rw [List.replicate_succ, val_cons, ih]; simp

@[simp] theorem length_bitsN (n v : Nat) : (bitsN n v).length = n := by
  induction n with
  | zero => rfl
  | succ n ih => simp [bitsN, ih]

/-- `val` undoes `bits_n` (rule R9), modulo the width. -/
theorem val_bitsN_mod (n v : Nat) : val (bitsN n v) = v % 2 ^ n := by
  induction n with
  | zero => simp [bitsN, Nat.mod_one]
  | succ n ih =>
    rw [bitsN, val_cons, ih, length_bitsN, Nat.mod_pow_succ, Nat.testBit_eq_decide_div_mod_eq]
    rcases Nat.mod_two_eq_zero_or_one (v / 2 ^ n) with h | h <;> simp [h]; omega

theorem val_bitsN {n v : Nat} (h : v < 2 ^ n) : val (bitsN n v) = v := by
  rw [val_bitsN_mod, Nat.mod_eq_of_lt h]

/-- `bits_n` undoes `val` (rule R9). -/
theorem bitsN_val (s : List Bit) : bitsN s.length (val s) = s := by
  induction s with
  | nil => rfl
  | cons b s ih =>
    have hlt := val_lt s
    rw [List.length_cons, bitsN, val_cons]
    congr 1
    · rw [Nat.testBit_eq_decide_div_mod_eq]
      rw [Nat.add_comm, Nat.add_mul_div_right _ _ (by positivity), Nat.div_eq_of_lt hlt]
      cases b <;> simp
    · conv_rhs => rw [← ih]
      have : ∀ (n : Nat) (a v : Nat), v < 2 ^ n → ∀ m ≤ n, bitsN m (a * 2 ^ n + v) = bitsN m v := by
        intro n a v _ m hm
        induction m with
        | zero => rfl
        | succ m ihm =>
          rw [bitsN, bitsN, ihm (by omega)]
          congr 1
          rw [Nat.mul_comm, Nat.testBit_two_pow_mul_add _ (by assumption)]
          simp [show m < n by omega]
      exact this _ _ _ hlt _ le_rfl

@[simp] theorem length_bits8 (b : Byte) : (bits8 b).length = 8 := length_bitsN _ _

@[simp] theorem bitsOf_nil : bitsOf [] = [] := rfl

@[simp] theorem bitsOf_cons (b : Byte) (bs : List Byte) : bitsOf (b :: bs) = bits8 b ++ bitsOf bs := by
  simp [bitsOf]

@[simp] theorem bitsOf_append (as bs : List Byte) : bitsOf (as ++ bs) = bitsOf as ++ bitsOf bs := by
  simp [bitsOf]

@[simp] theorem length_bitsOf (bs : List Byte) : (bitsOf bs).length = 8 * bs.length := by
  induction bs with
  | nil => rfl
  | cons b bs ih => simp [ih]; omega

theorem bytesOf_eight (s t : List Bit) (h : s.length = 8) :
    bytesOf (s ++ t) = BitVec.ofNat 8 (val s) :: bytesOf t := by
  match s, h with
  | [a, b, c, d, e, f, g, i], _ => rfl

theorem byte_of_bits8 (b : Byte) : BitVec.ofNat 8 (val (bits8 b)) = b := by
  rw [bits8, val_bitsN b.isLt]; simp

/-- A byte list read back from its bits, whatever incomplete byte follows. -/
theorem bytesOf_bitsOf_append (bs : List Byte) (rest : List Bit) (h : rest.length < 8) :
    bytesOf (bitsOf bs ++ rest) = bs := by
  induction bs with
  | nil =>
    match rest, h with
    | [], _ | [_], _ | [_, _], _ | [_, _, _], _ | [_, _, _, _], _ | [_, _, _, _, _], _
    | [_, _, _, _, _, _], _ | [_, _, _, _, _, _, _], _ => rfl
  | cons b bs ih =>
    rw [bitsOf_cons, List.append_assoc, bytesOf_eight _ _ (length_bits8 b), ih, byte_of_bits8]

@[simp] theorem bytesOf_bitsOf (bs : List Byte) : bytesOf (bitsOf bs) = bs := by
  simpa using bytesOf_bitsOf_append bs [] (by simp)

theorem length_bytesOf : ∀ s : List Bit, (bytesOf s).length = s.length / 8
  | a :: b :: c :: d :: e :: f :: g :: h :: rest => by
    simp only [bytesOf, List.length_cons, length_bytesOf rest]; omega
  | [] | [_] | [_, _] | [_, _, _] | [_, _, _, _] | [_, _, _, _, _] | [_, _, _, _, _, _]
  | [_, _, _, _, _, _, _] => by simp [bytesOf]

/-- The whole bytes of a sequence, as bits, and the bits that are left, are the sequence (rule R243). -/
theorem bitsOf_bytesOf_append : ∀ s : List Bit, bitsOf (bytesOf s) ++ s.drop (8 * (s.length / 8)) = s
  | a :: b :: c :: d :: e :: f :: g :: h :: rest => by
    have hv : val [a, b, c, d, e, f, g, h] < 2 ^ 8 := val_lt [a, b, c, d, e, f, g, h]
    have h8 : bits8 (BitVec.ofNat 8 (val [a, b, c, d, e, f, g, h])) = [a, b, c, d, e, f, g, h] := by
      have := bitsN_val [a, b, c, d, e, f, g, h]
      rw [bits8, BitVec.toNat_ofNat, Nat.mod_eq_of_lt hv]; exact this
    have hd : (a :: b :: c :: d :: e :: f :: g :: h :: rest).drop
        (8 * ((a :: b :: c :: d :: e :: f :: g :: h :: rest).length / 8)) = rest.drop (8 * (rest.length / 8)) := by
      simp only [List.length_cons]
      rw [show 8 * ((rest.length + 1 + 1 + 1 + 1 + 1 + 1 + 1 + 1) / 8) = 8 * (rest.length / 8) + 8 by omega]
      rfl
    rw [hd, bytesOf, bitsOf_cons, h8, List.append_assoc, bitsOf_bytesOf_append rest]
    rfl
  | [] | [_] | [_, _] | [_, _, _] | [_, _, _, _] | [_, _, _, _, _] | [_, _, _, _, _, _]
  | [_, _, _, _, _, _, _] => by simp [bytesOf]

end Sys2Proof.Machine
end

