-- ==== Sys2Proof/Laws/Fields.lean ====
section
/-! SUPPORT. The packet fields: what a push, a shift and a clear do, and that the Packet operations keep `PacketInv`. -/

namespace Sys2Proof.Machine

/-! ## BitSequence -/

theorem BitSeq.push_full (f : BitSeq) (b : Bit) (h : f.bits.length ≤ f.c) : f.push b = f := by simp [BitSeq.push, h]

theorem BitSeq.push_room (f : BitSeq) (b : Bit) (h : f.c < f.bits.length) :
    f.push b = { bits := f.bits.set f.c b, c := f.c + 1 } := by simp [BitSeq.push, Nat.not_le.mpr h]

@[simp] theorem BitSeq.push_length (f : BitSeq) (b : Bit) : (f.push b).bits.length = f.bits.length := by
  unfold BitSeq.push; split <;> simp

@[simp] theorem BitSeq.fresh_length (n : Nat) : (BitSeq.fresh n).bits.length = n := by simp [BitSeq.fresh]
@[simp] theorem BitSeq.fresh_c (n : Nat) : (BitSeq.fresh n).c = 0 := rfl
@[simp] theorem BitSeq.fresh_value (n : Nat) : (BitSeq.fresh n).value = 0 := by simp [BitSeq.fresh, BitSeq.value]

theorem BitSeq.isFulfilled_iff (f : BitSeq) : f.isFulfilled = true ↔ f.bits.length ≤ f.c := by
  simp [BitSeq.isFulfilled]

theorem BitSeq.isFulfilled_eq_false (f : BitSeq) : f.isFulfilled = false ↔ f.c < f.bits.length := by
  simp [BitSeq.isFulfilled]

theorem PayField.isFulfilled_iff (f : PayField) : f.isFulfilled = true ↔ f.endBits ≤ f.c := by
  simp [PayField.isFulfilled]

theorem PayField.isFulfilled_eq_false (f : PayField) : f.isFulfilled = false ↔ f.c < f.endBits := by
  simp [PayField.isFulfilled]

/-- A clear gives the fresh field of the same capacity (rule R122). -/
theorem BitSeq.clear_eq (f : BitSeq) : f.clear = BitSeq.fresh f.bits.length := rfl

/-! ## Bits written in order -/

/-- A sequence with the bits `s` written and the rest of `n` zero. -/
def written (s : List Bit) (n : Nat) : List Bit := s ++ List.replicate (n - s.length) false

theorem written_length (s : List Bit) (n : Nat) (h : s.length ≤ n) : (written s n).length = n := by
  simp [written]; omega

theorem written_full (s : List Bit) : written s s.length = s := by simp [written]

theorem written_set (s : List Bit) (n : Nat) (b : Bit) (h : s.length < n) :
    (written s n).set s.length b = written (s ++ [b]) n := by
  obtain ⟨k, rfl⟩ : ∃ k, n = s.length + (k + 1) := ⟨n - s.length - 1, by omega⟩
  simp [written, List.replicate_succ]
  omega

/-- Pushing a sequence into a partly written field writes it behind what is there (rule R126). -/
theorem BitSeq.foldl_push (t s : List Bit) (n : Nat) (h : s.length + t.length ≤ n) :
    t.foldl BitSeq.push { bits := written s n, c := s.length } = { bits := written (s ++ t) n, c := (s ++ t).length } := by
  induction t generalizing s with
  | nil => simp
  | cons b t ih =>
    simp only [List.length_cons] at h
    rw [List.foldl_cons, BitSeq.push_room _ _ (by simpa [written_length s n (by omega)] using (by omega : s.length < n))]
    simp only
    rw [written_set s n b (by omega)]
    have := ih (s ++ [b]) (by simp; omega)
    simpa using this

/-- The same for the payload, up to its effective length and its storage (rule R133). -/
theorem PayField.foldl_push (t s : List Bit) (n e : Nat) (he : s.length + t.length ≤ e) (hn : s.length + t.length ≤ n) :
    t.foldl PayField.push { bits := written s n, c := s.length, endBits := e }
      = { bits := written (s ++ t) n, c := (s ++ t).length, endBits := e } := by
  induction t generalizing s with
  | nil => simp
  | cons b t ih =>
    simp only [List.length_cons] at he hn
    have hpush : PayField.push { bits := written s n, c := s.length, endBits := e } b
        = { bits := written (s ++ [b]) n, c := (s ++ [b]).length, endBits := e } := by
      have h1 : ¬ e ≤ s.length := by omega
      have h2 : s.length < (written s n).length := by rw [written_length s n (by omega)]; omega
      simp only [PayField.push, h1, if_false, h2, if_true]
      rw [written_set s n b (by omega)]
      simp
    rw [List.foldl_cons, hpush]
    have := ih (s ++ [b]) (by simp; omega) (by simp; omega)
    simpa using this

/-! ## zeroFrom -/

theorem zeroFrom_replicate (n c : Nat) : zeroFrom (List.replicate n false) c := by simp [zeroFrom]

theorem zeroFrom_set {bits : List Bit} {c : Nat} (h : zeroFrom bits c) (b : Bit) :
    zeroFrom (bits.set c b) (c + 1) := by
  unfold zeroFrom at *
  rw [List.length_set, List.drop_set_of_lt (by omega), ← List.drop_drop, h, List.drop_replicate]
  congr 1

theorem zeroFrom_of_length_le {bits : List Bit} {c : Nat} (h : bits.length ≤ c) : zeroFrom bits c := by
  simp [zeroFrom, List.drop_eq_nil_of_le h, Nat.sub_eq_zero_of_le h]

theorem BitSeq.push_zero {f : BitSeq} (h : zeroFrom f.bits f.c) (b : Bit) :
    zeroFrom (f.push b).bits (f.push b).c := by
  unfold BitSeq.push
  split
  · exact h
  · exact zeroFrom_set h b

/-! ## The Packet operations keep the invariant -/

theorem Packet.fresh_inv (cfg : FramerCfg) (hp : 1 ≤ cfg.pattern.length ∧ cfg.pattern.length ≤ 255) :
    PacketInv cfg (Packet.fresh cfg) where
  patternLength := hp
  preBits := by simp [Packet.fresh]
  preCursor := rfl
  lenBits := by simp [Packet.fresh]
  lenCursor := by simp [Packet.fresh]
  payBits := by simp [Packet.fresh]
  payCursor := by simp [Packet.fresh]
  payEnd := by simp [Packet.fresh]
  ckfBits := by simp [Packet.fresh]
  ckfCursor := by simp [Packet.fresh]
  lenBegun := by simp [Packet.fresh]
  ckfBegun := by simp [Packet.fresh]
  lenZero := zeroFrom_replicate _ _
  payZero := zeroFrom_replicate _ _
  ckfZero := zeroFrom_replicate _ _

/-- A clear of a packet with fields of the right sizes is the fresh packet (rules R142 and R292). -/
theorem Packet.clear_eq_fresh {cfg : FramerCfg} {pkt : Packet} (h : PacketInv cfg pkt) :
    pkt.clear = Packet.fresh cfg := by
  simp [Packet.clear, Packet.fresh, BitSeq.clear_eq, PayField.clear, h.preBits, h.lenBits, h.payBits, h.ckfBits]

/-- Which push happens in which phase (rule R139), with what the phase says of the fields. -/
theorem pktPush_cases (cfg : FramerCfg) (pkt : Packet) (b : Bit) :
    (phaseOf cfg pkt = .hunt ∧ preValid cfg pkt = false ∧
      pktPush cfg pkt b = { pkt with pre := preShift pkt.pre b }) ∨
    (phaseOf cfg pkt = .len ∧ preValid cfg pkt = true ∧ pkt.len.c < pkt.len.bits.length ∧
      pktPush cfg pkt b = pushLen pkt b) ∨
    (phaseOf cfg pkt = .pay ∧ preValid cfg pkt = true ∧ pkt.len.bits.length ≤ pkt.len.c ∧ pkt.pay.c < pkt.pay.endBits ∧
      pktPush cfg pkt b = { pkt with pay := pkt.pay.push b }) ∨
    (phaseOf cfg pkt = .cks ∧ preValid cfg pkt = true ∧ pkt.len.bits.length ≤ pkt.len.c ∧
      pkt.pay.endBits ≤ pkt.pay.c ∧ pkt.ckf.c < pkt.ckf.bits.length ∧
      pktPush cfg pkt b = { pkt with ckf := pkt.ckf.push b }) ∨
    (phaseOf cfg pkt = .done ∧ preValid cfg pkt = true ∧ pkt.len.bits.length ≤ pkt.len.c ∧
      pkt.pay.endBits ≤ pkt.pay.c ∧ pkt.ckf.bits.length ≤ pkt.ckf.c ∧ pktPush cfg pkt b = pkt) := by
  unfold pktPush phaseOf
  cases hv : preValid cfg pkt <;> simp only [Bool.true_eq_false, if_false, if_true]
  · simp
  cases hl : pkt.len.isFulfilled <;> simp only [Bool.true_eq_false, if_false, if_true]
  · exact .inr (.inl ⟨trivial, trivial, (BitSeq.isFulfilled_eq_false _).1 hl, trivial⟩)
  have hl' := (BitSeq.isFulfilled_iff _).1 hl
  cases hp : pkt.pay.isFulfilled <;> simp only [Bool.true_eq_false, if_false, if_true]
  · exact .inr (.inr (.inl ⟨trivial, trivial, hl', (PayField.isFulfilled_eq_false _).1 hp, trivial⟩))
  have hp' := (PayField.isFulfilled_iff _).1 hp
  cases hc : pkt.ckf.isFulfilled <;> simp only [Bool.true_eq_false, if_false, if_true]
  · exact .inr (.inr (.inr (.inl ⟨trivial, trivial, hl', hp', (BitSeq.isFulfilled_eq_false _).1 hc, trivial⟩)))
  · exact .inr (.inr (.inr (.inr ⟨trivial, trivial, hl', hp', (BitSeq.isFulfilled_iff _).1 hc, trivial⟩)))

/-- Every push keeps the packet's invariant. -/
theorem pktPush_inv {cfg : FramerCfg} {pkt : Packet} (h : PacketInv cfg pkt) (b : Bit) :
    PacketInv cfg (pktPush cfg pkt b) := by
  rcases pktPush_cases cfg pkt b with ⟨-, hv, he⟩ | ⟨-, hv, hl, he⟩ | ⟨-, hv, hl, hp, he⟩ | ⟨-, hv, hl, hp, hc, he⟩ |
    ⟨-, hv, hl, hp, hc, he⟩
  · rw [he]
    have hlen : pkt.len.c = 0 := by
      by_contra hne
      have := h.lenBegun (by omega); simp [hv] at this
    have hP : 1 ≤ pkt.pre.bits.length := by
      have := h.preBits; have := h.patternLength.1; simp only [Sys2Proof.Machine.preBits] at *; omega
    exact { h with
      preBits := by rw [← h.preBits]; simp [preShift]; omega
      preCursor := h.preCursor
      lenBegun := by intro h0; simp only [hlen] at h0; omega }
  · rw [he]
    have h16 := h.lenBits
    have hlt : pkt.len.c < 16 := by omega
    have hpush := BitSeq.push_room pkt.len b hl
    have hend : pkt.pay.endBits = 0 := by rw [h.payEnd, if_neg (by omega)]
    have hpc : pkt.pay.c = 0 := by have := h.payCursor; omega
    have hck : pkt.ckf.c = 0 := by
      by_contra hne
      have := (h.ckfBegun (by omega)).1; omega
    have hfull : (pkt.len.push b).isFulfilled = true ↔ pkt.len.c + 1 = 16 := by
      rw [BitSeq.isFulfilled_iff, BitSeq.push_length, h16, hpush]; simp only; omega
    have hc' : (pkt.len.push b).c = pkt.len.c + 1 := by rw [hpush]
    refine
      { patternLength := h.patternLength, preBits := h.preBits, preCursor := h.preCursor
        lenBits := by simp [pushLen, h16]
        lenCursor := by simp only [pushLen, hc']; omega
        payBits := by simp only [pushLen]; split <;> exact h.payBits
        payCursor := by simp only [pushLen]; split <;> simp [hpc]
        payEnd := ?_
        ckfBits := h.ckfBits, ckfCursor := h.ckfCursor
        lenBegun := fun _ => hv
        ckfBegun := by intro h0; simp only [pushLen, hck] at h0; omega
        lenZero := BitSeq.push_zero h.lenZero b
        payZero := by simp only [pushLen]; split <;> exact h.payZero
        ckfZero := h.ckfZero }
    simp only [pushLen, hc']
    by_cases h15 : pkt.len.c + 1 = 16
    · rw [if_pos (hfull.2 h15), if_pos h15]
    · rw [if_neg (by rw [hfull]; exact h15), if_neg h15, hend]
  · rw [he]
    have hpush : pkt.pay.push b = { pkt.pay with
        bits := if pkt.pay.c < pkt.pay.bits.length then pkt.pay.bits.set pkt.pay.c b else pkt.pay.bits
        c := pkt.pay.c + 1 } := by simp [PayField.push, Nat.not_le.mpr hp]
    have hck : pkt.ckf.c = 0 := by
      by_contra hne
      have := (h.ckfBegun (by omega)).2; omega
    exact { h with
      payBits := by simp only [hpush]; split <;> simp [h.payBits]
      payCursor := by simp only [hpush]; omega
      payEnd := by simp only [hpush]; exact h.payEnd
      lenBegun := fun _ => hv
      ckfBegun := by intro h0; simp only [hck] at h0; omega
      payZero := by
        simp only [hpush]
        split
        · exact zeroFrom_set h.payZero b
        · exact zeroFrom_of_length_le (by omega) }
  · rw [he]
    have hpush := BitSeq.push_room pkt.ckf b hc
    have hk := h.ckfBits
    have h16 := h.lenBits
    have h1 := h.lenCursor
    have h2 := h.payCursor
    exact { h with
      ckfBits := by simp [hk]
      ckfCursor := by simp only [hpush]; omega
      lenBegun := fun _ => hv
      ckfBegun := fun _ => ⟨by simp only; omega, by simp only; omega⟩
      ckfZero := BitSeq.push_zero h.ckfZero b }
  · rw [he]; exact h

/-- A fresh packet is not fulfilled: its length field is empty (rule R146). -/
@[simp] theorem Packet.fresh_not_fulfilled (cfg : FramerCfg) : (Packet.fresh cfg).isFulfilled = false := by
  simp [Packet.fresh, Packet.isFulfilled, BitSeq.isFulfilled]

/-- One turn of the Decoder keeps the invariant. -/
theorem decoderPush_inv {u : FrxUnit} (h : u.Inv) (b : Bit) : (decoderPush u b).Inv := by
  have hp := pktPush_inv h b
  unfold decoderPush FrxUnit.Inv
  dsimp only
  split
  · dsimp only; rw [Packet.clear_eq_fresh hp]; exact Packet.fresh_inv _ hp.patternLength
  · exact hp

@[simp] theorem decoderPush_cfg (u : FrxUnit) (b : Bit) : (decoderPush u b).cfg = u.cfg := by
  unfold decoderPush; dsimp only; split <;> rfl

end Sys2Proof.Machine
end

