-- ==== Sys2Proof/Laws/Numbers.lean ====
section
/-! SUPPORT. Number systems: the functions of the reference one, and the real numbers as another. -/

namespace Sys2Proof.Machine

/-! ## The reference number system -/

theorem ratLe_iff (x y : Rat) : ratLe x y = true ↔ x ≤ y := by
  rw [ratLe, decide_eq_true_iff, Rat.le_iff]

/-- The wrap of binary64 ends in `[0, TWO_PI)` (rule R187). -/
theorem mod2pi64_range (x : Num) : 0 ≤ mod2pi64 x ∧ mod2pi64 x < twoPi64 := by
  unfold mod2pi64
  simp only
  split
  · rename_i h
    rw [Bool.and_eq_true, ratLe_iff, Bool.not_eq_true', ← Bool.not_eq_true, ratLe_iff, not_le] at h
    exact h
  · exact ⟨le_refl _, by unfold twoPi64; norm_num [Rat.mkRat_eq_div]⟩

/-! Its functions on codes are those of binary64, whose values are their own codes. -/

theorem numOps_reference : numOps .reference = binary64.ops := rfl

@[simp] theorem reference_add (x y : Num) : (numOps .reference).add x y = fl64 (x + y) := by
  simp only [numOps_reference, NumSystem.ops, binary64]

@[simp] theorem reference_sub (x y : Num) : (numOps .reference).sub x y = fl64 (x - y) := by
  simp only [numOps_reference, NumSystem.ops, binary64]

@[simp] theorem reference_mul (x y : Num) : (numOps .reference).mul x y = fl64 (x * y) := by
  simp only [numOps_reference, NumSystem.ops, binary64]

theorem reference_div (x y : Num) :
    (numOps .reference).div x y = if y.num = 0 then Config.divByZero x else fl64 (x / y) := by
  simp only [numOps_reference, NumSystem.ops, binary64]

@[simp] theorem reference_mod2pi (x : Num) : (numOps .reference).mod2pi x = mod2pi64 x := by
  simp only [numOps_reference, NumSystem.ops, binary64]

@[simp] theorem reference_le (x y : Num) : (numOps .reference).le x y = ratLe x y := by
  simp only [numOps_reference, NumSystem.ops, binary64]

@[simp] theorem reference_ofRat (q : Rat) : (numOps .reference).ofRat q = fl64 q := by
  simp only [numOps_reference, NumSystem.ops, binary64]

@[simp] theorem reference_ofInt (n : Int) : (numOps .reference).ofInt n = fl64 (mkRat n 1) := by
  simp only [numOps_reference, NumSystem.ops, binary64]

@[simp] theorem reference_floor (x : Num) : (numOps .reference).floor x = Rat.floor x := by
  simp only [numOps_reference, NumSystem.ops, binary64, Rat.floor_def]

/-! ## The real numbers as a number system

What rule R17 asks of `NUM` is a carrier type and its functions.  Here the carrier is the real line.  A run from given
inputs touches countably many numbers, and some code keeps every one of them (log entry 5). -/

/-- `x mod TWO_PI` on the real numbers. -/
noncomputable def realMod2pi (x : ℝ) : ℝ := x - 2 * Real.pi * ⌊x / (2 * Real.pi)⌋

open Classical in
/-- The real numbers, with a code and its reading. -/
noncomputable def realSystem (code : ℝ → Num) (value : Num → ℝ) : NumSystem where
  Carrier := ℝ
  code := code
  value := value
  add x y := x + y
  sub x y := x - y
  mul x y := x * y
  div x y := x / y
  sin := Real.sin
  cos := Real.cos
  mod2pi := realMod2pi
  twoPi := 2 * Real.pi
  floor x := ⌊x⌋
  ofInt n := n
  ofRat q := q
  le x y := decide (x ≤ y)

/-- How a number is reached from the inputs of a run by the functions of a number system. -/
inductive NumTerm where
  | input (n : Nat)
  | twoPi
  | ofRat (q : Rat)
  | add (a b : NumTerm)
  | sub (a b : NumTerm)
  | mul (a b : NumTerm)
  | div (a b : NumTerm)
  | sin (a : NumTerm)
  | cos (a : NumTerm)
  | mod2pi (a : NumTerm)
  deriving Countable

/-- The real number reached. -/
noncomputable def NumTerm.real (inputs : Nat → ℝ) : NumTerm → ℝ
  | .input n => inputs n
  | .twoPi => 2 * Real.pi
  | .ofRat q => q
  | .add a b => a.real inputs + b.real inputs
  | .sub a b => a.real inputs - b.real inputs
  | .mul a b => a.real inputs * b.real inputs
  | .div a b => a.real inputs / b.real inputs
  | .sin a => Real.sin (a.real inputs)
  | .cos a => Real.cos (a.real inputs)
  | .mod2pi a => realMod2pi (a.real inputs)

/-- Some code keeps every number a run can reach. -/
theorem exists_real_code (inputs : Nat → ℝ) :
    ∃ (code : ℝ → Num) (value : Num → ℝ), ∀ t : NumTerm, value (code (t.real inputs)) = t.real inputs := by
  obtain ⟨f, hf⟩ := Set.countable_iff_exists_injOn.1 (Set.countable_range (NumTerm.real inputs))
  have hinj : Set.InjOn (fun x => ((f x : Nat) : Rat)) (Set.range (NumTerm.real inputs)) :=
    fun x hx y hy h => hf hx hy (Nat.cast_injective (R := Rat) h)
  exact ⟨fun x => ((f x : Nat) : Rat), _, fun t => hinj.leftInvOn_invFunOn ⟨t, rfl⟩⟩

/-- On the codes of numbers it keeps, every function of the real system is the code of the function on the reals. -/
theorem realSystem_ops {code : ℝ → Num} {value : Num → ℝ} {x y : ℝ} (hx : value (code x) = x)
    (hy : value (code y) = y) :
    let ops := (realSystem code value).ops
    ops.add (code x) (code y) = code (x + y) ∧ ops.sub (code x) (code y) = code (x - y) ∧
    ops.mul (code x) (code y) = code (x * y) ∧ ops.div (code x) (code y) = code (x / y) ∧
    ops.sin (code x) = code (Real.sin x) ∧ ops.cos (code x) = code (Real.cos x) ∧
    ops.mod2pi (code x) = code (realMod2pi x) ∧ ops.floor (code x) = ⌊x⌋ ∧
    (ops.le (code x) (code y) = true ↔ x ≤ y) := by
  simp [NumSystem.ops, realSystem, hx, hy]

end Sys2Proof.Machine
end

