-- ==== Sys2Proof/Laws/PerInstr.lean ====
section
/-! SUPPORT. The per-instruction families: statements about an operation as syntax, one lemma for each constructor. -/

namespace Sys2Proof.Laws.CodeNamesUnit

/-- The high nibble of an operation's code selects the unit that performs it, and the code's row is the operation's own
(rules R90 and R91). -/
def Statement (i : Instr) : Prop :=
  unitOfCode (encode i).code = some (encode i).unit ∧ opcodeOf (encode i).code = some i.opcode

theorem ofOpcode (o : Opcode) : unitOfCode o.code = some o.unit ∧ opcodeOf o.code = some o := by
  cases o <;> decide

theorem all (i : Instr) : Statement i := ofOpcode i.opcode

theorem rxPush (b : Bit) : Statement (.rxPush b) := all _
theorem rxPushb (byte : Byte) : Statement (.rxPushb byte) := all _
theorem rxClear : Statement .rxClear := all _
theorem pkPush (b : Bit) : Statement (.pkPush b) := all _
theorem txEncode (len : BitVec 16) (bytes : List Byte) : Statement (.txEncode len bytes) := all _
theorem ckCalc (len : BitVec 16) (bytes : List Byte) : Statement (.ckCalc len bytes) := all _
theorem ckVerify (v : BitVec 24) (len : BitVec 16) (bytes : List Byte) : Statement (.ckVerify v len bytes) := all _
theorem modSym (b : Bit) : Statement (.modSym b) := all _
theorem oscSetf (f : Sys2Proof.Num) : Statement (.oscSetf f) := all _
theorem oscSeta (a : Sys2Proof.Num) : Statement (.oscSeta a) := all _
theorem oscStep : Statement .oscStep := all _
theorem modFlush : Statement .modFlush := all _
theorem gzSample (x : Sys2Proof.Num) : Statement (.gzSample x) := all _
theorem gzRank : Statement .gzRank := all _
theorem gzReset : Statement .gzReset := all _
theorem dmSample (x : Sys2Proof.Num) : Statement (.dmSample x) := all _
theorem dmFlush : Statement .dmFlush := all _

end Sys2Proof.Laws.CodeNamesUnit
end

