-- ==== Sys2Proof/Laws/State.lean ====
section
/-! SUPPORT. One lemma for each field under each update of `State`, and the laws of updates of one field. -/

namespace Sys2Proof.Machine

@[simp] theorem State.setPresented_presented (s : State) (p : List PortEvent) : (s.setPresented p).presented = p := rfl
@[simp] theorem State.setPresented_frx (s : State) (p : List PortEvent) : (s.setPresented p).frx = s.frx := rfl
@[simp] theorem State.setPresented_ftx (s : State) (p : List PortEvent) : (s.setPresented p).ftx = s.ftx := rfl
@[simp] theorem State.setPresented_cks (s : State) (p : List PortEvent) : (s.setPresented p).cks = s.cks := rfl
@[simp] theorem State.setPresented_mod (s : State) (p : List PortEvent) : (s.setPresented p).mod = s.mod := rfl
@[simp] theorem State.setPresented_gzl (s : State) (p : List PortEvent) : (s.setPresented p).gzl = s.gzl := rfl
@[simp] theorem State.setPresented_dem (s : State) (p : List PortEvent) : (s.setPresented p).dem = s.dem := rfl
@[simp] theorem State.setPresented_self (s : State) : s.setPresented s.presented = s := rfl
@[simp] theorem State.setPresented_twice (s : State) (p q : List PortEvent) : (s.setPresented p).setPresented q = s.setPresented q := rfl

@[simp] theorem State.setFrx_presented (s : State) (p : Port FrxUnit) : (s.setFrx p).presented = s.presented := rfl
@[simp] theorem State.setFrx_frx (s : State) (p : Port FrxUnit) : (s.setFrx p).frx = p := rfl
@[simp] theorem State.setFrx_ftx (s : State) (p : Port FrxUnit) : (s.setFrx p).ftx = s.ftx := rfl
@[simp] theorem State.setFrx_cks (s : State) (p : Port FrxUnit) : (s.setFrx p).cks = s.cks := rfl
@[simp] theorem State.setFrx_mod (s : State) (p : Port FrxUnit) : (s.setFrx p).mod = s.mod := rfl
@[simp] theorem State.setFrx_gzl (s : State) (p : Port FrxUnit) : (s.setFrx p).gzl = s.gzl := rfl
@[simp] theorem State.setFrx_dem (s : State) (p : Port FrxUnit) : (s.setFrx p).dem = s.dem := rfl
@[simp] theorem State.setFrx_self (s : State) : s.setFrx s.frx = s := rfl
@[simp] theorem State.setFrx_twice (s : State) (p q : Port FrxUnit) : (s.setFrx p).setFrx q = s.setFrx q := rfl

@[simp] theorem State.setFtx_presented (s : State) (p : Port FtxUnit) : (s.setFtx p).presented = s.presented := rfl
@[simp] theorem State.setFtx_frx (s : State) (p : Port FtxUnit) : (s.setFtx p).frx = s.frx := rfl
@[simp] theorem State.setFtx_ftx (s : State) (p : Port FtxUnit) : (s.setFtx p).ftx = p := rfl
@[simp] theorem State.setFtx_cks (s : State) (p : Port FtxUnit) : (s.setFtx p).cks = s.cks := rfl
@[simp] theorem State.setFtx_mod (s : State) (p : Port FtxUnit) : (s.setFtx p).mod = s.mod := rfl
@[simp] theorem State.setFtx_gzl (s : State) (p : Port FtxUnit) : (s.setFtx p).gzl = s.gzl := rfl
@[simp] theorem State.setFtx_dem (s : State) (p : Port FtxUnit) : (s.setFtx p).dem = s.dem := rfl
@[simp] theorem State.setFtx_self (s : State) : s.setFtx s.ftx = s := rfl
@[simp] theorem State.setFtx_twice (s : State) (p q : Port FtxUnit) : (s.setFtx p).setFtx q = s.setFtx q := rfl

@[simp] theorem State.setCks_presented (s : State) (p : Port CksUnit) : (s.setCks p).presented = s.presented := rfl
@[simp] theorem State.setCks_frx (s : State) (p : Port CksUnit) : (s.setCks p).frx = s.frx := rfl
@[simp] theorem State.setCks_ftx (s : State) (p : Port CksUnit) : (s.setCks p).ftx = s.ftx := rfl
@[simp] theorem State.setCks_cks (s : State) (p : Port CksUnit) : (s.setCks p).cks = p := rfl
@[simp] theorem State.setCks_mod (s : State) (p : Port CksUnit) : (s.setCks p).mod = s.mod := rfl
@[simp] theorem State.setCks_gzl (s : State) (p : Port CksUnit) : (s.setCks p).gzl = s.gzl := rfl
@[simp] theorem State.setCks_dem (s : State) (p : Port CksUnit) : (s.setCks p).dem = s.dem := rfl
@[simp] theorem State.setCks_self (s : State) : s.setCks s.cks = s := rfl
@[simp] theorem State.setCks_twice (s : State) (p q : Port CksUnit) : (s.setCks p).setCks q = s.setCks q := rfl

@[simp] theorem State.setMod_presented (s : State) (p : Port ModUnit) : (s.setMod p).presented = s.presented := rfl
@[simp] theorem State.setMod_frx (s : State) (p : Port ModUnit) : (s.setMod p).frx = s.frx := rfl
@[simp] theorem State.setMod_ftx (s : State) (p : Port ModUnit) : (s.setMod p).ftx = s.ftx := rfl
@[simp] theorem State.setMod_cks (s : State) (p : Port ModUnit) : (s.setMod p).cks = s.cks := rfl
@[simp] theorem State.setMod_mod (s : State) (p : Port ModUnit) : (s.setMod p).mod = p := rfl
@[simp] theorem State.setMod_gzl (s : State) (p : Port ModUnit) : (s.setMod p).gzl = s.gzl := rfl
@[simp] theorem State.setMod_dem (s : State) (p : Port ModUnit) : (s.setMod p).dem = s.dem := rfl
@[simp] theorem State.setMod_self (s : State) : s.setMod s.mod = s := rfl
@[simp] theorem State.setMod_twice (s : State) (p q : Port ModUnit) : (s.setMod p).setMod q = s.setMod q := rfl

@[simp] theorem State.setGzl_presented (s : State) (p : Port GzlUnit) : (s.setGzl p).presented = s.presented := rfl
@[simp] theorem State.setGzl_frx (s : State) (p : Port GzlUnit) : (s.setGzl p).frx = s.frx := rfl
@[simp] theorem State.setGzl_ftx (s : State) (p : Port GzlUnit) : (s.setGzl p).ftx = s.ftx := rfl
@[simp] theorem State.setGzl_cks (s : State) (p : Port GzlUnit) : (s.setGzl p).cks = s.cks := rfl
@[simp] theorem State.setGzl_mod (s : State) (p : Port GzlUnit) : (s.setGzl p).mod = s.mod := rfl
@[simp] theorem State.setGzl_gzl (s : State) (p : Port GzlUnit) : (s.setGzl p).gzl = p := rfl
@[simp] theorem State.setGzl_dem (s : State) (p : Port GzlUnit) : (s.setGzl p).dem = s.dem := rfl
@[simp] theorem State.setGzl_self (s : State) : s.setGzl s.gzl = s := rfl
@[simp] theorem State.setGzl_twice (s : State) (p q : Port GzlUnit) : (s.setGzl p).setGzl q = s.setGzl q := rfl

@[simp] theorem State.setDem_presented (s : State) (p : Port DemUnit) : (s.setDem p).presented = s.presented := rfl
@[simp] theorem State.setDem_frx (s : State) (p : Port DemUnit) : (s.setDem p).frx = s.frx := rfl
@[simp] theorem State.setDem_ftx (s : State) (p : Port DemUnit) : (s.setDem p).ftx = s.ftx := rfl
@[simp] theorem State.setDem_cks (s : State) (p : Port DemUnit) : (s.setDem p).cks = s.cks := rfl
@[simp] theorem State.setDem_mod (s : State) (p : Port DemUnit) : (s.setDem p).mod = s.mod := rfl
@[simp] theorem State.setDem_gzl (s : State) (p : Port DemUnit) : (s.setDem p).gzl = s.gzl := rfl
@[simp] theorem State.setDem_dem (s : State) (p : Port DemUnit) : (s.setDem p).dem = p := rfl
@[simp] theorem State.setDem_self (s : State) : s.setDem s.dem = s := rfl
@[simp] theorem State.setDem_twice (s : State) (p q : Port DemUnit) : (s.setDem p).setDem q = s.setDem q := rfl

/-- Two states with the same fields are the same. -/
theorem State.ext_fields {s t : State} (h0 : s.presented = t.presented) (h1 : s.frx = t.frx) (h2 : s.ftx = t.ftx)
    (h3 : s.cks = t.cks) (h4 : s.mod = t.mod) (h5 : s.gzl = t.gzl) (h6 : s.dem = t.dem) : s = t := by
  cases s; cases t; simp_all

end Sys2Proof.Machine
end

