-- ==== Sys2Proof/Laws/Ports.lean ====
section
/-! SUPPORT. What serving an operation at a port can do: the laws of `Port.serve`, `Port.run` and `Port.reject`. -/

namespace Sys2Proof.Machine

variable {α : Type}

theorem Port.serve_unbuilt (p : Port α) (op : α → Except ErrReport α) (h : p.built = none) :
    p.serve op = { p with err := p.err.again } := by simp [Port.serve, h]

theorem Port.serve_ok (p : Port α) (op : α → Except ErrReport α) {u u' : α} (h : p.built = some u)
    (ho : op u = .ok u') : p.serve op = Port.after u' := by simp [Port.serve, h, ho, Port.after]

theorem Port.serve_error (p : Port α) (op : α → Except ErrReport α) {u : α} {e : ErrReport} (h : p.built = some u)
    (ho : op u = .error e) : p.serve op = { p with err := e } := by simp [Port.serve, h, ho]

/-- Everything serving an operation can do. -/
theorem Port.serve_cases (p : Port α) (op : α → Except ErrReport α) :
    (p.built = none ∧ p.serve op = { p with err := p.err.again }) ∨
    (∃ u u', p.built = some u ∧ op u = .ok u' ∧ p.serve op = Port.after u') ∨
    (∃ u e, p.built = some u ∧ op u = .error e ∧ p.serve op = { p with err := e }) := by
  cases hb : p.built with
  | none => exact .inl ⟨rfl, by simpa [hb] using p.serve_unbuilt op hb⟩
  | some u =>
    cases ho : op u with
    | ok u' => exact .inr (.inl ⟨u, u', rfl, ho, p.serve_ok op hb ho⟩)
    | error e => exact .inr (.inr ⟨u, e, rfl, ho, by simpa [hb] using p.serve_error op hb ho⟩)

theorem Port.run_built (p : Port α) (op : α → α) {u : α} (h : p.built = some u) : p.run op = Port.after (op u) :=
  p.serve_ok _ h rfl

theorem Port.run_unbuilt (p : Port α) (op : α → α) (h : p.built = none) : p.run op = { p with err := p.err.again } :=
  p.serve_unbuilt _ h

theorem Port.reject_built (p : Port α) (code : BitVec 8) {u : α} (h : p.built = some u) :
    p.reject code = { p with err := .badCommand code } := p.serve_error _ h rfl

theorem Port.reject_unbuilt (p : Port α) (code : BitVec 8) (h : p.built = none) :
    p.reject code = { p with err := p.err.again } := p.serve_unbuilt _ h

/-- A reserved command never changes the unit (rule R268). -/
theorem Port.reject_keeps_unit (p : Port α) (code : BitVec 8) : (p.reject code).built = p.built := by
  cases h : p.built with
  | none => rw [p.reject_unbuilt code h]; exact h
  | some u => rw [p.reject_built code h]; exact h

@[simp] theorem Port.after_built (u : α) : (Port.after u).built = some u := rfl
@[simp] theorem Port.after_err (u : α) : (Port.after u).err = .none := rfl

/-- The answer of an unconstructed unit has code 1 (rule R268). -/
@[simp] theorem ErrReport.again_code (e : ErrReport) : e.again.code = 1 := by cases e <;> rfl

/-- Serving keeps a port's invariant when the operation keeps the unit's. -/
theorem Port.serve_inv {inv : α → Prop} {p : Port α} {op : α → Except ErrReport α} (hp : p.Inv inv)
    (hop : ∀ u u', inv u → op u = .ok u' → inv u') : (p.serve op).Inv inv := by
  rcases p.serve_cases op with ⟨hb, hs⟩ | ⟨u, u', hb, ho, hs⟩ | ⟨u, e, hb, ho, hs⟩
  · rw [hs]; simp [Port.Inv, hb]
  · rw [hs]; simp only [Port.Inv, hb] at hp; exact hop u u' hp ho
  · rw [hs]; simpa only [Port.Inv, hb] using hp

theorem Port.run_inv {inv : α → Prop} {p : Port α} {op : α → α} (hp : p.Inv inv)
    (hop : ∀ u, inv u → inv (op u)) : (p.run op).Inv inv :=
  Port.serve_inv hp (by intro u u' hu h; cases h; exact hop u hu)

theorem Port.reject_inv {inv : α → Prop} {p : Port α} {code : BitVec 8} (hp : p.Inv inv) : (p.reject code).Inv inv :=
  Port.serve_inv hp (by intro u u' _ h; cases h)

end Sys2Proof.Machine
end

