-- ==== Sys2Proof/Laws/Rounding.lean ====
section
/-! SUPPORT. What rounding answers: the nearest value of a binary format, and the nearest integer. -/

namespace Sys2Proof.Machine

/-! ## Rounding to a binary format -/

/-- `2^e <= n/d < 2^(e+1)`. -/
theorem binaryExponent_spec {n d : Nat} (hn : n ≠ 0) (hd : d ≠ 0) :
    (2 : ℚ) ^ binaryExponent n d ≤ n / d ∧ (n / d : ℚ) < 2 ^ (binaryExponent n d + 1) := by
  have hd0 : (0 : ℚ) < d := by exact_mod_cast Nat.pos_of_ne_zero hd
  have n1 : (2 : ℚ) ^ (Nat.log2 n : ℤ) ≤ n := by exact_mod_cast Nat.log2_self_le hn
  have n2 : (n : ℚ) < 2 ^ ((Nat.log2 n : ℤ) + 1) := by exact_mod_cast Nat.lt_log2_self (n := n)
  have d1 : (2 : ℚ) ^ (Nat.log2 d : ℤ) ≤ d := by exact_mod_cast Nat.log2_self_le hd
  have d2 : (d : ℚ) < 2 ^ ((Nat.log2 d : ℤ) + 1) := by exact_mod_cast Nat.lt_log2_self (n := d)
  generalize hl : (Nat.log2 n : ℤ) = a at *
  generalize hm : (Nat.log2 d : ℤ) = b at *
  have lower : (2 : ℚ) ^ (a - b - 1) ≤ n / d := by
    rw [le_div_iff₀ hd0]
    calc (2 : ℚ) ^ (a - b - 1) * d ≤ 2 ^ (a - b - 1) * 2 ^ (b + 1) := by gcongr
      _ = 2 ^ a := by rw [← zpow_add₀ (by norm_num)]; congr 1; ring
      _ ≤ n := n1
  have upper : (n / d : ℚ) < 2 ^ (a - b + 1) := by
    rw [div_lt_iff₀ hd0]
    calc (n : ℚ) < 2 ^ (a + 1) := n2
      _ = 2 ^ (a - b + 1) * 2 ^ b := by rw [← zpow_add₀ (by norm_num)]; congr 1; ring
      _ ≤ 2 ^ (a - b + 1) * d := by gcongr
  have fits : (if 0 ≤ a - b then Nat.ble (d <<< (a - b).toNat) n else Nat.ble d (n <<< (-(a - b)).toNat)) = true ↔
      (2 : ℚ) ^ (a - b) ≤ n / d := by
    rw [le_div_iff₀ hd0]
    split
    · rename_i h
      obtain ⟨k, hk⟩ := Int.eq_ofNat_of_zero_le h
      rw [hk, Nat.ble_eq, Nat.shiftLeft_eq, Int.toNat_natCast, zpow_natCast, mul_comm]
      exact_mod_cast Iff.rfl
    · rename_i h
      obtain ⟨k, hk⟩ := Int.eq_ofNat_of_zero_le (show 0 ≤ -(a - b) by omega)
      have hk' : a - b = -(k : ℤ) := by omega
      rw [hk, hk', Nat.ble_eq, Nat.shiftLeft_eq, Int.toNat_natCast, zpow_neg, zpow_natCast,
        inv_mul_le_iff₀ (by positivity), mul_comm]
      exact_mod_cast Iff.rfl
  unfold binaryExponent
  simp only [hl, hm]
  generalize (if 0 ≤ a - b then Nat.ble (d <<< (a - b).toNat) n else Nat.ble d (n <<< (-(a - b)).toNat)) = f at *
  split
  · rename_i h
    exact ⟨fits.1 h, upper⟩
  · rename_i h
    rw [fits, not_le] at h
    exact ⟨lower, by rw [sub_add_cancel]; exact h⟩

/-- No integer is nearer. -/
theorem roundHalfEven_nearest (num : Nat) {den : Nat} (hd : den ≠ 0) (k : ℤ) :
    |(num / den : ℚ) - roundHalfEven num den| ≤ |(num / den : ℚ) - k| ∧
      |(num / den : ℚ) - roundHalfEven num den| ≤ 1 / 2 := by
  have hd0 : (0 : ℚ) < den := by exact_mod_cast Nat.pos_of_ne_zero hd
  have hdiv : (num : ℚ) = den * (num / den : ℕ) + (num % den : ℕ) := by exact_mod_cast (Nat.div_add_mod num den).symm
  have hlt : num % den < den := Nat.mod_lt _ (Nat.pos_of_ne_zero hd)
  have half : |(num / den : ℚ) - roundHalfEven num den| ≤ 1 / 2 := by
    have key : ∀ m : ℕ, |2 * ((num : ℤ) - den * m)| ≤ den → |(num / den : ℚ) - m| ≤ 1 / 2 := by
      intro m hm
      have hm' : |2 * ((num : ℚ) - den * m)| ≤ den := by exact_mod_cast hm
      have e : (num / den : ℚ) - m = (num - den * m) / den := by field_simp
      rw [e, abs_div, abs_of_pos hd0, div_le_iff₀ hd0]
      rw [abs_mul, abs_two] at hm'
      linarith
    apply key
    have hz : (num : ℤ) = den * (num / den : ℕ) + (num % den : ℕ) := by exact_mod_cast (Nat.div_add_mod num den).symm
    unfold roundHalfEven
    simp only
    rw [hz]
    generalize num / den = m at *
    generalize num % den = r at *
    have two : m % 2 = 0 ∨ m % 2 = 1 := by omega
    split
    · rw [abs_le]; constructor <;> nlinarith
    · split
      · rw [abs_le]; constructor <;> push_cast <;> nlinarith
      · rcases two with h | h <;> rw [h, abs_le] <;> constructor <;> push_cast <;> nlinarith
  refine ⟨?_, half⟩
  by_cases hk : (k : ℤ) = (roundHalfEven num den : ℕ)
  · rw [hk]; simp
  · have one : (1 : ℚ) ≤ |(k : ℚ) - (roundHalfEven num den : ℕ)| := by
      exact_mod_cast Int.one_le_abs (sub_ne_zero.2 hk)
    have tri : |(k : ℚ) - (roundHalfEven num den : ℕ)|
        ≤ |(num / den : ℚ) - roundHalfEven num den| + |(num / den : ℚ) - k| := by
      have := abs_sub_le (k : ℚ) (num / den : ℚ) (roundHalfEven num den : ℕ)
      rw [abs_sub_comm (k : ℚ) (num / den)] at this
      linarith
    linarith

theorem scaled_eq (m u : ℤ) : scaled m u = m * (2 : ℚ) ^ u := by
  unfold scaled
  split
  · rename_i h
    obtain ⟨k, rfl⟩ := Int.eq_ofNat_of_zero_le h
    simp [Rat.mkRat_eq_div, Nat.shiftLeft_eq]
  · rename_i h
    obtain ⟨k, hk⟩ := Int.eq_ofNat_of_zero_le (show 0 ≤ -u by omega)
    obtain rfl : u = -(k : ℤ) := by omega
    simp [Rat.mkRat_eq_div, Nat.shiftLeft_eq, div_eq_mul_inv]


/-- The multiple `roundBinary` takes: of `2^u`, the one nearest `|q|`. -/
theorem nearest_multiple (q : ℚ) (u : ℤ) :
    ∃ m : ℕ, (if 0 ≤ u then roundHalfEven q.num.natAbs (q.den <<< u.toNat)
        else roundHalfEven (q.num.natAbs <<< (-u).toNat) q.den) = m ∧
      (∀ k : ℤ, |(|q| / 2 ^ u) - m| ≤ |(|q| / 2 ^ u) - k|) ∧ |(|q| / 2 ^ u) - m| ≤ 1 / 2 := by
  have habs : |q| = (q.num.natAbs : ℚ) / q.den := by
    conv_lhs => rw [← Rat.num_div_den q]
    rw [abs_div, Nat.abs_cast, Nat.cast_natAbs, Int.cast_abs]
  have hq : q.den ≠ 0 := q.den_nz
  have hq0 : (q.den : ℚ) ≠ 0 := by exact_mod_cast hq
  split
  · rename_i h
    obtain ⟨k, rfl⟩ := Int.eq_ofNat_of_zero_le h
    have hd : q.den <<< k ≠ 0 := by simp [Nat.shiftLeft_eq, hq]
    have e : |q| / 2 ^ (k : ℤ) = ((q.num.natAbs : ℕ) : ℚ) / ((q.den <<< k : ℕ) : ℚ) := by
      rw [habs, Nat.shiftLeft_eq, zpow_natCast]; push_cast; rw [div_div]
    refine ⟨_, rfl, fun j => ?_, ?_⟩ <;> rw [e, Int.toNat_natCast]
    · exact (roundHalfEven_nearest _ hd j).1
    · exact (roundHalfEven_nearest _ hd 0).2
  · rename_i h
    obtain ⟨k, hk⟩ := Int.eq_ofNat_of_zero_le (show 0 ≤ -u by omega)
    obtain rfl : u = -(k : ℤ) := by omega
    have e : |q| / 2 ^ (-(k : ℤ)) = ((q.num.natAbs <<< k : ℕ) : ℚ) / q.den := by
      rw [habs, Nat.shiftLeft_eq, zpow_neg, zpow_natCast]; push_cast; field_simp
    refine ⟨_, rfl, fun j => ?_, ?_⟩ <;> rw [e, hk, Int.toNat_natCast]
    · exact (roundHalfEven_nearest _ hq j).1
    · exact (roundHalfEven_nearest _ hq 0).2

/-- Everything `roundBinary` does for a number in the format's range: a value of the format, and none is nearer. -/
theorem roundBinary_nearest {p : ℕ} (hp : 1 ≤ p) {emin emax : ℤ} (he : emin ≤ emax) (hm : 0 ≤ emax) {q : ℚ}
    (hq : |q| ≤ (2 ^ p - 1) * (2 : ℚ) ^ emax) :
    ∃ v, roundBinary p emin (emax + p) q = some v ∧ NearestBinaryValue p emin emax q v := by
  have two : (2 : ℚ) ≠ 0 := by norm_num
  set u : ℤ := max (binaryExponent q.num.natAbs q.den - ((p : ℤ) - 1)) emin with hu
  obtain ⟨m, hmdef, hnear, hhalf⟩ := nearest_multiple q u
  set y : ℚ := |q| / 2 ^ u with hy
  have hpow : (0 : ℚ) < 2 ^ u := by positivity
  have hqy : |q| = y * 2 ^ u := by rw [hy]; field_simp
  have hy0 : 0 ≤ y := by positivity
  have habs : |q| = (q.num.natAbs : ℚ) / q.den := by
    conv_lhs => rw [← Rat.num_div_den q]
    rw [abs_div, Nat.abs_cast, Nat.cast_natAbs, Int.cast_abs]
  have hpz : ((2 : ℚ) ^ p) = 2 ^ (p : ℤ) := (zpow_natCast _ _).symm
  -- the exponent of `q`
  have hexp : q ≠ 0 → (2 : ℚ) ^ binaryExponent q.num.natAbs q.den ≤ |q| ∧
      |q| < 2 ^ (binaryExponent q.num.natAbs q.den + 1) := by
    intro h
    rw [habs]
    exact binaryExponent_spec (by simpa using h) q.den_nz
  have hylt : y < 2 ^ p := by
    by_cases h0 : q = 0
    · rw [hy, h0]; simp
    · rw [hy, div_lt_iff₀ hpow, hpz, ← zpow_add₀ two]
      refine (hexp h0).2.trans_le (zpow_le_zpow_right₀ (by norm_num) ?_)
      omega
  have hmle : m ≤ 2 ^ p := by
    have := hnear (2 ^ p)
    by_contra hc
    have hc' : ((2 : ℚ) ^ p) + 1 ≤ m := by exact_mod_cast Nat.lt_of_not_le hc
    rw [abs_le] at hhalf
    linarith
  have huemax : u ≤ emax := by
    by_cases h0 : q = 0
    · subst h0
      have : binaryExponent (0 : ℚ).num.natAbs (0 : ℚ).den = -1 := by decide
      rw [this] at hu
      omega
    · have h1 := (hexp h0).1.trans hq
      have h2 : (2 : ℚ) ^ binaryExponent q.num.natAbs q.den < 2 ^ (emax + p) := by
        refine h1.trans_lt ?_
        rw [add_comm, zpow_add₀ two, hpz]
        have : (0 : ℚ) < 2 ^ emax := by positivity
        nlinarith
      rw [zpow_lt_zpow_iff_right₀ (by norm_num)] at h2
      omega
  have hmtop : m = 2 ^ p → u < emax := by
    intro h
    rcases lt_or_eq_of_le huemax with h' | h'
    · exact h'
    · exfalso
      have h1 : y ≤ 2 ^ p - 1 := by rw [hy, div_le_iff₀ hpow, h']; exact hq
      rw [abs_le, h] at hhalf
      push_cast at hhalf
      linarith
  -- the answer
  set s : ℤ := if q.num < 0 then -(m : ℤ) else m with hs
  have hsabs : |s| = m := by rw [hs]; split <;> simp
  have hv : scaled s u = s * (2 : ℚ) ^ u := scaled_eq s u
  have hvabs : |scaled s u| = m * (2 : ℚ) ^ u := by
    rw [hv, abs_mul, abs_of_pos hpow, ← Int.cast_abs, hsabs]; simp
  have hvlt : |scaled s u| < 2 ^ (emax + p) := by
    rw [hvabs, add_comm, zpow_add₀ two, ← hpz]
    rcases lt_or_eq_of_le hmle with h | h
    · have h1 : (m : ℚ) < 2 ^ p := by exact_mod_cast h
      have h2 : (2 : ℚ) ^ u ≤ 2 ^ emax := zpow_le_zpow_right₀ (by norm_num) huemax
      have h3 : (0 : ℚ) ≤ m := by positivity
      nlinarith
    · have h2 : (2 : ℚ) ^ u < 2 ^ emax := zpow_lt_zpow_right₀ (by norm_num) (hmtop h)
      rw [h]; push_cast
      gcongr
  have hdist : |q - scaled s u| = |y - m| * 2 ^ u := by
    have : q - scaled s u = (if q.num < 0 then -1 else 1) * ((y - m) * 2 ^ u) := by
      rw [hv, hs, sub_mul, ← hqy]
      split
      · rename_i h
        rw [abs_of_neg (Rat.num_neg.1 h)]; push_cast; ring
      · rename_i h
        rw [abs_of_nonneg (Rat.num_nonneg.1 (not_lt.1 h))]; push_cast; ring
    rw [this, abs_mul, abs_mul, abs_of_pos hpow]
    split <;> simp
  refine ⟨scaled s u, ?_, ?_, ?_⟩
  · unfold roundBinary
    simp only [← hu, hmdef, ← hs]
    rw [if_pos]
    obtain ⟨k, hk⟩ := Int.eq_ofNat_of_zero_le (show 0 ≤ emax + p by omega)
    rw [hk] at hvlt ⊢
    generalize scaled s u = v at hvlt ⊢
    have hvabs : |v| = (v.num.natAbs : ℚ) / v.den := by
      conv_lhs => rw [← Rat.num_div_den v]
      rw [abs_div, Nat.abs_cast, Nat.cast_natAbs, Int.cast_abs]
    rw [hvabs, div_lt_iff₀ (by exact_mod_cast v.den_pos), zpow_natCast] at hvlt
    rw [Int.toNat_natCast, Nat.shiftLeft_eq, mul_comm]
    exact_mod_cast hvlt
  · rcases lt_or_eq_of_le hmle with h | h
    · exact ⟨s, u, by rw [hsabs]; exact_mod_cast h, by omega, huemax, hv⟩
    · obtain ⟨r, rfl⟩ : ∃ r, p = r + 1 := ⟨p - 1, by omega⟩
      refine ⟨if q.num < 0 then -2 ^ r else 2 ^ r, u + 1, ?_, by omega, by have := hmtop h; omega, ?_⟩
      · split <;> simp [pow_succ]
      · rw [hv, hs, h, zpow_add₀ two]
        split <;> push_cast <;> ring
  · rintro w ⟨k, e, hk, he1, he2, rfl⟩
    rw [hdist]
    -- comparing with the absolute value of `w` is enough
    have hw := abs_abs_sub_abs_le q ((k : ℚ) * 2 ^ e)
    refine le_trans ?_ hw
    have hpe : (0 : ℚ) < 2 ^ e := by positivity
    rw [abs_mul, abs_of_pos hpe, hqy, ← Int.cast_abs]
    rcases le_or_gt u e with h | h
    · obtain ⟨j, hj⟩ := Int.eq_ofNat_of_zero_le (show 0 ≤ e - u by omega)
      obtain rfl : e = u + j := by omega
      have : y * 2 ^ u - ((|k| : ℤ) : ℚ) * 2 ^ (u + (j : ℤ)) = (y - ((|k| * 2 ^ j : ℤ) : ℚ)) * 2 ^ u := by
        rw [zpow_add₀ two, zpow_natCast]; push_cast; ring
      rw [this, abs_mul, abs_of_pos hpow]
      exact mul_le_mul_of_nonneg_right (hnear _) hpow.le
    · -- `w` is below `2^(p-1) * 2^u`, and `q` is not
      have hu' : u = binaryExponent q.num.natAbs q.den - ((p : ℤ) - 1) := by omega
      by_cases h0 : q = 0
      · have hy0 : y = 0 := by rw [hy, h0]; simp
        have := hnear 0
        rw [hy0, Int.cast_zero, sub_zero, abs_zero] at this
        rw [hy0]
        exact (mul_nonpos_of_nonpos_of_nonneg this hpow.le).trans (abs_nonneg _)
      have h1 : (2 : ℚ) ^ ((p : ℤ) - 1) * 2 ^ u ≤ y * 2 ^ u := by
        rw [← hqy, ← zpow_add₀ two]
        convert (hexp h0).1 using 2
        omega
      obtain ⟨r, rfl⟩ : ∃ r, p = r + 1 := ⟨p - 1, by omega⟩
      have h2 : ((|k| : ℤ) : ℚ) * 2 ^ e ≤ 2 ^ (r : ℤ) * 2 ^ u := by
        have a1 : ((|k| : ℤ) : ℚ) ≤ 2 ^ (r + 1) := by exact_mod_cast hk.le
        calc ((|k| : ℤ) : ℚ) * 2 ^ e ≤ 2 ^ (r + 1) * 2 ^ e := by gcongr
          _ = 2 ^ ((r : ℤ) + 1 + e) := by
            rw [zpow_add₀ two, ← zpow_natCast]; push_cast; rfl
          _ ≤ 2 ^ ((r : ℤ) + u) := zpow_le_zpow_right₀ (by norm_num) (by omega)
          _ = _ := zpow_add₀ two _ _
      have h3 := hnear (2 ^ r)
      have e1 : ((r + 1 : ℕ) : ℤ) - 1 = r := by push_cast; ring
      rw [e1] at h1
      have h4 : (2 : ℚ) ^ (r : ℤ) ≤ y := le_of_mul_le_mul_right h1 hpow
      rw [zpow_natCast] at h4 h2
      rw [abs_of_nonneg (show 0 ≤ y * 2 ^ u - ((|k| : ℤ) : ℚ) * 2 ^ e by nlinarith)]
      have h5 : |y - (m : ℚ)| ≤ y - 2 ^ r := by
        refine h3.trans ?_
        push_cast
        rw [abs_of_nonneg (by linarith)]
      nlinarith

/-- A value of the format in the range is rounded to itself. -/
theorem NearestBinaryValue.eq_self {p : ℕ} {emin emax : ℤ} {q v : ℚ} (h : NearestBinaryValue p emin emax q v)
    (hq : BinaryValue p emin emax q) : v = q := by
  have := h.2 q hq
  rw [sub_self, abs_zero] at this
  exact (sub_eq_zero.1 (abs_eq_zero.1 (le_antisymm this (abs_nonneg _)))).symm

theorem fl64_nearest {q : ℚ} (hq : |q| ≤ (2 ^ 53 - 1) * (2 : ℚ) ^ (971 : ℤ)) :
    NearestBinaryValue 53 (-1074) 971 q (fl64 q) := by
  obtain ⟨v, hv, hn⟩ := roundBinary_nearest (p := 53) (emin := -1074) (emax := 971) (by decide) (by decide) (by decide) hq
  rw [fl64, show (1024 : ℤ) = 971 + (53 : ℕ) from rfl, hv]
  exact hn

theorem fl32_nearest {q : ℚ} (hq : |q| ≤ (2 ^ 24 - 1) * (2 : ℚ) ^ (104 : ℤ)) :
    NearestBinaryValue 24 (-149) 104 q (fl32 q) := by
  obtain ⟨v, hv, hn⟩ := roundBinary_nearest (p := 24) (emin := -149) (emax := 104) (by decide) (by decide) (by decide) hq
  rw [fl32, show (128 : ℤ) = 104 + (24 : ℕ) from rfl, hv]
  exact hn

/-- binary64 rounds none of its own values: here an integer times a power of two of small exponent. -/
theorem fl64_exact {m e : ℤ} (hm : |m| < 2 ^ 53) (h1 : -1074 ≤ e) (h2 : e ≤ 971) :
    fl64 (m * (2 : ℚ) ^ e) = m * (2 : ℚ) ^ e := by
  refine (fl64_nearest ?_).eq_self ⟨m, e, hm, h1, h2, rfl⟩
  rw [abs_mul, abs_of_pos (show (0 : ℚ) < 2 ^ e by positivity), ← Int.cast_abs]
  have : ((|m| : ℤ) : ℚ) ≤ 2 ^ 53 - 1 := by
    have : |m| ≤ 2 ^ 53 - 1 := by omega
    exact_mod_cast this
  gcongr
  · norm_num

@[simp] theorem fl64_zero : fl64 0 = 0 := by
  simpa using fl64_exact (m := 0) (e := 0) (by decide) (by decide) (by decide)

/-- No positive integer in the range rounds to 0: the value 1 is nearer. -/
theorem fl64_ne_zero {n : Nat} (hn : 0 < n) (h : (n : Rat) ≤ (2 ^ 53 - 1) * (2 : Rat) ^ (971 : Int)) :
    fl64 n ≠ 0 := by
  intro h0
  have h1 : (1 : Rat) ≤ n := by exact_mod_cast hn
  have hnear := (fl64_nearest ((Nat.abs_cast n).le.trans h)).2 1 ⟨1, 0, by decide, by decide, by decide, by simp⟩
  rw [h0, sub_zero, Nat.abs_cast, abs_of_nonneg (by linarith)] at hnear
  linarith

/-! ## Rounding to an integer -/

@[simp] theorem reference_zero : (numOps .reference).zero = 0 := by
  rw [NumOps.zero, reference_ofInt, Rat.zero_mkRat, fl64_zero]

/-- The reference number system compares, and finds floors, as the real numbers do. -/
theorem reference_reads : NumOpsReads (numOps .reference) (fun x : Num => ((x : Rat) : ℝ)) where
  le x y := by rw [reference_le, ratLe_iff]; exact_mod_cast Iff.rfl
  floor x := by rw [reference_floor]; exact (Rat.floor_cast (α := ℝ) x).symm
  zero := by rw [reference_zero]; exact Rat.cast_zero
  middle m hm := by
    have h := fl64_exact (m := 2 * m + 1) (e := -1) (by rw [abs_le] at hm; rw [abs_lt]; omega) (by decide) (by decide)
    rw [reference_ofRat, Rat.mkRat_eq_div]
    have e : ((2 * m + 1 : ℤ) : ℚ) / ((2 : ℕ) : ℚ) = ((2 * m + 1 : ℤ) : ℚ) * 2 ^ (-1 : ℤ) := by
      rw [zpow_neg_one]; push_cast; ring
    rw [e, h]
    push_cast
    rw [zpow_neg_one]
    ring

/-- The reference number system stays at a binary64 value over a ramp of zero height. -/
theorem reference_zeroHeight {x : Num} {ease : Nat} (hx : BinaryValue 53 (-1074) 971 x)
    (he : (ease : Rat) ≤ (2 ^ 53 - 1) * (2 : Rat) ^ (971 : Int)) : NumOpsZeroHeight (numOps .reference) x ease where
  sub := by rw [reference_zero, reference_sub, sub_self, fl64_zero]
  mul y := by rw [reference_zero, reference_mul, zero_mul, fl64_zero]
  div h := by
    have hne := fl64_ne_zero h he
    rw [reference_zero, reference_div, reference_ofInt, Rat.mkRat_one, Int.cast_natCast, if_neg (Rat.num_ne_zero.2 hne),
      zero_div, fl64_zero]
  add := by
    obtain ⟨m, e, h1, h2, h3, rfl⟩ := hx
    rw [reference_zero, reference_add, add_zero, fl64_exact h1 h2 h3]

/-- Half an integer away at most, and at a half the one farther from 0, as long as the half-integer is read right. -/
theorem roundHalfAway_nearest {ops : NumOps} {real : Num → ℝ} (h : NumOpsReads ops real) {x : Num}
    (hx : |⌊real x⌋| ≤ 2 ^ 31) :
    |real x - roundHalfAway ops x| ≤ 1 / 2 ∧
      (|real x - roundHalfAway ops x| = 1 / 2 → |real x| ≤ |(roundHalfAway ops x : ℝ)|) := by
  have h1 := Int.floor_le (real x)
  have h2 := Int.lt_floor_add_one (real x)
  have hmid := h.middle _ hx
  unfold roundHalfAway
  simp only [h.le, h.zero, h.floor, hmid]
  generalize ⌊real x⌋ = m at *
  generalize real x = y at *
  split
  · rename_i h0
    have hm : (-1 : ℝ) < m := by linarith
    have hm' : (0 : ℤ) ≤ m := by have : (-1 : ℤ) < m := by exact_mod_cast hm
                                 omega
    have hm0 : (0 : ℝ) ≤ m := by exact_mod_cast hm'
    split
    · rename_i hc
      push_cast
      rw [abs_of_nonpos (by linarith), abs_of_nonneg h0, abs_of_nonneg (by linarith)]
      exact ⟨by linarith, fun _ => by linarith⟩
    · rename_i hc
      rw [abs_of_nonneg (by linarith : 0 ≤ y - m)]
      exact ⟨by linarith, fun he => by linarith⟩
  · rename_i h0
    have hm : (m : ℝ) < 0 := by linarith
    have hm' : m + 1 ≤ 0 := by have : m < (0 : ℤ) := by exact_mod_cast hm
                               omega
    have hm0 : (m : ℝ) + 1 ≤ 0 := by exact_mod_cast hm'
    split
    · rename_i hc
      rw [abs_of_nonneg (by linarith : 0 ≤ y - m), abs_of_nonpos (by linarith : y ≤ 0), abs_of_nonpos hm.le]
      exact ⟨by linarith, fun _ => by linarith⟩
    · rename_i hc
      push_cast
      rw [abs_of_nonpos (by linarith : y - (m + 1) ≤ 0)]
      exact ⟨by linarith, fun he => by linarith⟩

theorem roundHalfAway_between (ops : NumOps) (x : Num) :
    ops.floor x ≤ roundHalfAway ops x ∧ roundHalfAway ops x ≤ ops.floor x + 1 := by
  unfold roundHalfAway
  simp only
  split <;> split <;> omega

end Sys2Proof.Machine
end

