-- ==== Sys2Proof/Laws/Tones.lean ====
section
/-! SUPPORT. The oscillator, the analyzer and the demodulator: what their operations can do, and that they keep their
invariants. -/

namespace Sys2Proof.Machine

/-! ## Oscillator -/

theorem easeAdvance_cases (cfg : ModCfg) (r : Ramp) :
    (r.k < cfg.ease ∧ easeAdvance cfg r = (easeCurve cfg r.fromValue r.toValue (r.k + 1), { r with k := r.k + 1 })) ∨
    (cfg.ease ≤ r.k ∧ easeAdvance cfg r = (r.toValue, r)) := by
  unfold easeAdvance
  by_cases h : r.k < cfg.ease
  · exact .inl ⟨h, if_pos h⟩
  · exact .inr ⟨by omega, if_neg h⟩

theorem easeAdvance_k_le {cfg : ModCfg} {r : Ramp} (h : r.k ≤ cfg.ease) : (easeAdvance cfg r).2.k ≤ cfg.ease := by
  rcases easeAdvance_cases cfg r with ⟨hk, he⟩ | ⟨hk, he⟩ <;> rw [he]
  · exact hk
  · exact h

/-- A curve is at its target on its last sample (rule R188 b). -/
@[simp] theorem easeCurve_last (cfg : ModCfg) (a b : Num) : easeCurve cfg a b cfg.ease = b := by simp [easeCurve]

/-- A ramp of zero height stays where it is, on every curve (rules R182 and R183). -/
theorem easeCurve_zero_height {cfg : ModCfg} {x : Num} (h : NumOpsZeroHeight (numOps cfg.num) x cfg.ease) {k : Nat}
    (hk : k ≤ cfg.ease) : easeCurve cfg x x k = x := by
  unfold easeCurve
  split
  · rfl
  · cases cfg.easeFn with
    | reference => simp only [h.sub, h.mul, h.div (by omega), h.add]
    | other n => simp only [h.sub, h.mul, h.add]

@[simp] theorem mix_one (ops : NumOps) (y : Num) : mix ops [y] = y := rfl

theorem render_length (cfg : ModCfg) (n : Nat) (o : Osc) : (render cfg n o).1.length = n := by
  induction n generalizing o with
  | zero => rfl
  | succ n ih => simp [render, ih]

/-- What the invariant says of an oscillator. -/
def OscInv (cfg : ModCfg) (o : Osc) : Prop :=
  o.fRamp.k ≤ cfg.ease ∧ o.aRamp.k ≤ cfg.ease ∧ (cfg.num = .reference → 0 ≤ o.phase ∧ o.phase < twoPi64)

theorem Osc.advance_inv {cfg : ModCfg} {o : Osc} (h : OscInv cfg o) : OscInv cfg (o.advance cfg).2 := by
  refine ⟨easeAdvance_k_le h.1, easeAdvance_k_le h.2.1, fun hn => ?_⟩
  simp only [Osc.advance, hn, reference_mod2pi]
  exact mod2pi64_range _

theorem Osc.setFreq_inv {cfg : ModCfg} {o : Osc} (h : OscInv cfg o) (f : Num) : OscInv cfg (o.setFreq f) :=
  ⟨Nat.zero_le _, h.2.1, h.2.2⟩

theorem Osc.setAmp_inv {cfg : ModCfg} {o : Osc} (h : OscInv cfg o) (a : Num) : OscInv cfg (o.setAmp a) :=
  ⟨h.1, Nat.zero_le _, h.2.2⟩

theorem render_inv {cfg : ModCfg} (n : Nat) {o : Osc} (h : OscInv cfg o) : OscInv cfg (render cfg n o).2 := by
  induction n generalizing o with
  | zero => exact h
  | succ n ih => exact ih (Osc.advance_inv h)

theorem ModInv.osc {u : ModUnit} (h : ModInv u) : OscInv u.cfg u.osc := ⟨h.fRamp, h.aRamp, h.phase⟩

theorem ModInv.of_osc {u u' : ModUnit} (h : ModInv u) (hc : u'.cfg = u.cfg) (ho : OscInv u.cfg u'.osc) : ModInv u' where
  fRamp := by rw [hc]; exact ho.1
  aRamp := by rw [hc]; exact ho.2.1
  phase := by intro hn; rw [hc] at hn; exact ho.2.2 hn
  rate := by rw [hc]; exact h.rate

theorem modSym_inv {u : ModUnit} (h : ModInv u) (b : Bit) : ModInv (modSym b u) :=
  h.of_osc rfl (render_inv _ (Osc.setFreq_inv (render_inv _ (Osc.setFreq_inv h.osc _)) _))

/-! ## Analyzer -/

@[simp] theorem Goertzel.sample_cfg (g : Goertzel) (x : Num) : (g.sample x).cfg = g.cfg := rfl
@[simp] theorem Goertzel.clear_cfg (g : Goertzel) : g.clear.cfg = g.cfg := rfl

theorem Goertzel.foldl_sample_cfg (w : List Num) (g : Goertzel) : (w.foldl Goertzel.sample g).cfg = g.cfg := by
  induction w generalizing g with
  | nil => rfl
  | cons x w ih => rw [List.foldl_cons, ih]; rfl

@[simp] theorem Goertzel.window_cfg (g : Goertzel) (w : List Num) : (g.window w).cfg = g.cfg := by
  rw [Goertzel.window, Goertzel.foldl_sample_cfg, Goertzel.clear_cfg]

theorem Goertzel.sample_inv {g : Goertzel} (h : GoertzelInv g) (x : Num) : GoertzelInv (g.sample x) where
  someFreq := h.someFreq
  coeffs := by simpa [Goertzel.sample, Lane.sample, Function.comp_def] using h.coeffs
  rate := h.rate

theorem Goertzel.clear_inv {g : Goertzel} (h : GoertzelInv g) : GoertzelInv g.clear where
  someFreq := h.someFreq
  coeffs := by simpa [Goertzel.clear, Function.comp_def] using h.coeffs
  rate := h.rate

theorem Goertzel.window_inv {g : Goertzel} (h : GoertzelInv g) (w : List Num) : GoertzelInv (g.window w) := by
  suffices ∀ (w : List Num) (g : Goertzel), GoertzelInv g → GoertzelInv (w.foldl Goertzel.sample g) from
    this w _ (Goertzel.clear_inv h)
  intro w
  induction w with
  | nil => exact fun _ h => h
  | cons x w ih => exact fun g h => ih _ (Goertzel.sample_inv h x)

theorem Goertzel.fresh_inv {cfg : GzlCfg} (h1 : 1 ≤ cfg.freqs.length) (h2 : positiveRate cfg.num cfg.fs = true) :
    GoertzelInv (Goertzel.fresh cfg) where
  someFreq := h1
  coeffs := by simp [Goertzel.fresh, Function.comp_def]
  rate := h2

/-! ## Demodulator -/

theorem dmSample_partial (u : DemUnit) (x : Num) (h : u.wbuf.length + 1 ≠ u.cfg.win) :
    dmSample x u = { u with wbuf := u.wbuf ++ [x] } := by
  simp [dmSample, h]

theorem dmSample_full (u : DemUnit) (x : Num) (h : u.wbuf.length + 1 = u.cfg.win) :
    dmSample x u = closeWindow u (u.wbuf ++ [x]) := by
  simp [dmSample, h]

theorem dmSample_inv {u : DemUnit} (h : DemInv u) (x : Num) : DemInv (dmSample x u) := by
  have hw := h.window
  have hs := h.step
  by_cases hl : u.wbuf.length + 1 = u.cfg.win
  · rw [dmSample_full u x hl]
    exact
      { step := hs
        threeTone := h.threeTone
        window := by simp only [closeWindow, List.length_drop, List.length_append, List.length_singleton]; omega
        gzCfg := by simp [closeWindow, h.gzCfg]
        gz := Goertzel.window_inv h.gz _ }
  · rw [dmSample_partial u x hl]
    exact { step := hs, threeTone := h.threeTone, window := by simp only [List.length_append, List.length_singleton]; omega, gzCfg := h.gzCfg, gz := h.gz }

theorem dmFlush_inv {u : DemUnit} (h : DemInv u) : DemInv (dmFlush u) :=
  { step := h.step, threeTone := h.threeTone, window := h.window, gzCfg := h.gzCfg, gz := h.gz }

end Sys2Proof.Machine
end

