-- ==== Sys2Proof/Tests/Slice0.lean ====
section
/-! SUPPORT. Tests: ill-formed terms, every row of the opcode table decoded from its word, the spec's vectors
(`95_test_vectors.md`) on single steps, and a witness for the hypotheses of every obligation that has any. -/

namespace Sys2Proof.Machine

set_option Elab.async false

/-! ## WellFormed: each check refuses an ill-formed term -/

theorem test_wellFormed_txEncode : (Instr.txEncode 2 [0x68]).wellFormed = false := by decide +kernel
theorem test_wellFormed_ckCalc : (Instr.ckCalc 0 [0x68]).wellFormed = false := by decide +kernel
theorem test_wellFormed_ckVerify : (Instr.ckVerify 0x526E1C 3 [0x68, 0x69]).wellFormed = false := by decide +kernel
theorem test_wellFormed_hi : (Instr.txEncode 2 [0x68, 0x69]).wellFormed = true := by decide +kernel

/-! ## Decode: the code column of rule R91, bit by bit, with operands -/

theorem test_decode_rxPush :
    decode { unit := .frx, code := 0b00010000, operand := { bit := true } } = .ok (.rxPush true) := rfl
theorem test_decode_rxPushb :
    decode { unit := .frx, code := 0b00010001, operand := { byte := 0xAA } } = .ok (.rxPushb 0xAA) := rfl
theorem test_decode_rxClear :
    decode { unit := .frx, code := 0b00010010, operand := {} } = .ok .rxClear := rfl
theorem test_decode_pkPush :
    decode { unit := .frx, code := 0b00010011, operand := { bit := true } } = .ok (.pkPush true) := rfl
theorem test_decode_txEncode :
    decode { unit := .ftx, code := 0b00100000, operand := { len := 2, bytes := [0x68, 0x69] } }
      = .ok (.txEncode 2 [0x68, 0x69]) := rfl
theorem test_decode_ckCalc :
    decode { unit := .cks, code := 0b00110000, operand := { len := 1, bytes := [0x61] } }
      = .ok (.ckCalc 1 [0x61]) := rfl
theorem test_decode_ckVerify :
    decode { unit := .cks, code := 0b00110001, operand := { value := 0x526E1C, len := 2, bytes := [0x68, 0x69] } }
      = .ok (.ckVerify 0x526E1C 2 [0x68, 0x69]) := rfl
theorem test_decode_modSym :
    decode { unit := .mod, code := 0b01000000, operand := { bit := true } } = .ok (.modSym true) := rfl
theorem test_decode_oscSetf :
    decode { unit := .mod, code := 0b01000001, operand := { num := 2000 } } = .ok (.oscSetf 2000) := rfl
theorem test_decode_oscSeta :
    decode { unit := .mod, code := 0b01000010, operand := { num := 1 } } = .ok (.oscSeta 1) := rfl
theorem test_decode_oscStep : decode { unit := .mod, code := 0b01000011, operand := {} } = .ok .oscStep := rfl
theorem test_decode_modFlush : decode { unit := .mod, code := 0b01000100, operand := {} } = .ok .modFlush := rfl
theorem test_decode_gzSample :
    decode { unit := .gzl, code := 0b01010000, operand := { num := 1 } } = .ok (.gzSample 1) := rfl
theorem test_decode_gzRank : decode { unit := .gzl, code := 0b01010001, operand := {} } = .ok .gzRank := rfl
theorem test_decode_gzReset : decode { unit := .gzl, code := 0b01010010, operand := {} } = .ok .gzReset := rfl
theorem test_decode_dmSample :
    decode { unit := .dem, code := 0b01100000, operand := { num := -1 } } = .ok (.dmSample (-1)) := rfl
theorem test_decode_dmFlush : decode { unit := .dem, code := 0b01100001, operand := {} } = .ok .dmFlush := rfl
/-- V52, and a listed code at another unit's port (rule R97). -/
theorem test_decode_reserved :
    decode { unit := .frx, code := 0x14, operand := {} } = .error .badCommand ∧
    decode { unit := .ftx, code := 0x21, operand := {} } = .error .badCommand ∧
    decode { unit := .mod, code := 0x00, operand := {} } = .error .badCommand ∧
    decode { unit := .frx, code := 0x20, operand := {} } = .error .badCommand := ⟨rfl, rfl, rfl, rfl⟩

/-! ## A small machine -/

def demoFramer : FramerCfg := { pattern := [0xAA, 0xAA, 0xAA], ckAlg := .crc24, maxPayload := 2 }
def demoFramerNoop : FramerCfg := { demoFramer with ckAlg := .noop }

/-- The tones of vectors V30 to V53. -/
def demoModCfg : ModCfg := { resetModCfg with sps := 4, ease := 0, depth := .d16 }
def demoDemCfg : DemCfg := resetDemCfg

def demo : State where
  presented := []
  frx := Port.after (FrxUnit.fresh demoFramer)
  ftx := Port.after (FtxUnit.fresh demoFramer)
  cks := Port.after (CksUnit.fresh { ckAlg := .crc24 })
  mod := Port.after (ModUnit.fresh demoModCfg)
  gzl := Port.after (GzlUnit.fresh resetGzlCfg)
  dem := Port.after (DemUnit.fresh demoDemCfg)

/-- The packet fields while `AAAAAA 0002 6869 526E1C` (V6) is received: so many length, payload and checksum bits. -/
def hiPacket (len pay ck : Nat) : Packet where
  pre := { bits := bitsOf [0xAA, 0xAA, 0xAA], c := 0 }
  len := { bits := (bitsN 16 2).take len ++ List.replicate (16 - len) false, c := len }
  pay := { bits := (bitsOf [0x68, 0x69]).take pay ++ List.replicate (16 - pay) false, c := pay,
           endBits := if len = 16 then 16 else 0 }
  ckf := { bits := (bitsN 24 0x526E1C).take ck ++ List.replicate (24 - ck) false, c := ck }

def demoFrx (pkt : Packet) : FrxUnit := { cfg := demoFramer, pkt := pkt, payload := [] }
def demoAt (pkt : Packet) : State := demo.setFrx (Port.after (demoFrx pkt))

/-- The fully received packet `AAAAAA 0002 6869` of a `NOOP` framer (V12). -/
def hiNoop : Packet := { hiPacket 16 16 0 with ckf := { bits := [], c := 0 } }

/-- A question about one unit of the state after an operation. -/
def after (i : Instr) (s : State) (question : State → Bool) : Bool :=
  match exec i s with
  | .next t => question t
  | .fault _ => false
  | .refused _ => false

def frxIs (question : FrxUnit → Bool) (t : State) : Bool := (t.frx.built.map question).getD false
def modIs (question : ModUnit → Bool) (t : State) : Bool := (t.mod.built.map question).getD false
def gzlIs (question : GzlUnit → Bool) (t : State) : Bool := (t.gzl.built.map question).getD false
def demIs (question : DemUnit → Bool) (t : State) : Bool := (t.dem.built.map question).getD false

/-- To nine decimals, as the vectors are printed. -/
def nano (x : Rat) : Int := (2 * 1000000000 * x.num + x.den) / (2 * x.den)

/-! ## FRX -/

/-- V6: the 80th `RX_PUSH` emits the record and clears. -/
theorem test_rxPush_emits :
    after (.rxPush false) (demoAt (hiPacket 16 16 23)) (frxIs (fun u =>
      u.payload == [{ len := 2, bytes := [0x68, 0x69] }] && u.pkt == Packet.fresh demoFramer)) = true := by decide +kernel
/-- V14: a wrong checksum bit, and the packet is dropped without a record. -/
theorem test_rxPush_drops :
    after (.rxPush true) (demoAt (hiPacket 16 16 23)) (frxIs (fun u =>
      u.payload == [] && u.pkt == Packet.fresh demoFramer)) = true := by decide +kernel
/-- V18: the tenth byte emits the record. -/
theorem test_rxPushb_emits :
    after (.rxPushb 0x1C) (demoAt (hiPacket 16 16 16)) (frxIs (fun u =>
      u.payload == [{ len := 2, bytes := [0x68, 0x69] }])) = true := by decide +kernel
/-- V18: after the fifth byte the phase is `PAY`, and `PAY.end` is 16. -/
theorem test_rxPushb_length :
    after (.rxPushb 0x02) (demoAt (hiPacket 8 0 0)) (frxIs (fun u =>
      phaseOf u.cfg u.pkt == .pay && u.pkt.pay.endBits == 16)) = true := by decide +kernel
/-- V8. -/
theorem test_rxClear :
    after .rxClear (demoAt (hiPacket 16 5 0)) (frxIs (fun u => u.pkt == Packet.fresh demoFramer)) = true := by decide +kernel
/-- V6: the 80th `PK_PUSH` ends in `DONE`, fulfilled and valid; nothing is emitted. -/
theorem test_pkPush_done :
    after (.pkPush false) (demoAt (hiPacket 16 16 23)) (frxIs (fun u =>
      u.status.phase == 4 && u.status.fulfilled && u.status.valid && u.payload == [])) = true := by decide +kernel
/-- V13: a payload bit past the storage is counted and not stored. -/
theorem test_pkPush_past_storage :
    after (.pkPush true)
      (demoAt { hiPacket 16 16 0 with
        len := { bits := bitsN 16 3, c := 16 }, pay := { bits := bitsOf [0x68, 0x65], c := 16, endBits := 24 } })
      (frxIs (fun u => u.pkt.pay == { bits := bitsOf [0x68, 0x65], c := 17, endBits := 24 })) = true := by decide +kernel

/-! ## FTX and CKS -/

/-- V24, the binary form of the `"hi"` packet. -/
theorem test_txEncode_hi :
    after (.txEncode 2 [0x68, 0x69]) demo (fun t => (t.ftx.built.map (fun u => u.bitsOut == [bitsOf [
      0b10101010, 0b10101010, 0b10101010, 0b00000000, 0b00000010, 0b01101000, 0b01101001, 0b01010010, 0b01101110,
       0b00011100]])).getD false) = true := by decide +kernel
/-- V27: `ERR = 2`, nothing emitted. -/
theorem test_txEncode_capacity :
    after (.txEncode 3 [0x68, 0x65, 0x79]) demo (fun t =>
      t.ftx == { err := .capacity 3, built := some (FtxUnit.fresh demoFramer) }) = true := by decide +kernel
/-- V20. -/
theorem test_ckCalc_a :
    after (.ckCalc 1 [0x61]) demo (fun t =>
      (t.cks.built.map (fun u => u.valueOut == [{ width := 24, value := 0xF25713 }])).getD false) = true := by decide +kernel
/-- V21, the check value of `"123456789"`. -/
theorem test_ckCalc_check :
    checksum .crc24 [0x31, 0x32, 0x33, 0x34, 0x35, 0x36, 0x37, 0x38, 0x39] = 0x21CF02 := by decide +kernel
/-- V21. -/
theorem test_ckVerify :
    after (.ckVerify 0x526E1C 2 [0x68, 0x69]) demo (fun t => (t.cks.built.map (fun u => u.okOut == [true])).getD false)
      = true ∧
    after (.ckVerify 0x526E1D 2 [0x68, 0x69]) demo (fun t => (t.cks.built.map (fun u => u.okOut == [false])).getD false)
      = true := by decide +kernel

/-! ## MOD -/

/-- V35. -/
theorem test_modSym_one :
    after (.modSym true) demo (modIs (fun u => u.obuf.map nano ==
      [0, 707106781, 1000000000, 707106781, 0, -1000000000, 0, 1000000000])) = true := by decide +kernel
theorem test_modSym_zero :
    after (.modSym false) demo (modIs (fun u => u.obuf.map nano ==
      [0, 707106781, 1000000000, 707106781, 0, -707106781, 1000000000, -707106781])) = true := by decide +kernel

/-- The oscillator of V32 and V34 with `EASE = 4`. -/
def easing (osc : Osc) : State :=
  demo.setMod (Port.after { ModUnit.fresh { demoModCfg with ease := 4 } with osc := osc })

def easingOsc : Osc := (ModUnit.fresh { demoModCfg with ease := 4 }).osc

/-- V33: after two steps toward 2000 Hz the frequency is 1500 and the ramp restarts from there. -/
theorem test_oscSetf :
    after (.oscSetf 1000) (easing { easingOsc with freq := 1500, fRamp := { fromValue := 1000, toValue := 2000, k := 2 } })
      (modIs (fun u => u.osc.fRamp == { fromValue := 1500, toValue := 1000, k := 0 } && u.osc.freq == 1500)) = true := by
  decide +kernel
/-- V34. -/
theorem test_oscSeta :
    after (.oscSeta 0) (easing easingOsc)
      (modIs (fun u => u.osc.aRamp == { fromValue := 1, toValue := 0, k := 0 } && u.osc.amp == 1)) = true := by decide +kernel
/-- V32, third step: 1750 Hz, phase `0.6875π` before and `1.125π` after, sample 0.831469612. -/
theorem test_oscStep_ease :
    after .oscStep (easing { easingOsc with
        phase := twoPi64 * (11 / 32), freq := 1500, fRamp := { fromValue := 1000, toValue := 2000, k := 2 } })
      (modIs (fun u => u.osc.freq == 1750 && u.oscOut.map nano == [831469612] && nano u.osc.phase == 3534291735)) = true :=
  by decide +kernel
/-- V30, fourth step: sample -1 at `3π/2`, and the phase wraps. -/
theorem test_oscStep_wraps :
    after .oscStep (demo.setMod (Port.after { ModUnit.fresh { demoModCfg with fCarrier := 2000 } with
        osc := { (ModUnit.fresh { demoModCfg with fCarrier := 2000 }).osc with phase := twoPi64 * (3 / 4) } }))
      (modIs (fun u => u.oscOut.map nano == [-1000000000] && u.osc.phase == 0)) = true := by decide +kernel
/-- V36, `DEPTH = 16`. -/
theorem test_modFlush :
    after .modFlush (demo.setMod (Port.after { ModUnit.fresh demoModCfg with
        obuf := [0, 707106781 / 1000000000, 1, -1] }))
      (modIs (fun u => u.samplesOut == [[.int16 0, .int16 23170, .int16 32767, .int16 (-32767)]] && u.obuf == [])) = true :=
  by decide +kernel
/-- V37: halves away from zero, and the clamp. -/
theorem test_quantise :
    quantise { demoModCfg with depth := .d8 } (1 / 2) = .int8 64 ∧
    quantise { demoModCfg with depth := .d8 } (-1 / 2) = .int8 (-64) ∧
    quantise { demoModCfg with depth := .d8 } (-2) = .int8 (-128) ∧
    quantise demoModCfg (3 / 2) = .int16 32767 := by decide +kernel

/-- Rule R205, `DEPTH` 32f and 64: 1/3 to the nearest binary32 value, 11184811 / 2^25; in binary64 1/4 is itself. -/
theorem test_quantise_floating :
    quantise { demoModCfg with depth := .d32f } (1 / 3) = .float32 (11184811 / 33554432) ∧
    quantise { demoModCfg with depth := .d64 } (1 / 4) = .float64 (1 / 4) := by decide +kernel

/-! ## GZL -/

/-- V39, with the coefficient 0: the sixth sample. -/
theorem test_gzSample :
    after (.gzSample 1) (demo.setGzl (Port.after { gz := { cfg := resetGzlCfg, lanes := [⟨0, 0, -2⟩], n := 5 }, rankOut := [] }))
      (gzlIs (fun u => u.gz.lanes == [⟨0, 3, 0⟩] && u.gz.n == 6)) = true := by decide +kernel
/-- V40: `coeff = √2`, the last sample, to nine decimals. -/
theorem test_gzSample_root_two :
    after (.gzSample (-707106781186547524 / 1000000000000000000))
      (demo.setGzl (Port.after { gz := { (Goertzel.fresh resetGzlCfg) with
        lanes := [⟨coefficient (numOps .reference) 8000 1000, -4, -707106781186547524 / 1000000000000000000⟩], n := 7 }, rankOut := [] }))
      (gzlIs (fun u => u.gz.lanes.map (fun l => (nano l.coeff, nano l.s1, nano l.s2)) ==
        [(1414213562, -5656854249, -4000000000)])) = true := by decide +kernel
/-- V39 and V41, second row: energy 16 on the second frequency, the tie of the others by index. -/
theorem test_gzRank :
    after .gzRank (demo.setGzl (Port.after
        { gz := { cfg := resetGzlCfg, lanes := [⟨0, 0, 0⟩, ⟨0, -4, 0⟩, ⟨0, 0, 0⟩], n := 8 }, rankOut := [] }))
      (gzlIs (fun u => u.rankOut == [{ energy := [0, 16, 0], order := [1, 0, 2], dominant := 1 }] &&
        u.gz.n == 8)) = true := by decide +kernel
/-- V53 and V41, last row. -/
theorem test_gzRank_tie :
    after .gzRank demo (gzlIs (fun u => u.rankOut == [{ energy := [0, 0, 0], order := [0, 1, 2], dominant := 0 }]))
      = true := by decide +kernel
theorem test_gzReset :
    after .gzReset (demo.setGzl (Port.after { gz := { cfg := resetGzlCfg, lanes := [⟨1, 2, 3⟩], n := 5 }, rankOut := [] }))
      (gzlIs (fun u => u.gz.lanes == [⟨1, 0, 0⟩] && u.gz.n == 0)) = true := by decide +kernel

/-! ## DEM -/

/-- V42: the last sample of the first mark window after silence appends 1. -/
theorem test_dmSample_mark :
    after (.dmSample (-1)) (demo.setDem (Port.after { DemUnit.fresh demoDemCfg with wbuf := [0, 1, 0, -1, 0, 1, 0] }))
      (demIs (fun u => u.pack == [true] && u.prev == .mark && u.wbuf == [])) = true := by decide +kernel
/-- V44: silence appends nothing. -/
theorem test_dmSample_silence :
    after (.dmSample 0) (demo.setDem (Port.after { DemUnit.fresh demoDemCfg with
        prev := .mark, wbuf := [0, 0, 0, 0, 0, 0, 0] }))
      (demIs (fun u => u.pack == [] && u.prev == .idle)) = true := by decide +kernel
/-- V46. -/
theorem test_dmFlush :
    after .dmFlush (demo.setDem (Port.after { DemUnit.fresh demoDemCfg with
        pack := [true, false, true, true, false, false, true, false, true, true] }))
      (demIs (fun u => u.bytesOut == [[0xB2]] && u.pack == [true, true])) = true := by decide +kernel
theorem test_dmFlush_seven :
    after .dmFlush (demo.setDem (Port.after { DemUnit.fresh demoDemCfg with
        pack := [true, false, true, true, false, false, true] }))
      (demIs (fun u => u.bytesOut == [[]] && u.pack.length == 7)) = true := by decide +kernel

/-! ## Errors and reset -/

/-- What a step from `demo` with one event presented leads to. -/
def served (e : PortEvent) (s : State) (question : State → Bool) : Bool :=
  match step (s.setPresented [e]) with
  | .next t => question t
  | .fault _ => false
  | .refused _ => false

/-- V50: no pattern, then every command is answered with code 1. -/
theorem test_reset_no_pattern :
    served (.rst (.frx { preNBytes := 0, pattern := [], ckAlg := .crc24, maxPayload := 2 })) demo (fun t =>
      t.frx == { err := .configuration (some 0), built := none } &&
      served (.cmd { unit := .frx, code := 0x10, operand := {} }) t (fun t' =>
        t'.frx == { err := .configuration (some 0), built := none })) = true := by decide +kernel
/-- V50: a new reset with the default pattern. -/
theorem test_reset_default_pattern :
    served (.rst (.frx { preNBytes := 3, pattern := [170, 170, 170], ckAlg := .crc24, maxPayload := 2 }))
      (demo.setFrx { err := .configuration (some 0), built := none })
      (fun t => t.frx == Port.after (FrxUnit.fresh demoFramer)) = true := by decide +kernel
/-- V51: `DEPTH` code 5, and code 1. -/
def depthRequest (code : BitVec 3) : ModCfgIn where
  num := .reference
  easeFn := .reference
  codec := .reference
  fMark := 2000
  fSpace := 3000
  fCarrier := 1000
  fs := 8000
  sps := 4
  ease := 4
  depth := code
  amp := 1
  nosc := 1

theorem test_reset_depth :
    served (.rst (.mod (depthRequest 5))) demo (fun t => t.mod.err.code == 1 && t.mod.built.isNone) = true ∧
    served (.rst (.mod (depthRequest 1))) demo (fun t => t.mod.err.code == 0 && modIs (fun u =>
      u.osc.phase == 0 && u.osc.freq == 1000 && u.osc.amp == 1 && u.osc.fRamp.k == 4 && u.osc.aRamp.k == 4 &&
      u.obuf == []) t) = true := by decide +kernel
/-- V52. -/
theorem test_reserved_command :
    served (.cmd { unit := .frx, code := 0x14, operand := {} }) demo (fun t =>
      t.frx == { err := .badCommand 0x14, built := some (FrxUnit.fresh demoFramer) }) = true := by decide +kernel
def toneRequest (win step : Int) : DemCfgIn where
  num := .reference
  tie := .reference
  fMark := 2000
  fSpace := 3000
  fCarrier := 1000
  fs := 8000
  win := win
  step := step
  cls := false

/-- V53. -/
theorem test_reset_dem :
    served (.rst (.dem (toneRequest 8 8))) demo (demIs (fun u =>
      u.status == { prev := 3, wbufN := 0, packN := 0 })) = true := by decide +kernel
/-- Rule R306: `STEP > WIN` is refused. -/
theorem test_reset_dem_refused :
    step (demo.setPresented [.rst (.dem (toneRequest 8 9))]) = .refused (.refusedConfiguration .dem) := by
  have h : latchDem (toneRequest 8 9) = .refused := by decide +kernel
  simp [step, State.setPresented, resetUnit, h, Built.port, installed]

/-! ## Witnesses: for every obligation with hypotheses, a state and operands that meet them -/

theorem fresh_inv : PacketInv demoFramer (Packet.fresh demoFramer) := Packet.fresh_inv _ (by decide)

theorem locked_inv : PacketInv demoFramer (hiPacket 0 0 0) := by
  constructor <;> first | decide | (unfold zeroFrom; decide)
theorem len_inv : PacketInv demoFramer (hiPacket 15 0 0) := by
  constructor <;> first | decide | (unfold zeroFrom; decide)
theorem pay_inv : PacketInv demoFramer (hiPacket 16 15 0) := by
  constructor <;> first | decide | (unfold zeroFrom; decide)
theorem cks_inv : PacketInv demoFramer (hiPacket 16 16 23) := by
  constructor <;> first | decide | (unfold zeroFrom; decide)
theorem done_inv : PacketInv demoFramer (hiPacket 16 16 24) := by
  constructor <;> first | decide | (unfold zeroFrom; decide)
theorem noop_inv : PacketInv demoFramerNoop hiNoop := by
  constructor <;> first | decide | (unfold zeroFrom; decide)

/-- One packet in each phase, each at the last bit of it. -/
def phasePackets : List Packet :=
  [Packet.fresh demoFramer, hiPacket 15 0 0, hiPacket 16 15 0, hiPacket 16 16 23, hiPacket 16 16 24]

theorem phasePackets_phases :
    phasePackets.map (phaseOf demoFramer) = [.hunt, .len, .pay, .cks, .done] := by decide +kernel

theorem demo_gz_inv : GoertzelInv (Goertzel.fresh resetGzlCfg) := Goertzel.fresh_inv (by decide) (by decide +kernel)
theorem demo_dem_inv : DemInv (DemUnit.fresh demoDemCfg) where
  step := by decide
  threeTone := rfl
  window := by decide
  gzCfg := rfl
  gz := Goertzel.fresh_inv (by decide) (by decide +kernel)
theorem demo_mod_inv : ModInv (ModUnit.fresh demoModCfg) where
  fRamp := by decide
  aRamp := by decide
  phase := fun _ => by decide +kernel
  rate := by decide +kernel

theorem demo_inv : demo.Inv where
  frx := fresh_inv
  ftx := by show 1 ≤ 3 ∧ 3 ≤ 255; decide
  cks := trivial
  mod := demo_mod_inv
  gzl := demo_gz_inv
  dem := demo_dem_inv

/-- What a step from `demo` with one event presented answers is a next state. -/
def stepsOn (e : PortEvent) (s : State) : Bool := served e s (fun _ => true)

theorem stepsOn_next {e : PortEvent} {s : State} (h : stepsOn e s = true) :
    ∃ t, step (s.setPresented [e]) = .next t := by
  unfold stepsOn served at h
  split at h
  · exact ⟨_, ‹_›⟩
  · cases h
  · cases h

theorem witness_PacketPushRoutesOneBit :
    ∀ p ∈ phasePackets, (demoAt p).frx.built = some (demoFrx p) ∧ (demoFrx p).pkt.len.bits.length = 16 := by
  decide +kernel
theorem witness_PhaseAdvancesByFieldCounts :
    ∀ p ∈ phasePackets, (demoAt p).frx.built = some (demoFrx p) ∧ (demoFrx p).Inv := by
  intro p hp
  refine ⟨rfl, ?_⟩
  simp only [phasePackets, List.mem_cons, List.not_mem_nil, or_false] at hp
  rcases hp with rfl | rfl | rfl | rfl | rfl
  · exact fresh_inv
  · exact len_inv
  · exact pay_inv
  · exact cks_inv
  · exact done_inv
/-- One state in which the push fulfils the packet and one in which it does not. -/
theorem witness_DecoderEmitsOrDropsAndClears :
    ((demoAt (hiPacket 16 16 23)).frx.built = some (demoFrx (hiPacket 16 16 23)) ∧
      (demoFrx (hiPacket 16 16 23)).Inv ∧ (pktPush demoFramer (hiPacket 16 16 23) false).isFulfilled = true) ∧
    (demo.frx.built = some (demoFrx (Packet.fresh demoFramer)) ∧ (demoFrx (Packet.fresh demoFramer)).Inv ∧
      (pktPush demoFramer (Packet.fresh demoFramer) false).isFulfilled = false) :=
  ⟨⟨rfl, cks_inv, by decide +kernel⟩, rfl, fresh_inv, by decide +kernel⟩
theorem witness_ByteIsEightPushesFirstBitSeven :
    (demoAt (hiPacket 16 16 23)).frx.built = some (demoFrx (hiPacket 16 16 23)) ∧ (demoFrx (hiPacket 16 16 23)).Inv :=
  ⟨rfl, cks_inv⟩
theorem witness_ClearGivesTheResetFields :
    (demoAt (hiPacket 16 15 0)).frx.built = some (demoFrx (hiPacket 16 15 0)) ∧ (demoFrx (hiPacket 16 15 0)).Inv :=
  ⟨rfl, pay_inv⟩
theorem witness_FulfilledExactlyInPhaseDone : (demoFrx (hiPacket 16 16 24)).Inv ∧ (demoFrx (hiPacket 16 16 23)).Inv :=
  ⟨done_inv, cks_inv⟩
theorem witness_LockLastsTheCountedBits :
    (demoAt (hiPacket 0 0 0)).frx.built = some (demoFrx (hiPacket 0 0 0)) ∧ (demoFrx (hiPacket 0 0 0)).Inv ∧
    preValid demoFramer (hiPacket 0 0 0) = true ∧ (hiPacket 0 0 0).len.c = 0 ∧
    (bitsN 16 1 ++ bitsN 8 0xFF ++ bitsN 24 0).length
      = 16 + 8 * val ((bitsN 16 1 ++ bitsN 8 0xFF ++ bitsN 24 0).take 16) + demoFramer.ckAlg.width :=
  ⟨rfl, locked_inv, by decide +kernel, rfl, by decide +kernel⟩
theorem witness_NoOversizePayloadIsEmitted :
    ∃ t v, (demoAt (hiPacket 16 16 23)).frx.built = some (demoFrx (hiPacket 16 16 23)) ∧
      (demoFrx (hiPacket 16 16 23)).Inv ∧ exec (.rxPush false) (demoAt (hiPacket 16 16 23)) = .next t ∧
      t.frx.built = some v ∧ v.payload = [{ len := 2, bytes := [0x68, 0x69] }] :=
  ⟨_, _, rfl, cks_inv, rfl, rfl, by decide +kernel⟩
theorem witness_SingleBitFlipSoundness :
    (PacketInv demoFramer (hiPacket 16 16 24) ∧ pktValid demoFramer (hiPacket 16 16 24) = true ∧
      15 < (hiPacket 16 16 24).pay.endBits ∧ 23 < demoFramer.ckAlg.width) ∧
    (PacketInv demoFramerNoop hiNoop ∧ pktValid demoFramerNoop hiNoop = true ∧ 15 < hiNoop.pay.endBits) :=
  ⟨⟨done_inv, by decide +kernel, by decide, by decide⟩, noop_inv, by decide +kernel, by decide⟩
theorem witness_StatusShowsCursorsWhole : (demoFrx (hiPacket 16 16 24)).Inv := done_inv

theorem witness_EncoderEmitsTheWirePacket :
    demo.ftx.built = some (FtxUnit.fresh demoFramer) ∧ (Instr.txEncode 2 [0x68, 0x69]).wellFormed = true ∧
    (2 : BitVec 16).toNat ≤ demoFramer.maxPayload.toNat := ⟨rfl, by decide, by decide⟩
/-- Each clause at the boundary. -/
theorem witness_OversizePayloadIsCapacityError :
    demo.ftx.built = some (FtxUnit.fresh demoFramer) ∧ demoFramer.maxPayload.toNat < (3 : BitVec 16).toNat ∧
    (2 : BitVec 16).toNat ≤ demoFramer.maxPayload.toNat := ⟨rfl, by decide, by decide⟩
theorem witness_PacketBitPositions :
    demo.ftx.built = some (FtxUnit.fresh demoFramer) ∧ (Instr.txEncode 0 []).wellFormed = true ∧
    (0 : BitVec 16).toNat ≤ demoFramer.maxPayload.toNat := ⟨rfl, by decide, by decide⟩
theorem witness_EncodedPacketIsReceivedWhole :
    demo.ftx.built = some (FtxUnit.fresh demoFramer) ∧ demo.frx.built = some (FrxUnit.fresh demoFramer) ∧
    (FrxUnit.fresh demoFramer).Inv ∧ (FrxUnit.fresh demoFramer).pkt = Packet.fresh demoFramer ∧
    (∃ b ∈ demoFramer.pattern, b ≠ 0) ∧ (Instr.txEncode 2 [0x68, 0x69]).wellFormed = true ∧
    (2 : BitVec 16).toNat ≤ demoFramer.maxPayload.toNat := ⟨rfl, rfl, fresh_inv, rfl, by decide, by decide, by decide⟩

theorem witness_ChecksumIsTheLoopOnNumbers : demo.cks.built = some (CksUnit.fresh { ckAlg := .crc24 }) := rfl
theorem witness_CrcRegisterNeverLosesABit : (0xFFFFFF : BitVec 25).toNat < 2 ^ 24 := by decide
theorem witness_VerifyTellsEquality : State.reset.cks.built = some (CksUnit.fresh { ckAlg := .noop }) := rfl

theorem witness_SettingATargetStartsARamp : demo.mod.built = some (ModUnit.fresh demoModCfg) := rfl
theorem witness_OscillatorStepOrder : demo.mod.built = some (ModUnit.fresh demoModCfg) := rfl
/-- Clauses at the boundary: `n = EASE` and `n = EASE - 1`, on the linear curve. -/
theorem witness_FrequencyRampRunsItsCurve :
    (easing easingOsc).mod.built = some { ModUnit.fresh { demoModCfg with ease := 4 } with osc := easingOsc } ∧
    1 ≤ 4 ∧ ({ demoModCfg with ease := 4 } : ModCfg).ease ≤ 4 ∧ 3 < ({ demoModCfg with ease := 4 } : ModCfg).ease ∧
    ({ demoModCfg with ease := 4 } : ModCfg).easeFn = .reference := ⟨rfl, by decide, by decide, by decide, rfl⟩
theorem witness_AmplitudeRampRunsItsCurve :
    (easing easingOsc).mod.built = some { ModUnit.fresh { demoModCfg with ease := 4 } with osc := easingOsc } ∧
    1 ≤ 4 ∧ ({ demoModCfg with ease := 4 } : ModCfg).ease ≤ 4 ∧ 3 < ({ demoModCfg with ease := 4 } : ModCfg).ease ∧
    ({ demoModCfg with ease := 4 } : ModCfg).easeFn = .reference := ⟨rfl, by decide, by decide, by decide, rfl⟩
/-- 1000 Hz and amplitude 1, binary64 values, with `EASE` 4; in the same state the ramp of the number system is flat. -/
theorem witness_ZeroHeightRampIsHarmless :
    (easing easingOsc).mod.built = some { ModUnit.fresh { demoModCfg with ease := 4 } with osc := easingOsc } ∧
    demoModCfg.num = .reference ∧ BinaryValue 53 (-1074) 971 easingOsc.freq ∧ BinaryValue 53 (-1074) 971 easingOsc.amp ∧
    ((4 : Nat) : Rat) ≤ (2 ^ 53 - 1) * (2 : Rat) ^ (971 : Int) ∧
    NumOpsZeroHeight (numOps demoModCfg.num) easingOsc.freq 4 := by
  have hf : BinaryValue 53 (-1074) 971 easingOsc.freq :=
    ⟨1000, 0, by decide, by decide, by decide, by simp [easingOsc, ModUnit.fresh, demoModCfg, resetModCfg]⟩
  have he : ((4 : Nat) : Rat) ≤ (2 ^ 53 - 1) * (2 : Rat) ^ (971 : Int) :=
    (by norm_num : ((4 : Nat) : Rat) ≤ 2 ^ 53 - 1).trans
      (le_mul_of_one_le_right (by norm_num) (one_le_zpow₀ (by norm_num) (by decide)))
  exact ⟨rfl, rfl, hf, ⟨1, 0, by decide, by decide, by decide, by simp [easingOsc, ModUnit.fresh, demoModCfg, resetModCfg]⟩,
    he, reference_zeroHeight hf he⟩
theorem witness_SymbolIsCarrierThenTone : demo.mod.built = some (ModUnit.fresh demoModCfg) := rfl
theorem witness_FlushEmitsAndEmptiesTheBuffer : demo.mod.built = some (ModUnit.fresh demoModCfg) := rfl
theorem witness_ModulatorChunkingIsInvisible :
    demo.mod.built = some (ModUnit.fresh demoModCfg) ∧
    ∀ i ∈ [Instr.modSym true, .modFlush, .oscSetf 2000, .modSym false], i.unit = .mod := ⟨rfl, by decide +kernel⟩
/-- The exact number system, with `TWO_PI` and its functions of no account. -/
def exactOps : NumOps where
  add x y := x + y
  sub x y := x - y
  mul x y := x * y
  div x y := x / y
  sin x := x
  cos x := x
  mod2pi x := x
  twoPi := 6
  floor x := ⌊x⌋
  ofInt n := n
  ofRat q := q
  le x y := decide (x ≤ y)

theorem exactOps_exact : NumOpsExact exactOps := ⟨fun _ _ => rfl, fun _ _ => rfl, fun _ _ => rfl⟩

/-- Every depth in the reference number system, which reads as the real numbers do; and, for the floating depths, the
greatest value of each format. -/
theorem witness_QuantiserRoundsAndClamps :
    demoModCfg.codec = .reference ∧ demoModCfg.num = .reference ∧
    ({ demoModCfg with depth := .d8 } : ModCfg).depth = .d8 ∧ demoModCfg.depth = .d16 ∧
    ({ demoModCfg with depth := .d32 } : ModCfg).depth = .d32 ∧
    ({ demoModCfg with depth := .d32f } : ModCfg).depth = .d32f ∧
    ({ demoModCfg with depth := .d64 } : ModCfg).depth = .d64 ∧
    NumOpsReads (numOps demoModCfg.num) (fun x : Sys2Proof.Num => ((x : Rat) : ℝ)) ∧
    (∃ y : Sys2Proof.Num, |y| ≤ (2 ^ 24 - 1) * (2 : Rat) ^ (104 : Int)) ∧
    ∃ y : Sys2Proof.Num, |y| ≤ (2 ^ 53 - 1) * (2 : Rat) ^ (971 : Int) :=
  ⟨rfl, rfl, rfl, rfl, rfl, rfl, rfl, reference_reads, ⟨_, (abs_of_nonneg (by positivity)).le⟩,
    ⟨_, (abs_of_nonneg (by positivity)).le⟩⟩

theorem binary64_ordered : NumOpsOrdered (numOps .reference) where
  total x y := by
    show ratLe x y = true ∨ ratLe y x = true
    rw [ratLe_iff, ratLe_iff]; exact le_total x y
  trans x y z := by
    show ratLe x y = true → ratLe y z = true → ratLe x z = true
    rw [ratLe_iff, ratLe_iff, ratLe_iff]; exact le_trans

theorem witness_AnalyzerSampleStepsEveryLane : demo.gzl.built = some (GzlUnit.fresh resetGzlCfg) := rfl
theorem witness_AnalyzerResetZeroesAccumulators : demo.gzl.built = some (GzlUnit.fresh resetGzlCfg) := rfl
theorem witness_RankingIsSortedByEnergy :
    demo.gzl.built = some (GzlUnit.fresh resetGzlCfg) ∧ 1 ≤ (GzlUnit.fresh resetGzlCfg).gz.lanes.length ∧
    NumOpsOrdered (numOps (GzlUnit.fresh resetGzlCfg).gz.cfg.num) := ⟨rfl, by decide, binary64_ordered⟩
theorem witness_WindowAnalysisForgetsThePast :
    GoertzelInv (Goertzel.fresh resetGzlCfg) ∧ GoertzelInv ((Goertzel.fresh resetGzlCfg).sample 1) ∧
    (Goertzel.fresh resetGzlCfg).cfg = ((Goertzel.fresh resetGzlCfg).sample 1).cfg :=
  ⟨demo_gz_inv, Goertzel.sample_inv demo_gz_inv 1, rfl⟩
theorem witness_EnergyIsSpectralPower :
    NumOpsExact exactOps ∧ (3 / 5 : Rat) * (3 / 5) + (4 / 5) * (4 / 5) = 1 := ⟨exactOps_exact, by norm_num⟩
theorem witness_CommonScalingKeepsTheRanking :
    NumOpsExact exactOps ∧ (∀ x y, exactOps.le x y = true ↔ x ≤ y) ∧ (0 : Rat) < 2 ∧
    ∀ l ∈ (Goertzel.fresh resetGzlCfg).lanes, l.s1 = 0 ∧ l.s2 = 0 :=
  ⟨exactOps_exact, fun _ _ => decide_eq_true_iff, by norm_num, by simp [Goertzel.fresh, resetGzlCfg]⟩

/-- A window that stays unfinished, and one that is finished. -/
theorem witness_DemodulatorSampleSlidesTheWindow :
    demo.dem.built = some (DemUnit.fresh demoDemCfg) ∧ demoDemCfg.tie = .reference ∧
    ((DemUnit.fresh demoDemCfg).wbuf ++ [0]).length ≠ demoDemCfg.win ∧
    (([0, 1, 0, -1, 0, 1, 0] : List Sys2Proof.Num) ++ [-1]).length = demoDemCfg.win := ⟨rfl, rfl, by decide, by decide⟩
theorem witness_EdgeTriggerEmitsOneBitPerEdge :
    demo.dem.built = some (DemUnit.fresh demoDemCfg) ∧ DemInv (DemUnit.fresh demoDemCfg) ∧
    demoDemCfg.step = demoDemCfg.win ∧ (DemUnit.fresh demoDemCfg).wbuf = [] ∧
    ∀ w ∈ ([[0, 0, 0, 0, 0, 0, 0, 0], [0, 1, 0, -1, 0, 1, 0, -1]] : List (List Sys2Proof.Num)),
      w.length = demoDemCfg.win := ⟨rfl, demo_dem_inv, rfl, rfl, by decide +kernel⟩
theorem witness_WindowGridIsAlignedToTheFirstSample :
    demo.dem.built = some (DemUnit.fresh demoDemCfg) ∧ DemInv (DemUnit.fresh demoDemCfg) ∧
    (DemUnit.fresh demoDemCfg).wbuf = [] := ⟨rfl, demo_dem_inv, rfl⟩
theorem witness_FlushPacksWholeBytes : demo.dem.built = some (DemUnit.fresh demoDemCfg) := rfl
theorem witness_DemodulatorChunkingIsInvisible :
    demo.dem.built = some (DemUnit.fresh demoDemCfg) ∧
    ∀ i ∈ [Instr.dmSample 1, .dmFlush, .dmSample 0], i.unit = .dem := ⟨rfl, by decide +kernel⟩

theorem witness_DecodeUndoesEncode : (Instr.ckVerify 0xFFFFFF 1 [0xFF]).wellFormed = true := by decide
theorem witness_DecodedTransactionIsItsEncoding :
    decode { unit := .frx, code := 0x10, operand := { bit := true, byte := 7 } } = .ok (.rxPush true) := rfl
/-- V52 and one listed code: both sides of the equivalence. -/
theorem witness_OnlyListedCodesAreCommands :
    decode { unit := .frx, code := 0x14, operand := {} } = .error .badCommand ∧
    decode { unit := .dem, code := 0x61, operand := {} } = .ok .dmFlush := ⟨rfl, rfl⟩
theorem witness_StepRunsThePresentedOperation :
    (demo.setPresented [.cmd { unit := .frx, code := 0x12, operand := {} }]).presented
      = .cmd { unit := .frx, code := 0x12, operand := {} } :: [] ∧
    decode { unit := .frx, code := 0x12, operand := {} } = .ok .rxClear ∧
    decodeTableWord 8 0x12 = some .rxClear := ⟨rfl, rfl, rfl⟩
theorem witness_SuspensionKeepsTheState : demo.presented = [] := rfl

theorem witness_ReservedCommandChangesNoState :
    ((demo.setPresented [.cmd { unit := .frx, code := 0x14, operand := {} }]).presented
      = [.cmd { unit := .frx, code := 0x14, operand := {} }]) ∧
    ((.frx, 0x14) : UnitName × BitVec 8) ∉ listedCommands ∧
    unitBuilt (demo.setPresented [.cmd { unit := .frx, code := 0x14, operand := {} }]) .frx = true :=
  ⟨rfl, by decide, rfl⟩
theorem witness_UnconstructedUnitAnswersCodeOne :
    (((demo.setFrx { err := .configuration (some 0), built := none }).setPresented
      [.cmd { unit := .frx, code := 0x10, operand := {} }]).presented
        = [.cmd { unit := .frx, code := 0x10, operand := {} }]) ∧
    unitBuilt ((demo.setFrx { err := .configuration (some 0), built := none }).setPresented
      [.cmd { unit := .frx, code := 0x10, operand := {} }]) .frx = false := ⟨rfl, rfl⟩
theorem witness_ErrorChangesNoState :
    ∃ t, exec (.txEncode 3 [0x68, 0x65, 0x79]) demo = .next t ∧ (t.err .ftx).code ≠ 0 :=
  ⟨_, rfl, by decide +kernel⟩
theorem witness_OnlyEncodeCanFail : ∀ u : UnitName, unitBuilt demo u = true := by intro u; cases u <;> rfl
theorem witness_OperationTouchesOnlyItsUnit : ∃ t, exec (.rxPush true) demo = .next t := ⟨_, rfl⟩
theorem witness_OperationsOfDifferentUnitsCommute : (Instr.rxPush true).unit ≠ (Instr.gzSample 1).unit := by decide
theorem witness_NoOperationWritesConfiguration : ∃ t, exec (.modSym true) demo = .next t := ⟨_, rfl⟩
theorem witness_OutputsOnlyGrow : ∃ t, exec .dmFlush demo = .next t := ⟨_, rfl⟩
/-- An operation and a reset. -/
theorem witness_EveryStepKeepsTheInvariant :
    demo.Inv ∧ (∃ t, step (demo.setPresented [.cmd { unit := .dem, code := 0x60, operand := { num := 1 } }]) = .next t) ∧
    (∃ t, step (demo.setPresented [.rst (.dem (toneRequest 8 4))]) = .next t) :=
  ⟨demo_inv, stepsOn_next (by decide +kernel), stepsOn_next (by decide +kernel)⟩

/-- Each clause: no bytes; a value just past a byte; the greatest byte. -/
theorem witness_ResetOfTheFramer :
    ([] : List Rat).length = (0 : BitVec 8).toNat ∧
    (([256] : List Rat).length = (1 : BitVec 8).toNat ∧
      ∃ x ∈ ([256] : List Rat), ¬ ∃ n : Nat, n ≤ 255 ∧ x = (n : Rat)) ∧
    ([255] : List Rat) = [(255 : Byte)].map (fun b => (b.toNat : Rat)) := by
  refine ⟨rfl, ⟨rfl, 256, by simp, ?_⟩, by simp⟩
  rintro ⟨n, hn, h⟩
  have : (256 : Nat) = n := by exact_mod_cast h
  omega
/-- Each clause: depth 5; each supported depth with the least `SPS` and `EASE`; a negative `SPS`. -/
theorem witness_ResetOfTheModulator :
    5 ≤ (depthRequest 5).depth.toNat ∧
    ((∀ d : BitVec 3, d.toNat < 5 → (depthRequest d).depth.toNat < 5) ∧
      (numOps (depthRequest 4).num).le (depthRequest 4).fs (numOps (depthRequest 4).num).zero = false ∧
      0 ≤ ({ depthRequest 4 with sps := 0, ease := 0 } : ModCfgIn).sps ∧
      0 ≤ ({ depthRequest 4 with sps := 0, ease := 0 } : ModCfgIn).ease ∧ (depthRequest 4).nosc = 1) ∧
    ({ depthRequest 4 with sps := -1 } : ModCfgIn).sps < 0 := by decide +kernel
/-- Each clause: a legal window, `STEP` one past `WIN`; a legal analyzer, one without frequencies. -/
theorem witness_ResetOfTheReceiverTones :
    ((numOps (toneRequest 1 1).num).le (toneRequest 1 1).fs (numOps (toneRequest 1 1).num).zero = false ∧ 1 ≤ (toneRequest 1 1).win ∧
      1 ≤ (toneRequest 1 1).step ∧ (toneRequest 1 1).step ≤ (toneRequest 1 1).win ∧ (toneRequest 1 1).cls = false) ∧
    ¬ (toneRequest 8 9).step ≤ (toneRequest 8 9).win ∧
    ((numOps resetGzlCfg.num).le resetGzlCfg.fs (numOps resetGzlCfg.num).zero = false ∧ resetGzlCfg.freqs ≠ []) ∧
    ({ resetGzlCfg with freqs := [] } : GzlCfg).freqs = [] := by decide +kernel
/-- Each clause: no bytes; a value just past a byte; the greatest byte; and CKS. -/
theorem witness_ResetOfEncoderAndChecksum :
    ([] : List Rat).length = (0 : BitVec 8).toNat ∧
    (([256] : List Rat).length = (1 : BitVec 8).toNat ∧ ∃ x ∈ ([256] : List Rat), ¬ ∃ n : Nat, n ≤ 255 ∧ x = (n : Rat)) ∧
    ([255] : List Rat) = [(255 : Byte)].map (fun b => (b.toNat : Rat)) ∧
    (demo.setPresented [.rst (.cks { ckAlg := .noop })]).presented = .rst (.cks { ckAlg := .noop }) :: [] :=
  ⟨witness_ResetOfTheFramer.1, witness_ResetOfTheFramer.2.1, witness_ResetOfTheFramer.2.2, rfl⟩

end Sys2Proof.Machine
end

section
/-! Errors and outputs (`00_scope.md` rules R13, R14 and R77).  Every operation is one `Port.serve` at the port of its own
unit (`exec_eq`), so a claim about all operations is a law of `Port.serve` and a fact about the seventeen functions
served. -/

namespace Sys2Proof.Machine

/-! ## Every operation is served at one port -/

/-- What a unit performs when its port serves an operation. -/
inductive UnitOp where
  | frx (op : FrxUnit → Except ErrReport FrxUnit)
  | ftx (op : FtxUnit → Except ErrReport FtxUnit)
  | cks (op : CksUnit → Except ErrReport CksUnit)
  | mod (op : ModUnit → Except ErrReport ModUnit)
  | gzl (op : GzlUnit → Except ErrReport GzlUnit)
  | dem (op : DemUnit → Except ErrReport DemUnit)

/-- The unit that performs it. -/
def UnitOp.unit : UnitOp → UnitName
  | .frx _ => .frx
  | .ftx _ => .ftx
  | .cks _ => .cks
  | .mod _ => .mod
  | .gzl _ => .gzl
  | .dem _ => .dem

/-- The state after its port has served it. -/
def UnitOp.serve (s : State) : UnitOp → State
  | .frx op => s.setFrx (s.frx.serve op)
  | .ftx op => s.setFtx (s.ftx.serve op)
  | .cks op => s.setCks (s.cks.serve op)
  | .mod op => s.setMod (s.mod.serve op)
  | .gzl op => s.setGzl (s.gzl.serve op)
  | .dem op => s.setDem (s.dem.serve op)

/-- An operation that cannot fail, as `Port.run` serves it. -/
def total {α : Type} (op : α → α) : α → Except ErrReport α := fun u => .ok (op u)

/-- The function that each operation has its unit perform. -/
def unitOp : Instr → UnitOp
  | .rxPush b => .frx (total fun u => decoderPush u b)
  | .rxPushb byte => .frx (total fun u => (receivedBits byte).foldl decoderPush u)
  | .rxClear => .frx (total fun u => { u with pkt := u.pkt.clear })
  | .pkPush b => .frx (total fun u => { u with pkt := pktPush u.cfg u.pkt b })
  | .txEncode len bytes => .ftx (txEncode len bytes)
  | .ckCalc _ bytes => .cks (total fun u =>
      { u with valueOut := u.valueOut ++ [{ width := u.cfg.ckAlg.width, value := checksum u.cfg.ckAlg bytes }] })
  | .ckVerify v _ bytes => .cks (total fun u =>
      { u with okOut := u.okOut ++ [storedValue u.cfg.ckAlg v == checksum u.cfg.ckAlg bytes] })
  | .modSym b => .mod (total (modSym b))
  | .oscSetf f => .mod (total fun u => { u with osc := u.osc.setFreq f })
  | .oscSeta a => .mod (total fun u => { u with osc := u.osc.setAmp a })
  | .oscStep => .mod (total fun u =>
      { u with osc := (u.osc.advance u.cfg).2, oscOut := u.oscOut ++ [(u.osc.advance u.cfg).1] })
  | .modFlush => .mod (total fun u =>
      { u with samplesOut := u.samplesOut ++ [u.obuf.map (quantise u.cfg)], obuf := [] })
  | .gzSample x => .gzl (total fun u => { u with gz := u.gz.sample x })
  | .gzRank => .gzl (total fun u => { u with rankOut := u.rankOut ++ [u.gz.rank] })
  | .gzReset => .gzl (total fun u => { u with gz := u.gz.clear })
  | .dmSample x => .dem (total (dmSample x))
  | .dmFlush => .dem (total dmFlush)

@[simp] theorem unitOp_unit (i : Instr) : (unitOp i).unit = i.unit := by cases i <;> rfl

/-- All that executing an operation does. -/
theorem exec_eq (i : Instr) (s : State) : exec i s = .next ((unitOp i).serve s) := by cases i <;> rfl

theorem exec_eq_next_iff {i : Instr} {s t : State} : exec i s = .next t ↔ (unitOp i).serve s = t := by
  rw [exec_eq, Host.Outcome.next.injEq]

/-! ## An error keeps the units -/

theorem Port.serve_built_of_error {α : Type} {p : Port α} {op : α → Except ErrReport α}
    (h : (p.serve op).err.code ≠ 0) : (p.serve op).built = p.built := by
  rcases p.serve_cases op with ⟨_, hs⟩ | ⟨u, u', _, _, hs⟩ | ⟨u, e, _, _, hs⟩
  · rw [hs]
  · rw [hs] at h
    exact absurd rfl h
  · rw [hs]

theorem SameUnits.refl (s : State) : SameUnits s s := ⟨rfl, rfl, rfl, rfl, rfl, rfl⟩

/-- What was emitted is kept in the units. -/
theorem SameUnits.outputs_eq {s t : State} (h : SameUnits s t) : t.outputs = s.outputs := by
  simp only [State.outputs, h.frx, h.ftx, h.cks, h.mod, h.gzl, h.dem]

theorem UnitOp.sameUnits_of_error {op : UnitOp} {s : State} (h : ((op.serve s).err op.unit).code ≠ 0) :
    SameUnits s (op.serve s) := by
  cases op with
  | frx op => exact { SameUnits.refl s with frx := Port.serve_built_of_error h }
  | ftx op => exact { SameUnits.refl s with ftx := Port.serve_built_of_error h }
  | cks op => exact { SameUnits.refl s with cks := Port.serve_built_of_error h }
  | mod op => exact { SameUnits.refl s with mod := Port.serve_built_of_error h }
  | gzl op => exact { SameUnits.refl s with gzl := Port.serve_built_of_error h }
  | dem op => exact { SameUnits.refl s with dem := Port.serve_built_of_error h }

/-- Settles O46: an operation is served at its own unit's port, and serving with an error keeps the unit there. -/
theorem errorChangesNoState : Obligations.ErrorChangesNoState := by
  intro i s t h he
  obtain rfl := exec_eq_next_iff.1 h
  rw [← unitOp_unit i] at he
  have hsame := UnitOp.sameUnits_of_error he
  exact ⟨hsame, hsame.outputs_eq⟩

/-! ## Operations only append to the output streams -/

/-- A performed operation leaves the records of a stream where they are, and puts any new ones after them. -/
def OnlyAppends {α β : Type} (records : α → List β) (op : α → Except ErrReport α) : Prop :=
  ∀ u u', op u = .ok u' → records u <+: records u'

theorem onlyAppends_total {α β : Type} {records : α → List β} {op : α → α} (h : ∀ u, records u <+: records (op u)) :
    OnlyAppends records (total op) := by
  rintro u _ ⟨⟩
  exact h u

/-- An operation that appends only to a unit's stream does so at its port, where an unconstructed unit has no records. -/
theorem Port.serve_records_prefix {α β : Type} {records : α → List β} {op : α → Except ErrReport α}
    (h : OnlyAppends records op) (p : Port α) :
    (p.built.map records).getD [] <+: ((p.serve op).built.map records).getD [] := by
  rcases p.serve_cases op with ⟨_, hs⟩ | ⟨u, u', hb, ho, hs⟩ | ⟨u, e, _, _, hs⟩
  · rw [hs]
  · rw [hs, hb]
    exact h u u' ho
  · rw [hs]

/-- `OnlyAppends` for every stream of the unit that performs the operation. -/
def UnitOp.Appends : UnitOp → Prop
  | .frx op => OnlyAppends FrxUnit.payload op
  | .ftx op => OnlyAppends FtxUnit.bitsOut op
  | .cks op => OnlyAppends CksUnit.valueOut op ∧ OnlyAppends CksUnit.okOut op
  | .mod op => OnlyAppends ModUnit.samplesOut op ∧ OnlyAppends ModUnit.oscOut op
  | .gzl op => OnlyAppends GzlUnit.rankOut op
  | .dem op => OnlyAppends DemUnit.bytesOut op

theorem Outputs.Begins.refl (a : Outputs) : a.Begins a := by constructor <;> exact List.prefix_rfl

theorem UnitOp.Appends.begins {op : UnitOp} (h : op.Appends) (s : State) : s.outputs.Begins (op.serve s).outputs := by
  have same := Outputs.Begins.refl s.outputs
  cases op with
  | frx op => exact { same with payload := Port.serve_records_prefix h s.frx }
  | ftx op => exact { same with bits := Port.serve_records_prefix h s.ftx }
  | cks op =>
    obtain ⟨hvalue, hok⟩ := h
    exact { same with value := Port.serve_records_prefix hvalue s.cks, ok := Port.serve_records_prefix hok s.cks }
  | mod op =>
    obtain ⟨hsamples, hosc⟩ := h
    exact { same with
      samples := Port.serve_records_prefix hsamples s.mod, oscOut := Port.serve_records_prefix hosc s.mod }
  | gzl op => exact { same with rank := Port.serve_records_prefix h s.gzl }
  | dem op => exact { same with bytes := Port.serve_records_prefix h s.dem }

theorem decoderPush_payload_prefix (u : FrxUnit) (b : Bit) : u.payload <+: (decoderPush u b).payload := by
  unfold decoderPush
  dsimp only
  split
  · dsimp only
    split
    · exact List.prefix_append _ _
    · exact List.prefix_rfl
  · exact List.prefix_rfl

theorem foldl_decoderPush_payload_prefix (bits : List Bit) (u : FrxUnit) :
    u.payload <+: (bits.foldl decoderPush u).payload := by
  induction bits generalizing u with
  | nil => exact List.prefix_rfl
  | cons b bits ih => exact (decoderPush_payload_prefix u b).trans (ih (decoderPush u b))

theorem txEncode_onlyAppends (len : BitVec 16) (bytes : List Byte) :
    OnlyAppends FtxUnit.bitsOut (txEncode len bytes) := by
  intro u u' h
  unfold txEncode at h
  split at h
  · cases h
  · cases h
    exact List.prefix_append _ _

theorem dmSample_bytesOut (x : Num) (u : DemUnit) : (dmSample x u).bytesOut = u.bytesOut := by
  by_cases h : u.wbuf.length + 1 = u.cfg.win
  · rw [dmSample_full u x h, closeWindow]
  · rw [dmSample_partial u x h]

/-- The stream an operation emits to gets its record last; it keeps the others. -/
theorem unitOp_appends (i : Instr) : (unitOp i).Appends := by
  cases i with
  | rxPush b => exact onlyAppends_total fun u => decoderPush_payload_prefix u b
  | rxPushb byte => exact onlyAppends_total (foldl_decoderPush_payload_prefix (receivedBits byte))
  | rxClear | pkPush => exact onlyAppends_total fun _ => List.prefix_rfl
  | txEncode len bytes => exact txEncode_onlyAppends len bytes
  | ckCalc =>
    exact ⟨onlyAppends_total fun _ => List.prefix_append _ _, onlyAppends_total fun _ => List.prefix_rfl⟩
  | ckVerify =>
    exact ⟨onlyAppends_total fun _ => List.prefix_rfl, onlyAppends_total fun _ => List.prefix_append _ _⟩
  | modSym | oscSetf | oscSeta =>
    exact ⟨onlyAppends_total fun _ => List.prefix_rfl, onlyAppends_total fun _ => List.prefix_rfl⟩
  | oscStep =>
    exact ⟨onlyAppends_total fun _ => List.prefix_rfl, onlyAppends_total fun _ => List.prefix_append _ _⟩
  | modFlush =>
    exact ⟨onlyAppends_total fun _ => List.prefix_append _ _, onlyAppends_total fun _ => List.prefix_rfl⟩
  | gzSample | gzReset => exact onlyAppends_total fun _ => List.prefix_rfl
  | gzRank => exact onlyAppends_total fun _ => List.prefix_append _ _
  | dmSample x => exact onlyAppends_total fun u => (dmSample_bytesOut x u).symm ▸ List.prefix_rfl
  | dmFlush => exact onlyAppends_total fun _ => List.prefix_append _ _

/-- Settles O51: an operation is served at its own unit's port, and each of the seventeen only appends to the streams
there. -/
theorem outputsOnlyGrow : Obligations.OutputsOnlyGrow := by
  intro i s t h
  obtain rfl := exec_eq_next_iff.1 h
  exact (unitOp_appends i).begins s

end Sys2Proof.Machine
end

section
/-! State, steps and reset (`10_state.md`, `70_reset_and_hazards.md`).  What a step serves is an operation, a reset or a
rejected transaction; an operation is one `Port.serve` (`exec_eq`), a reset installs what `Built.port` left.  So the
invariant over a step is one law for each of the three, and a fact about each function served or configuration latched. -/

namespace Sys2Proof.Machine

/-! ## What a step serves (rules R82, R90 and R290) -/

theorem step_idle {s : State} (h : s.presented = []) : step s = .next s := by simp only [step, h]

theorem step_rst {s : State} {cfg : UnitCfg} {rest : List PortEvent} (h : s.presented = .rst cfg :: rest) :
    step s = resetUnit cfg (s.setPresented rest) := by simp only [step, h]

theorem step_operation {s : State} {tr : Transaction} {rest : List PortEvent} {i : Instr}
    (h : s.presented = .cmd tr :: rest) (hd : decode tr = .ok i) : step s = exec i (s.setPresented rest) := by
  simp only [step, h, hd]

theorem step_rejected {s : State} {tr : Transaction} {rest : List PortEvent} {e : DecodeError}
    (h : s.presented = .cmd tr :: rest) (hd : decode tr = .error e) :
    step s = rejectTransaction tr e (s.setPresented rest) := by simp only [step, h, hd]

/-- A rejected transaction that is answered at all is answered as a reserved command is. -/
theorem rejectTransaction_eq_next {tr : Transaction} {e : DecodeError} {s t : State}
    (h : rejectTransaction tr e s = .next t) : t = rejectCommand s tr.unit tr.code := by
  cases e with
  | badCommand => exact (Host.Outcome.next.inj h).symm
  | operandMismatch =>
    cases hb : unitBuilt s tr.unit with
    | true => simp [rejectTransaction, hb] at h
    | false => simpa [rejectTransaction, hb] using h.symm

theorem stepTimes_succ {s t : State} (n : Nat) (h : step s = .next t) : stepTimes (n + 1) s = stepTimes n t := by
  simp only [stepTimes, h]

/-! ## The invariant of the machine is that of its six ports -/

section
variable {s : State} (h : s.Inv)
include h

theorem State.Inv.setPresented (l : List PortEvent) : (s.setPresented l).Inv := { h with }
theorem State.Inv.setFrx {p : Port FrxUnit} (hp : p.Inv FrxUnit.Inv) : (s.setFrx p).Inv := { h with frx := hp }
theorem State.Inv.setFtx {p : Port FtxUnit} (hp : p.Inv FtxUnit.Inv) : (s.setFtx p).Inv := { h with ftx := hp }
theorem State.Inv.setCks {p : Port CksUnit} (hp : p.Inv fun _ => True) : (s.setCks p).Inv := { h with cks := hp }
theorem State.Inv.setMod {p : Port ModUnit} (hp : p.Inv ModInv) : (s.setMod p).Inv := { h with mod := hp }
theorem State.Inv.setGzl {p : Port GzlUnit} (hp : p.Inv fun u => GoertzelInv u.gz) : (s.setGzl p).Inv :=
  { h with gzl := hp }
theorem State.Inv.setDem {p : Port DemUnit} (hp : p.Inv DemInv) : (s.setDem p).Inv := { h with dem := hp }

end

/-! ## Operations keep the invariant -/

/-- A performed operation keeps a property of the unit. -/
def Keeps {α : Type} (inv : α → Prop) (op : α → Except ErrReport α) : Prop :=
  ∀ u u', inv u → op u = .ok u' → inv u'

theorem keeps_total {α : Type} {inv : α → Prop} {op : α → α} (h : ∀ u, inv u → inv (op u)) :
    Keeps inv (total op) := by
  rintro u _ hu ⟨⟩
  exact h u hu

/-- `Keeps` for the invariant of the unit that performs the operation. -/
def UnitOp.KeepsInv : UnitOp → Prop
  | .frx op => Keeps FrxUnit.Inv op
  | .ftx op => Keeps FtxUnit.Inv op
  | .cks op => Keeps (fun _ => True) op
  | .mod op => Keeps ModInv op
  | .gzl op => Keeps (fun u => GoertzelInv u.gz) op
  | .dem op => Keeps DemInv op

theorem State.Inv.serve {s : State} {op : UnitOp} (hs : s.Inv) (hop : op.KeepsInv) : (op.serve s).Inv := by
  cases op with
  | frx op => exact hs.setFrx (Port.serve_inv hs.frx hop)
  | ftx op => exact hs.setFtx (Port.serve_inv hs.ftx hop)
  | cks op => exact hs.setCks (Port.serve_inv hs.cks hop)
  | mod op => exact hs.setMod (Port.serve_inv hs.mod hop)
  | gzl op => exact hs.setGzl (Port.serve_inv hs.gzl hop)
  | dem op => exact hs.setDem (Port.serve_inv hs.dem hop)

theorem foldl_decoderPush_inv (bits : List Bit) {u : FrxUnit} (h : u.Inv) : (bits.foldl decoderPush u).Inv := by
  induction bits generalizing u with
  | nil => exact h
  | cons b bits ih => exact ih (decoderPush_inv h b)

theorem FrxUnit.clear_inv {u : FrxUnit} (h : u.Inv) : FrxUnit.Inv { u with pkt := u.pkt.clear } := by
  rw [Packet.clear_eq_fresh h]
  exact Packet.fresh_inv u.cfg h.patternLength

theorem txEncode_cfg {len : BitVec 16} {bytes : List Byte} {u u' : FtxUnit} (h : txEncode len bytes u = .ok u') :
    u'.cfg = u.cfg := by
  unfold txEncode at h
  split at h <;> cases h
  rfl

theorem txEncode_keeps_inv (len : BitVec 16) (bytes : List Byte) : Keeps FtxUnit.Inv (txEncode len bytes) := by
  intro u u' hu h
  rw [FtxUnit.Inv, txEncode_cfg h]
  exact hu

theorem unitOp_keepsInv (i : Instr) : (unitOp i).KeepsInv := by
  cases i with
  | rxPush b => exact keeps_total fun u hu => decoderPush_inv hu b
  | rxPushb byte => exact keeps_total fun u hu => foldl_decoderPush_inv (receivedBits byte) hu
  | rxClear => exact keeps_total fun u hu => FrxUnit.clear_inv hu
  | pkPush b => exact keeps_total fun u hu => pktPush_inv hu b
  | txEncode len bytes => exact txEncode_keeps_inv len bytes
  | ckCalc | ckVerify => exact keeps_total fun _ _ => trivial
  | modSym b => exact keeps_total fun u hu => modSym_inv hu b
  | oscSetf f => exact keeps_total fun u hu => hu.of_osc rfl (Osc.setFreq_inv hu.osc f)
  | oscSeta a => exact keeps_total fun u hu => hu.of_osc rfl (Osc.setAmp_inv hu.osc a)
  | oscStep => exact keeps_total fun u hu => hu.of_osc rfl (Osc.advance_inv hu.osc)
  | modFlush => exact keeps_total fun u hu => hu.of_osc rfl hu.osc
  | gzSample x => exact keeps_total fun u hu => Goertzel.sample_inv hu x
  | gzRank => exact keeps_total fun u hu => hu
  | gzReset => exact keeps_total fun u hu => Goertzel.clear_inv hu
  | dmSample x => exact keeps_total fun u hu => dmSample_inv hu x
  | dmFlush => exact keeps_total fun u hu => dmFlush_inv hu

theorem exec_inv {i : Instr} {s t : State} (hs : s.Inv) (h : exec i s = .next t) : t.Inv := by
  obtain rfl := exec_eq_next_iff.1 h
  exact hs.serve (unitOp_keepsInv i)

theorem rejectCommand_inv {s : State} (hs : s.Inv) (u : UnitName) (code : BitVec 8) :
    (rejectCommand s u code).Inv := by
  cases u with
  | frx => exact hs.setFrx (Port.reject_inv hs.frx)
  | ftx => exact hs.setFtx (Port.reject_inv hs.ftx)
  | cks => exact hs.setCks (Port.reject_inv hs.cks)
  | mod => exact hs.setMod (Port.reject_inv hs.mod)
  | gzl => exact hs.setGzl (Port.reject_inv hs.gzl)
  | dem => exact hs.setDem (Port.reject_inv hs.dem)

/-! ## What latching a configuration leads to (rules R291 and R306) -/

theorem positiveRate_iff {num : Variant} {fs : Num} :
    positiveRate num fs = true ↔ (numOps num).le fs (numOps num).zero = false := by
  simp [positiveRate]

theorem positiveRate_reference {fs : Num} : positiveRate .reference fs = true ↔ (0 : Rat) < fs := by
  rw [positiveRate_iff, reference_zero, reference_le, ← Bool.not_eq_true, ratLe_iff, not_le]

theorem isByteValue_iff {x : Rat} : isByteValue x = true ↔ ∃ n : Nat, n ≤ 255 ∧ x = (n : Rat) := by
  simp only [isByteValue, Bool.and_eq_true, beq_iff_eq, decide_eq_true_eq]
  constructor
  · rintro ⟨⟨hden, hlow⟩, hhigh⟩
    refine ⟨x.num.toNat, by omega, ?_⟩
    rw [← Int.cast_natCast, Int.toNat_of_nonneg hlow]
    exact ((Rat.den_eq_one_iff x).1 hden).symm
  · rintro ⟨n, hn, rfl⟩
    exact ⟨⟨Rat.den_natCast n, by simp⟩, by simpa using hn⟩

theorem latchFramer_of_no_bytes {c : FramerCfgIn} (h : c.preNBytes = 0) : latchFramer c = .error 0 := by
  simp [latchFramer, h]

/-- With `PRE_NBYTES` elements presented, what is checked is every element (rule R262). -/
theorem latchFramer_of_length {c : FramerCfgIn} (hlen : c.pattern.length = c.preNBytes.toNat)
    (hpre : c.preNBytes ≠ 0) :
    latchFramer c = if c.pattern.all isByteValue = true then
      .ok { pattern := c.pattern.map (fun x => BitVec.ofInt 8 x.num), ckAlg := c.ckAlg, maxPayload := c.maxPayload }
    else .error 1 := by
  have hpos : ¬ c.pattern.length = 0 := by
    rw [hlen]
    exact fun h => hpre (BitVec.eq_of_toNat_eq h)
  simp only [latchFramer, ← hlen, List.take_length, if_neg hpos, true_and]

theorem latchFramer_of_bad_element {c : FramerCfgIn} (hlen : c.pattern.length = c.preNBytes.toNat)
    (hpre : c.preNBytes ≠ 0) (hbad : ∃ x ∈ c.pattern, ¬ ∃ n : Nat, n ≤ 255 ∧ x = (n : Rat)) :
    latchFramer c = .error 1 := by
  obtain ⟨x, hx, hbyte⟩ := hbad
  rw [latchFramer_of_length hlen hpre, if_neg]
  exact fun h => hbyte (isByteValue_iff.1 (List.all_eq_true.1 h x hx))

theorem latchFramer_of_bytes {c : FramerCfgIn} {pattern : List Byte} (hlen : c.pattern.length = c.preNBytes.toNat)
    (hpre : c.preNBytes ≠ 0) (hbytes : c.pattern = pattern.map fun b => (b.toNat : Rat)) :
    latchFramer c = .ok { pattern := pattern, ckAlg := c.ckAlg, maxPayload := c.maxPayload } := by
  have hlatched : c.pattern.map (fun x => BitVec.ofInt 8 x.num) = pattern := by simp [hbytes, Function.comp_def]
  rw [latchFramer_of_length hlen hpre, if_pos, hlatched]
  rw [List.all_eq_true, hbytes]
  rintro _ hx
  obtain ⟨b, -, rfl⟩ := List.mem_map.1 hx
  exact isByteValue_iff.2 ⟨b.toNat, by omega, rfl⟩

/-- A latched pattern has 1 to 255 bytes (rule R36). -/
theorem latchFramer_ok {c : FramerCfgIn} {cfg : FramerCfg} (h : latchFramer c = .ok cfg) :
    1 ≤ cfg.pattern.length ∧ cfg.pattern.length ≤ 255 := by
  have hlt := c.preNBytes.isLt
  unfold latchFramer at h
  dsimp only at h
  split at h
  · cases h
  · split at h
    · rename_i hpos hshown
      cases h
      rw [List.length_map, hshown.1]
      omega
    · cases h

/-- The check of `DEPTH` comes first (rule R291). -/
theorem latchMod_of_unsupported {c : ModCfgIn} (h : Depth.ofCode c.depth = none) : latchMod c = .error 6 := by
  simp only [latchMod, h]

theorem latchMod_ok_rate {c : ModCfgIn} {cfg : ModCfg} (h : latchMod c = .ok cfg) :
    positiveRate cfg.num cfg.fs = true := by
  unfold latchMod at h
  split at h
  · cases h
  · split at h
    · rename_i hlegal
      cases h
      exact hlegal.1
    · cases h

theorem latchGzl_ok {c cfg : GzlCfg} (h : latchGzl c = .ok cfg) :
    1 ≤ cfg.freqs.length ∧ positiveRate cfg.num cfg.fs = true := by
  unfold latchGzl at h
  split at h
  · rename_i hlegal
    cases h
    exact hlegal
  · cases h

theorem latchDem_ok {c : DemCfgIn} {cfg : DemCfg} (h : latchDem c = .ok cfg) :
    positiveRate cfg.num cfg.fs = true ∧ (1 ≤ cfg.step ∧ cfg.step ≤ cfg.win) ∧ cfg.cls = false := by
  unfold latchDem at h
  split at h
  · rename_i hlegal
    obtain ⟨hrate, hwin, hstep, hle, hcls⟩ := hlegal
    cases h
    exact ⟨hrate, ⟨by dsimp only; omega, by dsimp only; omega⟩, hcls⟩
  · cases h

/-! ## Fresh units have the invariant -/

theorem FrxUnit.fresh_inv {cfg : FramerCfg} (h : 1 ≤ cfg.pattern.length ∧ cfg.pattern.length ≤ 255) :
    (FrxUnit.fresh cfg).Inv := Packet.fresh_inv cfg h

/-- MOD is reset to finished ramps and phase 0 (rule R55). -/
theorem ModUnit.fresh_inv {cfg : ModCfg} (h : positiveRate cfg.num cfg.fs = true) : ModInv (ModUnit.fresh cfg) where
  fRamp := le_rfl
  aRamp := le_rfl
  phase := by
    intro (hnum : cfg.num = .reference)
    rw [ModUnit.fresh, hnum, reference_zero]
    exact ⟨le_rfl, by rw [twoPi64, Rat.mkRat_eq_div]; norm_num⟩
  rate := h

theorem DemUnit.fresh_inv {cfg : DemCfg} (hrate : positiveRate cfg.num cfg.fs = true)
    (hstep : 1 ≤ cfg.step ∧ cfg.step ≤ cfg.win) (hcls : cfg.cls = false) : DemInv (DemUnit.fresh cfg) where
  step := hstep
  threeTone := hcls
  window := hstep.1.trans hstep.2
  gzCfg := rfl
  gz := Goertzel.fresh_inv (by simp [demGzCfg]) hrate

/-! ## Resets keep the invariant -/

/-- A reset that answers a next state installs a fresh unit, or an unconstructed one that shows code 1. -/
theorem installed_inv {α β : Type} {u : UnitName} {set : Port β → State} {b : Built α} {fresh : α → β}
    {inv : β → Prop} {t : State} (hset : ∀ p : Port β, p.Inv inv → (set p).Inv)
    (hfresh : ∀ cfg, b = .ok cfg → inv (fresh cfg)) (h : installed u set (b.port fresh) = .next t) : t.Inv := by
  cases b with
  | ok cfg =>
    cases h
    exact hset _ (hfresh cfg rfl)
  | error register =>
    cases h
    exact hset _ rfl
  | refused => cases h

theorem resetUnit_inv {cfg : UnitCfg} {s t : State} (hs : s.Inv) (h : resetUnit cfg s = .next t) : t.Inv := by
  cases cfg with
  | frx c => exact installed_inv (fun _ => hs.setFrx) (fun cfg hc => FrxUnit.fresh_inv (latchFramer_ok hc)) h
  | ftx c => exact installed_inv (fun _ => hs.setFtx) (fun cfg hc => latchFramer_ok hc) h
  | cks c =>
    obtain rfl := Host.Outcome.next.inj h
    exact hs.setCks trivial
  | mod c => exact installed_inv (fun _ => hs.setMod) (fun cfg hc => ModUnit.fresh_inv (latchMod_ok_rate hc)) h
  | gzl c =>
    refine installed_inv (fun _ => hs.setGzl) (fun cfg hc => ?_) h
    obtain ⟨hfreqs, hrate⟩ := latchGzl_ok hc
    exact Goertzel.fresh_inv hfreqs hrate
  | dem c =>
    refine installed_inv (fun _ => hs.setDem) (fun cfg hc => ?_) h
    obtain ⟨hrate, hstep, hcls⟩ := latchDem_ok hc
    exact DemUnit.fresh_inv hrate hstep hcls

/-- Settles O52: a step serves nothing, a reset, an operation or a rejected transaction, and each of these keeps the
invariant of the one port it is served at. -/
theorem everyStepKeepsTheInvariant : Obligations.EveryStepKeepsTheInvariant := by
  intro s t hs h
  match hp : s.presented with
  | [] =>
    rw [step_idle hp] at h
    exact Host.Outcome.next.inj h ▸ hs
  | .rst cfg :: rest =>
    rw [step_rst hp] at h
    exact resetUnit_inv (hs.setPresented rest) h
  | .cmd tr :: rest =>
    cases hd : decode tr with
    | ok i =>
      rw [step_operation hp hd] at h
      exact exec_inv (hs.setPresented rest) h
    | error e =>
      rw [step_rejected hp hd] at h
      rw [rejectTransaction_eq_next h]
      exact rejectCommand_inv (hs.setPresented rest) tr.unit tr.code

/-- The model's reset values are those of the six resets (rule R55), with a configuration that each unit accepts. -/
theorem reset_inv : State.reset.Inv where
  frx := FrxUnit.fresh_inv (by decide)
  ftx := show 1 ≤ resetFramerCfg.pattern.length ∧ resetFramerCfg.pattern.length ≤ 255 by decide
  cks := trivial
  mod := ModUnit.fresh_inv (positiveRate_reference.2 (by norm_num [resetModCfg]))
  gzl := Goertzel.fresh_inv (by decide) (positiveRate_reference.2 (by norm_num [resetGzlCfg]))
  dem := DemUnit.fresh_inv (positiveRate_reference.2 (by norm_num [resetDemCfg])) (by decide) rfl

/-- Settles O53: every unit is fresh, in a configuration that latching accepts. -/
theorem invariantAfterReset : Obligations.InvariantAfterReset := reset_inv

/-! ## The phase of FRX under `PK_PUSH` (rules R31, R32 and R139) -/

/-- Rule R31 on the cursors, whose fields have the sizes the invariant says. -/
theorem phaseOf_eq {cfg : FramerCfg} {pkt : Packet} (h : PacketInv cfg pkt) :
    phaseOf cfg pkt =
      if pkt.pre.bits ≠ bitsOf cfg.pattern then .hunt
      else if pkt.len.c < 16 then .len
      else if pkt.pay.c < pkt.pay.endBits then .pay
      else if pkt.ckf.c < cfg.ckAlg.width then .cks
      else .done := by
  simp only [phaseOf, preValid, beq_eq_false_iff_ne, BitSeq.isFulfilled_eq_false, PayField.isFulfilled_eq_false,
    h.lenBits, h.ckfBits]

theorem preValid_iff {cfg : FramerCfg} {pkt : Packet} :
    preValid cfg pkt = true ↔ pkt.pre.bits = bitsOf cfg.pattern := by
  simp [preValid]

theorem phaseOf_locked {cfg : FramerCfg} {pkt : Packet} (h : PacketInv cfg pkt) (hv : preValid cfg pkt = true) :
    phaseOf cfg pkt =
      if pkt.len.c < 16 then .len
      else if pkt.pay.c < pkt.pay.endBits then .pay
      else if pkt.ckf.c < cfg.ckAlg.width then .cks
      else .done := by
  rw [phaseOf_eq h, if_neg (not_not.2 (preValid_iff.1 hv))]

/-! A field is empty until those before it are full (rule R139). -/

theorem PacketInv.ckf_empty {cfg : FramerCfg} {pkt : Packet} (h : PacketInv cfg pkt)
    (hbefore : pkt.len.c < 16 ∨ pkt.pay.c < pkt.pay.endBits) : pkt.ckf.c = 0 := by
  by_contra hne
  obtain ⟨hlen, hpay⟩ := h.ckfBegun (Nat.pos_of_ne_zero hne)
  omega

theorem PacketInv.pay_empty {cfg : FramerCfg} {pkt : Packet} (h : PacketInv cfg pkt) (hlen : pkt.len.c < 16) :
    pkt.pay.endBits = 0 ∧ pkt.pay.c = 0 := by
  have hend := h.payEnd
  have hcursor := h.payCursor
  rw [if_neg (by omega)] at hend
  omega

theorem PacketInv.len_empty {cfg : FramerCfg} {pkt : Packet} (h : PacketInv cfg pkt)
    (hhunt : preValid cfg pkt = false) : pkt.len.c = 0 := by
  by_contra hne
  rw [h.lenBegun (Nat.pos_of_ne_zero hne)] at hhunt
  cases hhunt

/-- Once the payload is complete the checksum is next, and with the no-op there is none. -/
theorem phaseOf_pay_complete {cfg : FramerCfg} {pkt : Packet} (h : PacketInv cfg pkt) (hv : preValid cfg pkt = true)
    (hlen : pkt.len.c = 16) (hpay : pkt.pay.endBits ≤ pkt.pay.c) (hckf : pkt.ckf.c = 0) :
    phaseOf cfg pkt = if 0 < cfg.ckAlg.width then .cks else .done := by
  rw [phaseOf_locked h hv, if_neg (by omega), if_neg (by omega), hckf]

section
variable {cfg : FramerCfg} {pkt : Packet} (h : PacketInv cfg pkt) (b : Bit)
include h

theorem phaseOf_hunt_push (hv : preValid cfg pkt = false)
    (he : pktPush cfg pkt b = { pkt with pre := preShift pkt.pre b }) :
    phaseOf cfg (pktPush cfg pkt b) = if pkt.pre.bits.drop 1 ++ [b] = bitsOf cfg.pattern then .len else .hunt := by
  have hlen := h.len_empty hv
  rw [phaseOf_eq (pktPush_inv h b), he]
  simp only [preShift, List.drop_one, hlen, ite_not, Nat.ofNat_pos, if_true]

theorem phaseOf_len_push (hv : preValid cfg pkt = true) (hl : pkt.len.c < 16)
    (he : pktPush cfg pkt b = pushLen pkt b) :
    phaseOf cfg (pktPush cfg pkt b) =
      if pkt.len.c + 1 < 16 then .len
      else if 0 < (pktPush cfg pkt b).len.value then .pay
      else if 0 < cfg.ckAlg.width then .cks else .done := by
  have hinv := pktPush_inv h b
  have hcursor : (pktPush cfg pkt b).len.c = pkt.len.c + 1 := by
    rw [he, pushLen, BitSeq.push_room pkt.len b (h.lenBits.symm ▸ hl)]
  have hpay : (pktPush cfg pkt b).pay.c = 0 := by
    rw [he, pushLen]
    dsimp only
    split <;> exact (h.pay_empty hl).2
  have hvalid : preValid cfg (pktPush cfg pkt b) = true := by rw [he]; exact hv
  have hckf : (pktPush cfg pkt b).ckf.c = 0 := by rw [he]; exact h.ckf_empty (.inl hl)
  have hend := hinv.payEnd
  rw [hcursor] at hend
  split
  · rw [phaseOf_locked hinv hvalid, if_pos (by omega)]
  · rw [if_pos (by omega)] at hend
    split
    · rw [phaseOf_locked hinv hvalid, if_neg (by omega), if_pos (by omega)]
    · exact phaseOf_pay_complete hinv hvalid (by omega) (by omega) hckf

theorem phaseOf_pay_push (hv : preValid cfg pkt = true) (hl : 16 ≤ pkt.len.c) (hp : pkt.pay.c < pkt.pay.endBits)
    (he : pktPush cfg pkt b = { pkt with pay := pkt.pay.push b }) :
    phaseOf cfg (pktPush cfg pkt b) =
      if pkt.pay.c + 1 < pkt.pay.endBits then .pay else if 0 < cfg.ckAlg.width then .cks else .done := by
  have hinv := pktPush_inv h b
  obtain ⟨hc, hend⟩ : (pktPush cfg pkt b).pay.c = pkt.pay.c + 1 ∧
      (pktPush cfg pkt b).pay.endBits = pkt.pay.endBits := by
    simp [he, PayField.push, Nat.not_le.2 hp]
  have hvalid : preValid cfg (pktPush cfg pkt b) = true := by rw [he]; exact hv
  have hlen : (pktPush cfg pkt b).len.c = pkt.len.c := by rw [he]
  have hckf : (pktPush cfg pkt b).ckf.c = 0 := by rw [he]; exact h.ckf_empty (.inr hp)
  have hle := h.lenCursor
  split
  · rw [phaseOf_locked hinv hvalid, if_neg (by omega), if_pos (by omega)]
  · exact phaseOf_pay_complete hinv hvalid (by omega) (by omega) hckf

theorem phaseOf_cks_push (hv : preValid cfg pkt = true) (hl : 16 ≤ pkt.len.c) (hp : pkt.pay.endBits ≤ pkt.pay.c)
    (hc : pkt.ckf.c < cfg.ckAlg.width) (he : pktPush cfg pkt b = { pkt with ckf := pkt.ckf.push b }) :
    phaseOf cfg (pktPush cfg pkt b) = if pkt.ckf.c + 1 < cfg.ckAlg.width then .cks else .done := by
  have hinv := pktPush_inv h b
  rw [he, BitSeq.push_room pkt.ckf b (h.ckfBits.symm ▸ hc)] at hinv ⊢
  rw [phaseOf_locked hinv hv, if_neg (Nat.not_lt.2 hl), if_neg (Nat.not_lt.2 hp)]

end

theorem exec_pkPush {s : State} {u : FrxUnit} (b : Bit) (hb : s.frx.built = some u) :
    exec (.pkPush b) s = .next (s.setFrx (Port.after { u with pkt := pktPush u.cfg u.pkt b })) := by
  rw [exec, execPkPush, Port.run_built _ _ hb]

/-- Settles O2: in each phase one cursor advances, and the phase after it is read off the cursors. -/
theorem phaseAdvancesByFieldCounts : Obligations.PhaseAdvancesByFieldCounts := by
  intro s u b hb hu
  refine ⟨_, exec_pkPush b hb, rfl, ?_⟩
  have h16 := hu.lenBits
  have hk := hu.ckfBits
  rcases pktPush_cases u.cfg u.pkt b with ⟨hphase, hv, he⟩ | ⟨hphase, hv, hl, he⟩ | ⟨hphase, hv, hl, hp, he⟩ |
    ⟨hphase, hv, hl, hp, hc, he⟩ | ⟨hphase, -, -, -, -, he⟩ <;> simp only [hphase]
  · exact phaseOf_hunt_push hu b hv he
  · exact phaseOf_len_push hu b hv (h16 ▸ hl) he
  · exact phaseOf_pay_push hu b hv (h16 ▸ hl) hp he
  · exact phaseOf_cks_push hu b hv (h16 ▸ hl) hp (hk ▸ hc) he
  · rw [he, hphase]

/-! ## The status port (rule R92) -/

/-- Settles O10: each register is wider than the bound the invariant gives of what it shows. -/
theorem statusShowsCursorsWhole : Obligations.StatusShowsCursorsWhole := by
  intro u hu
  have hvalue : u.pkt.len.value < 2 ^ 16 := hu.lenBits ▸ val_lt u.pkt.len.bits
  have hlen := hu.lenCursor
  have hpay := hu.payCursor
  have hend : u.pkt.pay.endBits < 2 ^ 19 := by
    rw [hu.payEnd]
    split <;> omega
  have hckf : u.pkt.ckf.c ≤ 24 := hu.ckfCursor.trans (by cases u.cfg.ckAlg <;> decide)
  refine ⟨?_, ?_, ?_, ?_, ?_⟩ <;> refine BitVec.toNat_ofNat _ _ |>.trans (Nat.mod_eq_of_lt ?_)
  · omega
  · exact hvalue
  · omega
  · exact hend
  · omega

/-! ## Operations keep the configuration (rules R35 and R80) -/

/-- A performed operation keeps what `f` reads of the unit. -/
def KeepsReading {α β : Type} (f : α → β) (op : α → Except ErrReport α) : Prop := ∀ u u', op u = .ok u' → f u' = f u

theorem keepsReading_total {α β : Type} {f : α → β} {op : α → α} (h : ∀ u, f (op u) = f u) :
    KeepsReading f (total op) := by
  rintro u _ ⟨⟩
  exact h u

/-- Serving neither constructs nor destroys a unit, and keeps of it what the operation keeps. -/
theorem Port.serve_reading {α β : Type} {f : α → β} {op : α → Except ErrReport α} (h : KeepsReading f op) (p : Port α) :
    (p.serve op).built.map f = p.built.map f := by
  rcases p.serve_cases op with ⟨_, hs⟩ | ⟨u, u', hb, ho, hs⟩ | ⟨u, e, _, _, hs⟩
  · rw [hs]
  · rw [hs, hb]
    exact congrArg some (h u u' ho)
  · rw [hs]

/-- `KeepsReading` for the configuration registers of the unit that performs the operation. -/
def UnitOp.KeepsCfg : UnitOp → Prop
  | .frx op => KeepsReading FrxUnit.cfg op
  | .ftx op => KeepsReading FtxUnit.cfg op
  | .cks op => KeepsReading CksUnit.cfg op
  | .mod op => KeepsReading ModUnit.cfg op
  | .gzl op => KeepsReading (fun u => u.gz.cfg) op
  | .dem op => KeepsReading DemUnit.cfg op ∧ KeepsReading (fun u => u.gz.cfg) op

theorem UnitOp.KeepsCfg.configuration_eq {op : UnitOp} (h : op.KeepsCfg) (s : State) :
    (op.serve s).configuration = s.configuration := by
  cases op with
  | frx op => exact congrArg (fun c => { s.configuration with frx := c }) (Port.serve_reading h s.frx)
  | ftx op => exact congrArg (fun c => { s.configuration with ftx := c }) (Port.serve_reading h s.ftx)
  | cks op => exact congrArg (fun c => { s.configuration with cks := c }) (Port.serve_reading h s.cks)
  | mod op => exact congrArg (fun c => { s.configuration with mod := c }) (Port.serve_reading h s.mod)
  | gzl op => exact congrArg (fun c => { s.configuration with gzl := c }) (Port.serve_reading h s.gzl)
  | dem op =>
    obtain ⟨hcfg, hgz⟩ := h
    exact congrArg₂ (fun c g => { s.configuration with dem := c, demGz := g })
      (Port.serve_reading hcfg s.dem) (Port.serve_reading hgz s.dem)

theorem foldl_decoderPush_cfg (bits : List Bit) (u : FrxUnit) : (bits.foldl decoderPush u).cfg = u.cfg := by
  induction bits generalizing u with
  | nil => rfl
  | cons b bits ih => rw [List.foldl_cons, ih, decoderPush_cfg]

theorem dmSample_cfg (x : Num) (u : DemUnit) :
    (dmSample x u).cfg = u.cfg ∧ (dmSample x u).gz.cfg = u.gz.cfg := by
  by_cases h : u.wbuf.length + 1 = u.cfg.win
  · rw [dmSample_full u x h]
    exact ⟨rfl, Goertzel.window_cfg u.gz _⟩
  · rw [dmSample_partial u x h]
    exact ⟨rfl, rfl⟩

theorem unitOp_keepsCfg (i : Instr) : (unitOp i).KeepsCfg := by
  cases i with
  | rxPush b => exact keepsReading_total fun u => decoderPush_cfg u b
  | rxPushb byte => exact keepsReading_total (foldl_decoderPush_cfg (receivedBits byte))
  | txEncode len bytes => exact fun _ _ => txEncode_cfg
  | dmSample x =>
    exact ⟨keepsReading_total fun u => (dmSample_cfg x u).1, keepsReading_total fun u => (dmSample_cfg x u).2⟩
  | dmFlush => exact ⟨keepsReading_total fun _ => rfl, keepsReading_total fun _ => rfl⟩
  | rxClear | pkPush | ckCalc | ckVerify | modSym | oscSetf | oscSeta | oscStep | modFlush | gzSample | gzRank
  | gzReset => exact keepsReading_total fun _ => rfl

/-- Settles O50: an operation is served at its own unit's port, and none of the seventeen writes a configuration
register there. -/
theorem noOperationWritesConfiguration : Obligations.NoOperationWritesConfiguration := by
  intro i s t h
  obtain rfl := exec_eq_next_iff.1 h
  exact (unitOp_keepsCfg i).configuration_eq s

/-! ## What a reset leaves (rules R290, R41 and R268) -/

/-- A reset whose configuration is accepted constructs the fresh unit. -/
@[simp] theorem installed_ok {α β : Type} (u : UnitName) (set : Port β → State) (fresh : α → β) (cfg : α) :
    installed u set ((Built.ok cfg).port fresh) = .next (set (Port.after (fresh cfg))) := rfl

@[simp] theorem installed_error {α β : Type} (u : UnitName) (set : Port β → State) (fresh : α → β) (register : Nat) :
    installed u set ((Built.error register).port fresh) =
      .next (set { err := .configuration (some register), built := none }) := rfl

@[simp] theorem installed_refused {α β : Type} (u : UnitName) (set : Port β → State) (fresh : α → β) :
    installed u set (Built.refused.port fresh) = .refused (.refusedConfiguration u) := rfl

section
variable {s : State} {rest : List PortEvent}

theorem step_rst_frx {c : FramerCfgIn} {cfg : FramerCfg} (hp : s.presented = .rst (.frx c) :: rest)
    (hc : latchFramer c = .ok cfg) : step s = .next ((s.setPresented rest).setFrx (Port.after (FrxUnit.fresh cfg))) := by
  rw [step_rst hp, resetUnit, hc, installed_ok]

theorem step_rst_ftx {c : FramerCfgIn} {cfg : FramerCfg} (hp : s.presented = .rst (.ftx c) :: rest)
    (hc : latchFramer c = .ok cfg) : step s = .next ((s.setPresented rest).setFtx (Port.after (FtxUnit.fresh cfg))) := by
  rw [step_rst hp, resetUnit, hc, installed_ok]

theorem step_rst_cks {c : CksCfg} (hp : s.presented = .rst (.cks c) :: rest) :
    step s = .next ((s.setPresented rest).setCks (Port.after (CksUnit.fresh c))) := by
  rw [step_rst hp, resetUnit, installed_ok]

theorem step_rst_mod {c : ModCfgIn} {cfg : ModCfg} (hp : s.presented = .rst (.mod c) :: rest)
    (hc : latchMod c = .ok cfg) : step s = .next ((s.setPresented rest).setMod (Port.after (ModUnit.fresh cfg))) := by
  rw [step_rst hp, resetUnit, hc, installed_ok]

theorem step_rst_gzl {c cfg : GzlCfg} (hp : s.presented = .rst (.gzl c) :: rest) (hc : latchGzl c = .ok cfg) :
    step s = .next ((s.setPresented rest).setGzl (Port.after (GzlUnit.fresh cfg))) := by
  rw [step_rst hp, resetUnit, hc, installed_ok]

theorem step_rst_dem {c : DemCfgIn} {cfg : DemCfg} (hp : s.presented = .rst (.dem c) :: rest)
    (hc : latchDem c = .ok cfg) : step s = .next ((s.setPresented rest).setDem (Port.after (DemUnit.fresh cfg))) := by
  rw [step_rst hp, resetUnit, hc, installed_ok]

end

/-- Settles O54: the three cases of latching a framer's configuration. -/
theorem resetOfTheFramer : Obligations.ResetOfTheFramer := by
  intro s c rest hp hlen
  refine ⟨fun hpre => ?_, fun hpre hbad => ?_, fun pattern hpre hbytes => ?_⟩
  · rw [step_rst hp, resetUnit, latchFramer_of_no_bytes hpre, installed_error]
  · rw [step_rst hp, resetUnit, latchFramer_of_bad_element hlen hpre hbad, installed_error]
  · exact step_rst_frx hp (latchFramer_of_bytes hlen hpre hbytes)

/-! ### MOD -/

theorem depth_unsupported : ∀ code : BitVec 3, 5 ≤ code.toNat → Depth.ofCode code = none := by decide

theorem depth_supported : ∀ code : BitVec 3, code.toNat < 5 → Depth.ofCode code = some
    (if code = 0 then .d8 else if code = 1 then .d16 else if code = 2 then .d32 else if code = 3 then .d32f
      else .d64) := by decide

/-- With a supported depth, what is checked is what rule R306 refuses. -/
theorem latchMod_legal {c : ModCfgIn} {depth : Depth} (hd : Depth.ofCode c.depth = some depth)
    (hrate : positiveRate c.num c.fs = true) (hsps : 0 ≤ c.sps) (hease : 0 ≤ c.ease) (hnosc : c.nosc = 1) :
    latchMod c = .ok
      { num := c.num, easeFn := c.easeFn, codec := c.codec, fMark := c.fMark, fSpace := c.fSpace,
        fCarrier := c.fCarrier, fs := c.fs, sps := c.sps.toNat, ease := c.ease.toNat, depth := depth, amp := c.amp } := by
  simp only [latchMod, hd, hrate, hsps, hease, hnosc, and_self, if_true]

theorem latchMod_refused {c : ModCfgIn} {depth : Depth} (hd : Depth.ofCode c.depth = some depth)
    (h : ¬ (positiveRate c.num c.fs = true ∧ 0 ≤ c.sps ∧ 0 ≤ c.ease ∧ c.nosc = 1)) : latchMod c = .refused := by
  simp only [latchMod, hd, if_neg h]

/-- Settles O55: the depth is checked first, then what rule R306 refuses. -/
theorem resetOfTheModulator : Obligations.ResetOfTheModulator := by
  intro s c rest hp
  dsimp only
  refine ⟨fun hdepth => ?_, fun hdepth hrate hsps hease hnosc => ?_, fun hdepth hillegal => ?_⟩
  · rw [step_rst hp, resetUnit, latchMod_of_unsupported (depth_unsupported _ hdepth), installed_error]
  · exact step_rst_mod hp (latchMod_legal (depth_supported _ hdepth) (positiveRate_iff.2 hrate) hsps hease hnosc)
  · rw [step_rst hp, resetUnit, latchMod_refused (depth_supported _ hdepth), installed_refused]
    rintro ⟨hrate, hsps, hease, hnosc⟩
    rcases hillegal with h | h | h | h
    · exact Bool.false_ne_true ((positiveRate_iff.1 hrate).symm.trans h)
    · omega
    · omega
    · exact h hnosc

/-! ### DEM and GZL -/

theorem latchDem_legal {c : DemCfgIn} (hrate : positiveRate c.num c.fs = true) (hwin : 1 ≤ c.win) (hstep : 1 ≤ c.step)
    (hle : c.step ≤ c.win) (hcls : c.cls = false) :
    latchDem c = .ok
      { num := c.num, tie := c.tie, fMark := c.fMark, fSpace := c.fSpace, fCarrier := c.fCarrier, fs := c.fs,
        win := c.win.toNat, step := c.step.toNat, cls := false } := by
  simp only [latchDem, hrate, hwin, hstep, hle, hcls, and_self, if_true]

theorem latchDem_refused {c : DemCfgIn}
    (h : ¬ (positiveRate c.num c.fs = true ∧ 1 ≤ c.win ∧ 1 ≤ c.step ∧ c.step ≤ c.win ∧ c.cls = false)) :
    latchDem c = .refused := if_neg h

theorem latchGzl_legal {c : GzlCfg} (hfreqs : c.freqs ≠ []) (hrate : positiveRate c.num c.fs = true) :
    latchGzl c = .ok c := if_pos ⟨List.length_pos_iff.2 hfreqs, hrate⟩

theorem latchGzl_refused {c : GzlCfg} (h : ¬ (positiveRate c.num c.fs = true ∧ c.freqs ≠ [])) :
    latchGzl c = .refused := if_neg fun ⟨hfreqs, hrate⟩ => h ⟨hrate, List.length_pos_iff.1 hfreqs⟩

/-- Settles O56: each of the two units is constructed fresh, or its configuration is refused. -/
theorem resetOfTheReceiverTones : Obligations.ResetOfTheReceiverTones := by
  intro s rest
  dsimp only
  simp only [← positiveRate_iff]
  refine ⟨fun c hp => ⟨fun ⟨hrate, hwin, hstep, hle, hcls⟩ => ?_, fun hillegal => ?_⟩,
    fun c hp => ⟨fun ⟨hrate, hfreqs⟩ => ?_, fun hillegal => ?_⟩⟩
  · exact step_rst_dem hp (latchDem_legal hrate hwin hstep hle hcls)
  · rw [step_rst hp, resetUnit, latchDem_refused hillegal, installed_refused]
  · exact step_rst_gzl hp (latchGzl_legal hfreqs hrate)
  · rw [step_rst hp, resetUnit, latchGzl_refused hillegal, installed_refused]

/-! ### The machine after its six resets -/

/-- The request that latches to `resetFramerCfg` (log entry 4). -/
def resetFramerRequest : FramerCfgIn :=
  { preNBytes := 3, pattern := [170, 170, 170], ckAlg := .noop, maxPayload := 1522 }

def resetModRequest : ModCfgIn where
  num := .reference
  easeFn := .reference
  codec := .reference
  fMark := 2000
  fSpace := 3000
  fCarrier := 1000
  fs := 8000
  sps := 8
  ease := 0
  depth := 4
  amp := 1
  nosc := 1

def resetDemRequest : DemCfgIn where
  num := .reference
  tie := .reference
  fMark := 2000
  fSpace := 3000
  fCarrier := 1000
  fs := 8000
  win := 8
  step := 8
  cls := false

theorem latch_resetFramerRequest : latchFramer resetFramerRequest = .ok resetFramerCfg :=
  latchFramer_of_bytes (pattern := [0xAA, 0xAA, 0xAA]) rfl (by decide) rfl

theorem latch_resetModRequest : latchMod resetModRequest = .ok resetModCfg :=
  latchMod_legal (depth := .d64) rfl (positiveRate_reference.2 (by norm_num [resetModRequest])) (by decide) (by decide)
    rfl

theorem latch_resetGzlCfg : latchGzl resetGzlCfg = .ok resetGzlCfg :=
  latchGzl_legal (by decide) (positiveRate_reference.2 (by norm_num [resetGzlCfg]))

theorem latch_resetDemRequest : latchDem resetDemRequest = .ok resetDemCfg :=
  latchDem_legal (positiveRate_reference.2 (by norm_num [resetDemRequest])) (by decide) (by decide) (by decide) rfl

/-- The six units reset one after another, with the configurations of log entry 4. -/
def resetRequests : List PortEvent :=
  [.rst (.frx resetFramerRequest), .rst (.ftx resetFramerRequest), .rst (.cks resetCksCfg), .rst (.mod resetModRequest),
   .rst (.gzl resetGzlCfg), .rst (.dem resetDemRequest)]

/-- Each of the six resets replaces one port, so that nothing is left of the state before them (rule R290). -/
theorem stepTimes_resetRequests (s : State) : stepTimes 6 (s.setPresented resetRequests) = .next State.reset :=
  (stepTimes_succ 5 (step_rst_frx rfl latch_resetFramerRequest)).trans <|
  (stepTimes_succ 4 (step_rst_ftx rfl latch_resetFramerRequest)).trans <|
  (stepTimes_succ 3 (step_rst_cks rfl)).trans <|
  (stepTimes_succ 2 (step_rst_mod rfl latch_resetModRequest)).trans <|
  (stepTimes_succ 1 (step_rst_gzl rfl latch_resetGzlCfg)).trans <|
  (stepTimes_succ 0 (step_rst_dem rfl latch_resetDemRequest)).trans rfl

/-- Settles O58: the ports by the definitions of the fresh units, in which 0 is the number system's zero, and then the six
resets. -/
theorem stateAfterReset : Obligations.StateAfterReset := by
  unfold Obligations.StateAfterReset
  dsimp only
  rw [← reference_zero]
  refine ⟨rfl, rfl, rfl, rfl, rfl, rfl, rfl, ⟨_, rfl, if_pos ?_⟩, ⟨_, rfl, rfl⟩, ⟨_, rfl, rfl⟩, stepTimes_resetRequests⟩
  decide

end Sys2Proof.Machine
end

section
/-! Units share no state (`20_memory.md` rules R75, R78 and R82).  An operation is one `UnitOp.serve` (`exec_eq`), which
replaces the port of its own unit by a function of that port alone. -/

namespace Sys2Proof.Machine

/-- Settles O43: the first branch of a step. -/
theorem suspensionKeepsTheState : Obligations.SuspensionKeepsTheState := fun _ => step_idle

@[simp] theorem UnitOp.serve_presented (op : UnitOp) (s : State) : (op.serve s).presented = s.presented := by
  cases op <;> rfl

/-- Serving an operation replaces one port, that of its own unit. -/
theorem UnitOp.serve_samePort {op : UnitOp} {u : UnitName} (h : u ≠ op.unit) (s : State) :
    samePort s (op.serve s) u := by
  cases op <;> cases u
  case frx.frx | ftx.ftx | cks.cks | mod.mod | gzl.gzl | dem.dem => exact absurd rfl h
  all_goals rfl

/-- Settles O48: an operation is served at its own unit's port, and serving replaces that port alone. -/
theorem operationTouchesOnlyItsUnit : Obligations.OperationTouchesOnlyItsUnit := by
  intro i s t h
  obtain rfl := exec_eq_next_iff.1 h
  refine ⟨UnitOp.serve_presented _ s, fun u hu => UnitOp.serve_samePort ?_ s⟩
  rwa [unitOp_unit]

/-- The port that one operation reads and replaces is not the port of the other. -/
theorem UnitOp.serve_comm {a b : UnitOp} (h : a.unit ≠ b.unit) (s : State) :
    a.serve (b.serve s) = b.serve (a.serve s) := by
  cases a <;> cases b
  case frx.frx | ftx.ftx | cks.cks | mod.mod | gzl.gzl | dem.dem => exact absurd rfl h
  all_goals rfl

theorem execAll_nil (s : State) : execAll [] s = .next s := rfl

theorem execAll_cons (i : Instr) (l : List Instr) (s : State) :
    execAll (i :: l) s = execAll l ((unitOp i).serve s) := by
  rw [execAll, exec_eq]

/-- Settles O49: each operation is served at its own unit's port, and serving at two different ports commutes. -/
theorem operationsOfDifferentUnitsCommute : Obligations.OperationsOfDifferentUnitsCommute := by
  intro i j s h
  have hcomm : (unitOp i).serve ((unitOp j).serve s) = (unitOp j).serve ((unitOp i).serve s) :=
    UnitOp.serve_comm (by rwa [unitOp_unit, unitOp_unit]) s
  refine ⟨(unitOp j).serve ((unitOp i).serve s), ?_, ?_⟩
  · rw [execAll_cons, execAll_cons, execAll_nil]
  · rw [execAll_cons, execAll_cons, execAll_nil, hcomm]

end Sys2Proof.Machine
end

section
/-! The opcode table (`30_encoding.md` rules R90, R91 and R97).  A row is named by its unit and code, and the pairs of
rule R91 are those of the rows; so a transaction is decoded by assembling the operand of the one row it names, or it
names none and is `BadCommand`. -/

namespace Sys2Proof.Machine

/-! ## Rows -/

theorem code_of_opcodeOf {c : BitVec 8} {o : Opcode} (h : opcodeOf c = some o) : o.code = c := by
  obtain ⟨row, hfind, rfl⟩ := Option.map_eq_some_iff.1 h
  have hcode : row.1 = c := by simpa using List.find?_some hfind
  have hrows : ∀ r ∈ opcodeTable, r.2.code = r.1 := by decide
  rw [hrows row (List.mem_of_find?_eq_some hfind), hcode]

theorem Opcode.eq_of_code_eq {o o' : Opcode} (h : o.code = o'.code) : o = o' := by
  have hrow := (Laws.CodeNamesUnit.ofOpcode o).2
  rw [h, (Laws.CodeNamesUnit.ofOpcode o').2] at hrow
  exact (Option.some.inj hrow).symm

/-- The unit and code columns of rule R91 list the rows of the table and nothing else. -/
theorem mem_listedCommands_iff {u : UnitName} {c : BitVec 8} :
    (u, c) ∈ listedCommands ↔ ∃ o : Opcode, o.unit = u ∧ o.code = c := by
  constructor
  · intro h
    have hrows : ∀ pair ∈ listedCommands, ∃ o ∈ opcodeTable.map Prod.snd, o.unit = pair.1 ∧ o.code = pair.2 := by
      decide
    obtain ⟨o, -, ho⟩ := hrows _ h
    exact ⟨o, ho⟩
  · rintro ⟨o, rfl, rfl⟩
    cases o <;> decide

/-! ## Operands -/

theorem withBytes_of_length {op : Operand} (h : op.bytes.length = op.len.toNat)
    (k : BitVec 16 → List Byte → Instr) : withBytes op k = .ok (k op.len op.bytes) := if_pos h

theorem withBytes_eq_ok {op : Operand} {k : BitVec 16 → List Byte → Instr} {i : Instr}
    (h : withBytes op k = .ok i) : op.bytes.length = op.len.toNat ∧ i = k op.len op.bytes := by
  unfold withBytes at h
  split at h
  · next hlen => exact ⟨hlen, (Except.ok.inj h).symm⟩
  · cases h

theorem withBytes_ne_badCommand (op : Operand) (k : BitVec 16 → List Byte → Instr) :
    withBytes op k ≠ .error .badCommand := by
  unfold withBytes
  split <;> simp

/-- The operand lanes of a well-formed operation, read by its row, are that operation. -/
theorem assemble_operand {i : Instr} (h : i.wellFormed = true) : assemble i.opcode i.operand = .ok i := by
  cases i with
  | txEncode | ckCalc | ckVerify =>
    refine withBytes_of_length ?_ _
    exact beq_iff_eq.1 h
  | _ => rfl

/-- What a row assembles is an operation of that row, with as many bytes as it announces. -/
theorem assemble_eq_ok {o : Opcode} {op : Operand} {i : Instr} (h : assemble o op = .ok i) :
    i.opcode = o ∧ i.wellFormed = true := by
  cases o with
  | txEncode | ckCalc | ckVerify =>
    obtain ⟨hlen, rfl⟩ := withBytes_eq_ok h
    exact ⟨rfl, beq_iff_eq.2 hlen⟩
  | _ =>
    cases h
    exact ⟨rfl, rfl⟩

/-- A row never answers `BadCommand`: its code is listed (rule R270). -/
theorem assemble_ne_badCommand (o : Opcode) (op : Operand) : assemble o op ≠ .error .badCommand := by
  cases o with
  | txEncode | ckCalc | ckVerify => exact withBytes_ne_badCommand op _
  | _ => nofun

/-! ## Decoding -/

theorem decode_row {t : Transaction} {o : Opcode} (hunit : o.unit = t.unit) (hcode : o.code = t.code) :
    decode t = assemble o t.operand := by
  obtain ⟨hu, ho⟩ := Laws.CodeNamesUnit.ofOpcode o
  rw [hcode] at hu ho
  simp only [decode, hu, hunit, ho, if_true]

theorem decode_unlisted {t : Transaction} (h : (t.unit, t.code) ∉ listedCommands) :
    decode t = .error .badCommand := by
  unfold decode
  split
  · next hu =>
    cases ho : opcodeOf t.code with
    | none => rfl
    | some o =>
      have hcode := code_of_opcodeOf ho
      have hunit : o.unit = t.unit := by
        rw [← hcode, (Laws.CodeNamesUnit.ofOpcode o).1] at hu
        exact Option.some.inj hu
      exact absurd (mem_listedCommands_iff.2 ⟨o, hunit, hcode⟩) h
  · rfl

/-- What a transaction that decodes says: the row it names, and what that row assembles. -/
theorem decode_eq_ok {t : Transaction} {i : Instr} (h : decode t = .ok i) :
    i.unit = t.unit ∧ i.opcode.code = t.code ∧ i.wellFormed = true := by
  have hmem : (t.unit, t.code) ∈ listedCommands := by
    by_contra hnot
    rw [decode_unlisted hnot] at h
    cases h
  obtain ⟨o, hunit, hcode⟩ := mem_listedCommands_iff.1 hmem
  rw [decode_row hunit hcode] at h
  obtain ⟨rfl, hwf⟩ := assemble_eq_ok h
  exact ⟨hunit, hcode, hwf⟩

/-- Settles O39: an operation is presented with the unit and code of its row, which reads its operand lanes back. -/
theorem decodeUndoesEncode : Obligations.DecodeUndoesEncode := by
  intro i hwf
  calc decode (encode i) = assemble i.opcode i.operand := decode_row rfl rfl
    _ = .ok i := assemble_operand hwf

/-- Settles O40: the row that was assembled is the operation's own, and a code names one row. -/
theorem decodedTransactionIsItsEncoding : Obligations.DecodedTransactionIsItsEncoding := by
  intro t i h
  obtain ⟨hunit, hcode, hwf⟩ := decode_eq_ok h
  have hsame : { encode i with operand := t.operand } = t := by
    rw [encode, hunit, hcode]
  refine ⟨hwf, hunit, hcode, fun j _ hj => Opcode.eq_of_code_eq ?_, by rw [hsame, h]⟩
  exact Eq.trans hj hcode.symm

/-- Settles O41: a listed pair names a row, which never answers `BadCommand`; an unlisted pair names none. -/
theorem onlyListedCodesAreCommands : Obligations.OnlyListedCodesAreCommands := by
  intro t
  refine ⟨fun h hmem => ?_, decode_unlisted⟩
  obtain ⟨o, hunit, hcode⟩ := mem_listedCommands_iff.1 hmem
  rw [decode_row hunit hcode] at h
  exact assemble_ne_badCommand o t.operand h

/-! ## Table words and steps -/

theorem decodeTableWord_eq_some {nbits w : Nat} {i : Instr} (h : decodeTableWord nbits w = some i) :
    decode (tableTransaction nbits w) = .ok i := by
  unfold decodeTableWord at h
  split at h
  · next hd => rw [hd, Option.some.inj h]
  · cases h

/-- Settles O38: the eight words, evaluated. -/
theorem listedWordsDecode : Obligations.ListedWordsDecode := ⟨rfl, rfl, rfl, rfl, rfl, rfl, rfl, rfl⟩

/-- Settles O42: the operation branch of a step; a table word is presented in front of the queue. -/
theorem stepRunsThePresentedOperation : Obligations.StepRunsThePresentedOperation := by
  refine ⟨fun s t rest i => step_operation, fun s nbits w i h => ?_⟩
  have hstep := step_operation (s := s.withFetchWord nbits w) rfl (decodeTableWord_eq_some h)
  rwa [State.withFetchWord, State.setPresented_twice, State.setPresented_self] at hstep

/-! ## Reserved commands (rules R97, R261 and R268) -/

/-- A reserved command, as what the port of the unit serves. -/
def rejectOp (code : BitVec 8) : UnitName → UnitOp
  | .frx => .frx fun _ => .error (.badCommand code)
  | .ftx => .ftx fun _ => .error (.badCommand code)
  | .cks => .cks fun _ => .error (.badCommand code)
  | .mod => .mod fun _ => .error (.badCommand code)
  | .gzl => .gzl fun _ => .error (.badCommand code)
  | .dem => .dem fun _ => .error (.badCommand code)

@[simp] theorem rejectOp_unit (code : BitVec 8) (u : UnitName) : (rejectOp code u).unit = u := by cases u <;> rfl

theorem rejectCommand_eq (s : State) (u : UnitName) (code : BitVec 8) :
    rejectCommand s u code = (rejectOp code u).serve s := by cases u <;> rfl

theorem Port.reject_err {α : Type} {p : Port α} (h : p.built.isSome = true) (code : BitVec 8) :
    (p.reject code).err = .badCommand code := by
  obtain ⟨u, hu⟩ := Option.isSome_iff_exists.1 h
  rw [p.reject_built code hu]

theorem rejectCommand_err {s : State} {u : UnitName} (h : unitBuilt s u = true) (code : BitVec 8) :
    (rejectCommand s u code).err u = .badCommand code := by
  cases u <;> exact Port.reject_err h code

@[simp] theorem unitBuilt_setPresented (s : State) (l : List PortEvent) (u : UnitName) :
    unitBuilt (s.setPresented l) u = unitBuilt s u := by cases u <;> rfl

/-- The queue is no part of any port. -/
theorem samePort_setPresented (s t : State) (l : List PortEvent) (u : UnitName) :
    samePort (s.setPresented l) t u ↔ samePort s t u := by cases u <;> exact Iff.rfl

theorem SameUnits.of_setPresented {s t : State} {l : List PortEvent} (h : SameUnits (s.setPresented l) t) :
    SameUnits s t := ⟨h.frx, h.ftx, h.cks, h.mod, h.gzl, h.dem⟩

/-- Settles O44: a reserved command is served at the port of its unit, where it is an error. -/
theorem reservedCommandChangesNoState : Obligations.ReservedCommandChangesNoState := by
  intro s tr rest hp hnot hbuilt
  have hstep := step_rejected hp (decode_unlisted hnot)
  rw [rejectTransaction, rejectCommand_eq] at hstep
  have herr : ((rejectOp tr.code tr.unit).serve (s.setPresented rest)).err tr.unit = .badCommand tr.code := by
    rw [← rejectCommand_eq]
    exact rejectCommand_err (by rwa [unitBuilt_setPresented]) tr.code
  have hcode : (((rejectOp tr.code tr.unit).serve (s.setPresented rest)).err tr.unit).code = 3 := by
    rw [herr, ErrReport.code]
  have hsame : SameUnits (s.setPresented rest) ((rejectOp tr.code tr.unit).serve (s.setPresented rest)) :=
    UnitOp.sameUnits_of_error (by rw [rejectOp_unit, hcode]; decide)
  refine ⟨_, hstep, herr, hcode, hsame.of_setPresented, ?_, fun u hu => ?_⟩
  · rw [UnitOp.serve_presented, State.setPresented_presented]
  · exact (samePort_setPresented s _ rest u).1 (UnitOp.serve_samePort (by rwa [rejectOp_unit]) _)

end Sys2Proof.Machine
end

section
/-! The emitted packet (`41_encoder.md` rule R160; `30_encoding.md` rules R93 and R94).  What FTX emits is `packet(B)` of
rule R93, four bit sequences one after another, so the positions of rule R94 are those of the four sequences. -/

namespace Sys2Proof.Machine

/-! ## Positions in a bit sequence (rules R9 and R11) -/

/-- Position `i` of `bits_n(v)`: the most significant bit is at position 0. -/
theorem getElem?_bitsN {n i : Nat} (h : i < n) (v : Nat) : (bitsN n v)[i]? = some (v.testBit (n - 1 - i)) := by
  induction n generalizing i with
  | zero => omega
  | succ n ih =>
    cases i with
    | zero => rfl
    | succ i =>
      rw [bitsN, List.getElem?_cons_succ, ih (by omega)]
      congr 2
      omega

/-- Position `i` of `bitsof(B)`: byte `i / 8`, bit 7 first. -/
theorem getElem?_bitsOf {bytes : List Byte} {i : Nat} (h : i < 8 * bytes.length) :
    (bitsOf bytes)[i]? = some ((bytes.getD (i / 8) 0).getLsbD (7 - i % 8)) := by
  induction bytes generalizing i with
  | nil => simp at h
  | cons b bytes ih =>
    rw [bitsOf_cons]
    rcases Nat.lt_or_ge i 8 with hi | hi
    · rw [List.getElem?_append_left (by simpa using hi), bits8, getElem?_bitsN hi, Nat.div_eq_of_lt hi,
        Nat.mod_eq_of_lt hi]
      rfl
    · obtain ⟨j, rfl⟩ := Nat.exists_eq_add_of_le' hi
      rw [List.length_cons] at h
      rw [List.getElem?_append_right (by simp), length_bits8, Nat.add_sub_cancel, ih (by omega), Nat.add_mod_right,
        Nat.add_div_right j (by decide), List.getD_cons_succ]

/-! ## The packet on the wire (rules R93 and R94) -/

theorem length_wirePacket (cfg : FramerCfg) (bytes : List Byte) :
    (wirePacket cfg bytes).length = 8 * cfg.pattern.length + 16 + 8 * bytes.length + cfg.ckAlg.width := by
  simp only [wirePacket, List.length_append, length_bitsOf, length_bitsN]

section
variable {cfg : FramerCfg} {bytes : List Byte} {i : Nat}

theorem getElem?_wirePacket_preamble (h : i < 8 * cfg.pattern.length) :
    (wirePacket cfg bytes)[i]? = (bitsOf cfg.pattern)[i]? := by
  rw [wirePacket, List.append_assoc, List.append_assoc, List.getElem?_append_left (by rwa [length_bitsOf])]

theorem getElem?_wirePacket_length (h : i < 16) :
    (wirePacket cfg bytes)[8 * cfg.pattern.length + i]? = (bitsN 16 bytes.length)[i]? := by
  rw [wirePacket, List.append_assoc, List.append_assoc, ← length_bitsOf, List.getElem?_append_right (by omega),
    Nat.add_sub_cancel_left, List.getElem?_append_left (by rwa [length_bitsN])]

theorem getElem?_wirePacket_payload (h : i < 8 * bytes.length) :
    (wirePacket cfg bytes)[8 * cfg.pattern.length + 16 + i]? = (bitsOf bytes)[i]? := by
  have hlen : 8 * cfg.pattern.length + 16 = (bitsOf cfg.pattern ++ bitsN 16 bytes.length).length := by
    rw [List.length_append, length_bitsOf, length_bitsN]
  rw [wirePacket, List.append_assoc, hlen, List.getElem?_append_right (by omega), Nat.add_sub_cancel_left,
    List.getElem?_append_left (by rwa [length_bitsOf])]

theorem getElem?_wirePacket_checksum :
    (wirePacket cfg bytes)[8 * cfg.pattern.length + 16 + 8 * bytes.length + i]?
      = (bitsN cfg.ckAlg.width (checksum cfg.ckAlg bytes))[i]? := by
  have hlen : 8 * cfg.pattern.length + 16 + 8 * bytes.length
      = (bitsOf cfg.pattern ++ bitsN 16 bytes.length ++ bitsOf bytes).length := by
    rw [List.length_append, List.length_append, length_bitsOf, length_bitsN, length_bitsOf]
  rw [wirePacket, hlen, List.getElem?_append_right (by omega), Nat.add_sub_cancel_left]

end

/-! ## What `TX_ENCODE` emits (rule R160) -/

/-- A fresh field set to a value holds the value's bits (rule R125). -/
theorem BitSeq.take_setValue_fresh (n v : Nat) : ((BitSeq.fresh n).setValue v).bits.take n = bitsN n v := by
  rw [BitSeq.setValue, BitSeq.fresh_length, List.take_of_length_le (length_bitsN n v).le]

/-- The payload field of the encoder's packet: its bits are written from the start of a storage that has room. -/
theorem encodedPacket_pay {cfg : FramerCfg} {bytes : List Byte} (h : bytes.length ≤ cfg.maxPayload.toNat) :
    (encodedPacket cfg bytes.length bytes).pay.bits = written (bitsOf bytes) (capBits cfg) := by
  have hroom : (bitsOf bytes).length ≤ capBits cfg := by rw [length_bitsOf, capBits]; omega
  have hpush := PayField.foldl_push (bitsOf bytes) [] (capBits cfg) (8 * bytes.length) (by simp) (by simpa using hroom)
  exact congrArg PayField.bits hpush

/-- The emitted bits are `packet(B)`: each field holds its part of it, from its first bit on. -/
theorem packetBits_encodedPacket {cfg : FramerCfg} {bytes : List Byte} (h : bytes.length ≤ cfg.maxPayload.toNat) :
    packetBits cfg bytes.length (encodedPacket cfg bytes.length bytes) = wirePacket cfg bytes := by
  have hpre : (encodedPacket cfg bytes.length bytes).pre.bits.take (preBits cfg) = bitsOf cfg.pattern :=
    List.take_of_length_le (by simp [encodedPacket, preFill, preBits])
  have hlen : (encodedPacket cfg bytes.length bytes).len.bits.take 16 = bitsN 16 bytes.length :=
    BitSeq.take_setValue_fresh 16 _
  have hpay : (encodedPacket cfg bytes.length bytes).pay.bits.take (8 * bytes.length) = bitsOf bytes := by
    rw [encodedPacket_pay h, written, List.take_left' (length_bitsOf bytes)]
  have hckf : (encodedPacket cfg bytes.length bytes).ckf.bits.take cfg.ckAlg.width
      = bitsN cfg.ckAlg.width (checksum cfg.ckAlg bytes) :=
    BitSeq.take_setValue_fresh _ _
  rw [packetBits, hpre, hlen, hpay, hckf, wirePacket]

/-- `TX_ENCODE` of a payload that fits (rule R160). -/
theorem exec_txEncode {s : State} {u : FtxUnit} {len : BitVec 16} {bytes : List Byte} (hb : s.ftx.built = some u)
    (hwf : bytes.length = len.toNat) (hfit : len.toNat ≤ u.cfg.maxPayload.toNat) :
    exec (.txEncode len bytes) s
      = .next (s.setFtx (Port.after { u with bitsOut := u.bitsOut ++ [wirePacket u.cfg bytes] })) := by
  have hop : txEncode len bytes u = .ok { u with bitsOut := u.bitsOut ++ [wirePacket u.cfg bytes] } := by
    rw [txEncode, if_neg (Nat.not_lt.2 hfit), ← hwf, packetBits_encodedPacket (hwf.trans_le hfit)]
  rw [exec_eq, unitOp, UnitOp.serve, Port.serve_ok _ _ hb hop]

/-- Settles O14: the emitted bits are `packet(B)`, and each position of it is one of the field that it falls in. -/
theorem packetBitPositions : Obligations.PacketBitPositions := by
  intro s u len bytes hb hwf hfit
  have hlen : bytes.length = len.toNat := beq_iff_eq.1 hwf
  refine ⟨_, _, wirePacket u.cfg bytes, exec_txEncode hb hlen hfit, rfl, rfl, ?_⟩
  rw [← hlen]
  refine ⟨length_wirePacket u.cfg bytes, fun i hi => ?_, fun i hi => ?_, fun i hi => ?_, fun i hi => ?_⟩
  · rw [getElem?_wirePacket_preamble hi, getElem?_bitsOf hi]
  · rw [getElem?_wirePacket_length hi, getElem?_bitsN hi, hlen, BitVec.getLsbD]
  · rw [getElem?_wirePacket_payload hi, getElem?_bitsOf hi]
  · rw [getElem?_wirePacket_checksum, getElem?_bitsN hi]

end Sys2Proof.Machine
end

section
/-! One packet under pushes and clears (`40_bitsequence_packet.md`; `10_state.md` rules R31 and R55; rules R139 to R150).
From the match on every push advances one cursor, so the bits the packet has taken are counted by its three cursors, and
the first 16 of them say how many it takes. -/

namespace Sys2Proof.Machine

/-! ## Clearing (rules R145, R146 and R148) -/

theorem exec_rxClear {s : State} {u : FrxUnit} (hb : s.frx.built = some u) (hu : u.Inv) :
    exec .rxClear s = .next (s.setFrx (Port.after { u with pkt := Packet.fresh u.cfg })) := by
  rw [exec, execRxClear, Port.run_built _ _ hb, Packet.clear_eq_fresh hu]

/-- Settles O5: a clear gives the fresh packet, and so does a clear of the fresh packet. -/
theorem clearGivesTheResetFields : Obligations.ClearGivesTheResetFields := by
  intro s u hb hu
  have hfirst := exec_rxClear hb hu
  have hsecond := exec_rxClear (s := s.setFrx (Port.after { u with pkt := Packet.fresh u.cfg }))
    (Port.after_built _) (Packet.fresh_inv u.cfg hu.patternLength)
  refine ⟨hfirst, ?_, rfl, Packet.fresh_not_fulfilled u.cfg⟩
  simp only [execAll, hfirst, hsecond]
  rfl

theorem bitsOf_replicate_zero (n : Nat) : bitsOf (List.replicate n 0) = List.replicate (8 * n) false := by
  induction n with
  | zero => rfl
  | succ n ih =>
    rw [List.replicate_succ, bitsOf_cons, ih, Nat.mul_succ, Nat.add_comm, List.replicate_add]
    rfl

theorem zeros_eq_bitsOf_iff (bytes : List Byte) :
    List.replicate (8 * bytes.length) false = bitsOf bytes ↔ ∀ b ∈ bytes, b = 0 := by
  have hinj : Function.Injective bitsOf := Function.LeftInverse.injective bytesOf_bitsOf
  rw [← bitsOf_replicate_zero, hinj.eq_iff, eq_comm, List.eq_replicate_iff, eq_self_iff_true, true_and]

/-- The cleared window matches a pattern of zero bits only. -/
theorem preValid_fresh_iff (cfg : FramerCfg) : preValid cfg (Packet.fresh cfg) = true ↔ ∀ b ∈ cfg.pattern, b = 0 :=
  preValid_iff.trans (zeros_eq_bitsOf_iff cfg.pattern)

/-- Settles O11: the cleared length field is not full, so only the window decides. -/
theorem zeroPatternMatchesTheClearedWindow : Obligations.ZeroPatternMatchesTheClearedWindow := by
  intro cfg
  have hlen : (Packet.fresh cfg).len.isFulfilled = false := (BitSeq.isFulfilled_eq_false _).2 (by simp [Packet.fresh])
  simp only [phaseOf, hlen, if_true, ← preValid_fresh_iff]
  cases preValid cfg (Packet.fresh cfg) <;> rfl

/-! ## What a push does to its field (rules R121, R131 and R133) -/

theorem PayField.push_room (f : PayField) (b : Bit) (h : f.c < f.endBits) :
    f.push b = { f with bits := f.bits.set f.c b, c := f.c + 1 } := by
  rw [PayField.push, if_neg (Nat.not_le.2 h)]
  split
  · rfl
  next hstored => rw [List.set_eq_of_length_le (Nat.not_lt.1 hstored)]

theorem pushLen_room {pkt : Packet} (b : Bit) (h16 : pkt.len.bits.length = 16) (h : pkt.len.c < 16) :
    pushLen pkt b = { pkt with
      len := { bits := pkt.len.bits.set pkt.len.c b, c := pkt.len.c + 1 }
      pay := { pkt.pay with
        endBits := if 16 ≤ pkt.len.c + 1 then 8 * val (pkt.len.bits.set pkt.len.c b) else pkt.pay.endBits } } := by
  simp only [pushLen, BitSeq.push_room pkt.len b (h16.symm ▸ h), BitSeq.isFulfilled_iff, List.length_set, h16,
    BitSeq.value]
  split <;> rfl

/-- Settles O1: in each phase the field the phase names has room for the bit. -/
theorem packetPushRoutesOneBit : Obligations.PacketPushRoutesOneBit := by
  intro s u b hb h16
  rw [exec_pkPush b hb]
  refine congrArg (fun pkt => Host.Outcome.next (s.setFrx (Port.after { u with pkt := pkt }))) ?_
  rcases pktPush_cases u.cfg u.pkt b with ⟨hphase, -, he⟩ | ⟨hphase, -, hl, he⟩ | ⟨hphase, -, -, hp, he⟩ |
    ⟨hphase, -, -, -, hc, he⟩ | ⟨hphase, -, -, -, -, he⟩ <;> simp only [hphase, he]
  · rw [preShift, List.drop_one]
  · rw [pushLen_room b h16 (h16 ▸ hl)]
  · rw [PayField.push_room _ b hp]
  · rw [BitSeq.push_room _ b hc]

/-! ## The end of a packet (rule R140) -/

section
variable {cfg : FramerCfg} {pkt : Packet} (h : PacketInv cfg pkt)
include h

theorem isFulfilled_iff_cursors :
    pkt.isFulfilled = true ↔ 16 ≤ pkt.len.c ∧ pkt.pay.endBits ≤ pkt.pay.c ∧ cfg.ckAlg.width ≤ pkt.ckf.c := by
  rw [Packet.isFulfilled, Bool.and_eq_true, Bool.and_eq_true, BitSeq.isFulfilled_iff, PayField.isFulfilled_iff,
    BitSeq.isFulfilled_iff, h.lenBits, h.ckfBits, and_assoc]

/-- A full length field was begun, so the window matches. -/
theorem phaseOf_eq_done_iff :
    phaseOf cfg pkt = .done ↔ 16 ≤ pkt.len.c ∧ pkt.pay.endBits ≤ pkt.pay.c ∧ cfg.ckAlg.width ≤ pkt.ckf.c := by
  constructor
  · rw [phaseOf_eq h]
    split_ifs with hpre hlen hpay hckf
    · nofun
    · nofun
    · nofun
    · nofun
    · exact fun _ => ⟨by omega, by omega, by omega⟩
  · rintro ⟨hlen, hpay, hckf⟩
    rw [phaseOf_locked h (h.lenBegun (by omega)), if_neg (by omega), if_neg (by omega), if_neg (by omega)]

end

/-- Settles O6: both sides say that the three cursors are at their ends. -/
theorem fulfilledExactlyInPhaseDone : Obligations.FulfilledExactlyInPhaseDone := fun _ hu =>
  ⟨isFulfilled_iff_cursors hu, (isFulfilled_iff_cursors hu).trans (phaseOf_eq_done_iff hu).symm⟩

/-! ## The bits a locked packet has taken (rules R139 and R143) -/

/-- How many bits a packet takes from the match on, when it has taken `taken` so far and its checksum has `k` bits. -/
def lockLength (k : Nat) (taken : List Bit) : Nat := 16 + 8 * val (taken.take 16) + k

/-- No beginning of the bits is as long as it says, but the whole is. -/
theorem lockLength_take_le_iff {k n : Nat} {bits : List Bit} (hlength : bits.length = lockLength k bits)
    (hn : n ≤ bits.length) : lockLength k (bits.take n) ≤ n ↔ n = bits.length := by
  rcases Nat.lt_or_ge n 16 with h | h
  · rw [lockLength] at hlength ⊢
    omega
  · rw [lockLength, List.take_take, Nat.min_eq_left h, ← lockLength, ← hlength]
    omega

/-- The packet has taken `taken` since its window `pre` matched: the cursors count the bits, and the first 16 of them
are in the length field. -/
structure HasTaken (cfg : FramerCfg) (pre : BitSeq) (taken : List Bit) (pkt : Packet) : Prop where
  inv : PacketInv cfg pkt
  locked : preValid cfg pkt = true
  window : pkt.pre = pre
  count : taken.length = pkt.len.c + pkt.pay.c + pkt.ckf.c
  lenBits : pkt.len.bits = written (taken.take 16) 16

theorem hasTaken_nil {cfg : FramerCfg} {pkt : Packet} (h : PacketInv cfg pkt) (hv : preValid cfg pkt = true)
    (hlen : pkt.len.c = 0) : HasTaken cfg pkt.pre [] pkt where
  inv := h
  locked := hv
  window := rfl
  count := by
    have hpay := h.pay_empty (by omega)
    have hckf := h.ckf_empty (.inl (by omega))
    simp only [List.length_nil]
    omega
  lenBits := by
    have hzero := h.lenZero
    rwa [zeroFrom, hlen, h.lenBits] at hzero

section
variable {cfg : FramerCfg} {pre : BitSeq} {taken : List Bit} {pkt : Packet} (h : HasTaken cfg pre taken pkt)
include h

theorem HasTaken.payEnd (hlen : 16 ≤ pkt.len.c) : pkt.pay.endBits = 8 * val (taken.take 16) := by
  have h16 : (taken.take 16).length = 16 := List.length_take_of_le (by have := h.count; omega)
  have hfull : written (taken.take 16) 16 = taken.take 16 := by simp [written, h16]
  rw [h.inv.payEnd, if_pos (Nat.le_antisymm h.inv.lenCursor hlen), BitSeq.value, h.lenBits, hfull]

/-- The packet is done when it has taken as many bits as it takes. -/
theorem HasTaken.done_iff : phaseOf cfg pkt = .done ↔ lockLength cfg.ckAlg.width taken ≤ taken.length := by
  have hcount := h.count
  have hlencursor := h.inv.lenCursor
  have hpaycursor := h.inv.payCursor
  have hckfcursor := h.inv.ckfCursor
  rw [phaseOf_eq_done_iff h.inv, lockLength]
  rcases Nat.lt_or_ge pkt.len.c 16 with hlen | hlen
  · have hpay := h.inv.pay_empty hlen
    have hckf := h.inv.ckf_empty (.inl hlen)
    omega
  · have hend := h.payEnd hlen
    omega

/-- A push before the end is one more bit taken. -/
theorem HasTaken.push (b : Bit) (hroom : phaseOf cfg pkt ≠ .done) :
    HasTaken cfg pre (taken ++ [b]) (pktPush cfg pkt b) := by
  have h16 := h.inv.lenBits
  have hcount := h.count
  have hsucc : (taken ++ [b]).length = taken.length + 1 := List.length_append
  have hkept : 16 ≤ pkt.len.c → pkt.len.bits = written ((taken ++ [b]).take 16) 16 := fun hlen => by
    rw [h.lenBits, List.take_append_of_le_length (by omega)]
  have hinv := pktPush_inv h.inv b
  rcases pktPush_cases cfg pkt b with ⟨-, hv, -⟩ | ⟨-, hv, hl, he⟩ | ⟨-, hv, hl, hp, he⟩ | ⟨-, hv, hl, hp, hc, he⟩ |
    ⟨hphase, -⟩
  · exact absurd h.locked (by simp [hv])
  · have hlen : pkt.len.c < 16 := h16 ▸ hl
    obtain ⟨-, hpay⟩ := h.inv.pay_empty hlen
    have hckf := h.inv.ckf_empty (.inl hlen)
    have hc : taken.length = pkt.len.c := by omega
    rw [he, pushLen_room b h16 hlen] at hinv ⊢
    refine ⟨hinv, hv, h.window, by dsimp only; omega, ?_⟩
    dsimp only
    rw [h.lenBits, List.take_of_length_le (by omega), ← hc, written_set _ _ _ (by omega),
      List.take_of_length_le (by omega)]
  · rw [he, PayField.push_room _ b hp] at hinv ⊢
    exact ⟨hinv, hv, h.window, by dsimp only; omega, hkept (h16 ▸ hl)⟩
  · rw [he, BitSeq.push_room _ b hc] at hinv ⊢
    exact ⟨hinv, hv, h.window, by dsimp only; omega, hkept (h16 ▸ hl)⟩
  · exact absurd hphase hroom

end

/-- Every beginning of the bits that a matched packet takes is taken. -/
theorem hasTaken_take {cfg : FramerCfg} {pkt : Packet} {bits : List Bit}
    (hstart : HasTaken cfg pkt.pre [] pkt) (hlength : bits.length = lockLength cfg.ckAlg.width bits) {n : Nat}
    (hn : n ≤ bits.length) : HasTaken cfg pkt.pre (bits.take n) ((bits.take n).foldl (pktPush cfg) pkt) := by
  induction n with
  | zero => exact hstart
  | succ n ih =>
    have htaken := ih (by omega)
    have hroom : ¬ lockLength cfg.ckAlg.width (bits.take n) ≤ (bits.take n).length := by
      rw [List.length_take_of_le (by omega), lockLength_take_le_iff hlength (by omega)]
      omega
    rw [← List.take_append_getElem (by omega : n < bits.length), List.foldl_append]
    exact htaken.push bits[n] (mt htaken.done_iff.1 hroom)

/-- A run of `PK_PUSH` folds the pushes over the packet (rule R144). -/
theorem execAll_pkFeed (bits : List Bit) {s : State} {u : FrxUnit} (hb : s.frx.built = some u) :
    ∃ t, execAll (pkFeed bits) s = .next t ∧
      t.frx.built = some { u with pkt := bits.foldl (pktPush u.cfg) u.pkt } := by
  induction bits generalizing s u with
  | nil => exact ⟨s, rfl, hb⟩
  | cons b bits ih =>
    have hrest := ih (s := s.setFrx (Port.after { u with pkt := pktPush u.cfg u.pkt b })) (Port.after_built _)
    simpa only [pkFeed, List.map_cons, List.foldl_cons, execAll, exec_pkPush b hb] using hrest

/-- Settles O7: after `n` bits the packet has taken them, and it is done when they are as many as the first 16 say. -/
theorem lockLastsTheCountedBits : Obligations.LockLastsTheCountedBits := by
  intro s u bits hb hu hv hlen hlength n hn
  obtain ⟨t, hrun, hbuilt⟩ := execAll_pkFeed (bits.take n) hb
  have htaken := hasTaken_take (hasTaken_nil hu hv hlen) hlength hn
  refine ⟨t, _, hrun, hbuilt, rfl, htaken.window, rfl, htaken.done_iff.trans ?_⟩
  rw [List.length_take_of_le hn]
  exact lockLength_take_le_iff hlength hn

end Sys2Proof.Machine
end

section
/-! What `TX_ENCODE` answers (`41_encoder.md` rules R160 and R161), and that FRX receives what FTX emits (rule R165).
The window of a cleared FRX first matches at the last preamble bit, unless the pattern is all zeros.  From there on the
packet holds the bits it has taken, field after field, so at its end the fields are those that FTX sent. -/

namespace Sys2Proof.Machine

/-! ## `TX_ENCODE` at its port (rules R93, R160 and R161) -/

/-- Settles O12: `wirePacket` is the four bit sequences in order. -/
theorem encoderEmitsTheWirePacket : Obligations.EncoderEmitsTheWirePacket := by
  intro s u len bytes hb hwf hfit
  have hlen : bytes.length = len.toNat := beq_iff_eq.1 hwf
  rw [exec_txEncode hb hlen hfit, wirePacket, hlen]

/-- `TX_ENCODE` of a payload that does not fit (rule R161). -/
theorem exec_txEncode_oversize {s : State} {u : FtxUnit} {len : BitVec 16} (bytes : List Byte)
    (hb : s.ftx.built = some u) (hover : u.cfg.maxPayload.toNat < len.toNat) :
    exec (.txEncode len bytes) s = .next (s.setFtx { err := .capacity len.toNat, built := some u }) := by
  have hop : txEncode len bytes u = .error (.capacity len.toNat) := if_pos hover
  rw [exec_eq, unitOp, UnitOp.serve, Port.serve_error _ _ hb hop, hb]

/-- `TX_ENCODE` up to `MAX_PAYLOAD`, also of a byte list of another length than announced. -/
theorem exec_txEncode_emits {s : State} {u : FtxUnit} {len : BitVec 16} (bytes : List Byte)
    (hb : s.ftx.built = some u) (hfit : len.toNat ≤ u.cfg.maxPayload.toNat) :
    exec (.txEncode len bytes) s = .next (s.setFtx (Port.after { u with
      bitsOut := u.bitsOut ++ [packetBits u.cfg len.toNat (encodedPacket u.cfg len.toNat bytes)] })) := by
  rw [exec_eq, unitOp, UnitOp.serve, Port.serve_ok _ _ hb (if_neg (Nat.not_lt.2 hfit))]

/-- Settles O13: above `MAX_PAYLOAD` the port shows an error, which keeps the units; up to it one record is emitted,
whatever the bytes. -/
theorem oversizePayloadIsCapacityError : Obligations.OversizePayloadIsCapacityError := by
  intro s u len bytes hb
  refine ⟨fun hover => ?_, fun hfit => ?_⟩
  · have hexec := exec_txEncode_oversize bytes hb hover
    obtain ⟨hsame, hout⟩ := errorChangesNoState _ _ _ hexec (show (2 : Nat) ≠ 0 by decide)
    exact ⟨_, hexec, rfl, rfl, hsame, hout, rfl⟩
  · exact ⟨_, _, _, exec_txEncode_emits bytes hb hfit, rfl, rfl, rfl⟩

/-! ## Hunting from the cleared window (rules R127, R148 and R165) -/

/-- A sequence that spells 0 is all zeros. -/
theorem eq_zeros_of_val_eq_zero {s : List Bit} (h : val s = 0) : s = List.replicate s.length false := by
  have hzeros := bitsN_val (List.replicate s.length false)
  rw [val_zeros, List.length_replicate, ← h, bitsN_val] at hzeros
  exact hzeros

/-- A sequence that begins with zeros and then repeats its own beginning is all zeros: it spells the number `v` that its
first `k` bits spell, and also `v` shifted left past the rest. -/
theorem eq_zeros_of_window_matches {s : List Bit} {k : Nat} (hk : k < s.length)
    (h : List.replicate (s.length - k) false ++ s.take k = s) : s = List.replicate s.length false := by
  have hbegin : val s = val (s.take k) := by
    conv_lhs => rw [← h, val_append, val_zeros, Nat.zero_mul, Nat.zero_add]
  have hshift : val s = val (s.take k) * 2 ^ (s.drop k).length + val (s.drop k) := by
    rw [← val_append, List.take_append_drop]
  have htwo : 2 ≤ 2 ^ (s.drop k).length := Nat.le_self_pow (by rw [List.length_drop]; omega) 2
  have hdouble := Nat.mul_le_mul_left (val (s.take k)) htwo
  exact eq_zeros_of_val_eq_zero (by omega)

/-- The packet of a cleared FRX whose window has been shifted to `window`. -/
def huntingPacket (cfg : FramerCfg) (window : List Bit) : Packet :=
  { Packet.fresh cfg with pre := { bits := window, c := 0 } }

/-- The window of a cleared FRX after the first `k` pattern bits. -/
def huntWindow (cfg : FramerCfg) (k : Nat) : List Bit :=
  List.replicate (preBits cfg - k) false ++ (bitsOf cfg.pattern).take k

theorem huntingPacket_not_fulfilled (cfg : FramerCfg) (window : List Bit) :
    (huntingPacket cfg window).isFulfilled = false := Packet.fresh_not_fulfilled cfg

theorem huntWindow_last (cfg : FramerCfg) : huntWindow cfg (preBits cfg) = bitsOf cfg.pattern := by
  rw [huntWindow, Nat.sub_self, preBits, List.take_of_length_le (length_bitsOf _).le]
  rfl

/-- With the pattern in its window the packet is ready for the length field. -/
theorem huntingPacket_hasTaken {cfg : FramerCfg} (hp : 1 ≤ cfg.pattern.length ∧ cfg.pattern.length ≤ 255) :
    HasTaken cfg { bits := bitsOf cfg.pattern, c := 0 } [] (huntingPacket cfg (bitsOf cfg.pattern)) :=
  hasTaken_nil (pkt := huntingPacket cfg (bitsOf cfg.pattern))
    { Packet.fresh_inv cfg hp with preBits := length_bitsOf _, lenBegun := fun _ => preValid_iff.2 rfl }
    (preValid_iff.2 rfl) rfl

/-- Before the last pattern bit the window does not match, unless the pattern is all zeros. -/
theorem huntWindow_ne_pattern {cfg : FramerCfg} (hnz : ∃ b ∈ cfg.pattern, b ≠ 0) {k : Nat} (hk : k < preBits cfg) :
    huntWindow cfg k ≠ bitsOf cfg.pattern := by
  intro hmatch
  rw [huntWindow, preBits, ← length_bitsOf] at hmatch
  have hzeros := eq_zeros_of_window_matches (by rwa [length_bitsOf]) hmatch
  obtain ⟨b, hmem, hne⟩ := hnz
  rw [length_bitsOf] at hzeros
  exact hne ((zeros_eq_bitsOf_iff cfg.pattern).1 hzeros.symm b hmem)

theorem pktPush_hunt {cfg : FramerCfg} {pkt : Packet} (b : Bit) (h : preValid cfg pkt = false) :
    pktPush cfg pkt b = { pkt with pre := preShift pkt.pre b } := by
  rw [pktPush, phaseOf, if_pos h]

/-- The first pattern bits only move the window. -/
theorem foldl_pktPush_pattern {cfg : FramerCfg} (hnz : ∃ b ∈ cfg.pattern, b ≠ 0) {k : Nat} (hk : k ≤ preBits cfg) :
    ((bitsOf cfg.pattern).take k).foldl (pktPush cfg) (Packet.fresh cfg) = huntingPacket cfg (huntWindow cfg k) := by
  induction k with
  | zero => simp [huntingPacket, huntWindow, Packet.fresh, BitSeq.fresh]
  | succ k ih =>
    have hlen : k < (bitsOf cfg.pattern).length := by rwa [length_bitsOf]
    have hhunt : preValid cfg (huntingPacket cfg (huntWindow cfg k)) = false :=
      beq_eq_false_iff_ne.2 (huntWindow_ne_pattern hnz hk)
    have hroom : preBits cfg - k = preBits cfg - (k + 1) + 1 := by omega
    rw [List.take_succ_eq_append_getElem hlen, List.foldl_append, ih (by omega), List.foldl_cons, List.foldl_nil,
      pktPush_hunt _ hhunt]
    simp only [huntingPacket, huntWindow, preShift, hroom, List.replicate_succ, List.cons_append, List.tail_cons,
      List.append_assoc, List.take_succ_eq_append_getElem hlen]

/-! ## The packet holds what it has taken (rules R139 and R143) -/

/-- The bits in the fields after the window, up to their cursors. -/
def Packet.heldBits (pkt : Packet) : List Bit :=
  pkt.len.bits.take pkt.len.c ++ pkt.pay.bits.take pkt.pay.c ++ pkt.ckf.bits.take pkt.ckf.c

theorem take_succ_set_cursor {bits : List Bit} {c : Nat} (h : c < bits.length) (b : Bit) :
    (bits.set c b).take (c + 1) = bits.take c ++ [b] := by
  rw [List.take_succ_eq_append_getElem (by simpa using h), List.take_set_of_le le_rfl, List.getElem_set_self]

/-- Until it is done, a matched packet with room in its payload storage holds one bit more after each push: the fields
behind the one that takes the bit are empty. -/
theorem heldBits_push {cfg : FramerCfg} {pkt : Packet} (h : PacketInv cfg pkt) (hv : preValid cfg pkt = true)
    (hfit : pkt.pay.endBits ≤ pkt.pay.bits.length) (hroom : phaseOf cfg pkt ≠ .done) (b : Bit) :
    (pktPush cfg pkt b).heldBits = pkt.heldBits ++ [b] := by
  rcases pktPush_cases cfg pkt b with ⟨-, hhunt, -⟩ | ⟨-, -, hl, he⟩ | ⟨-, -, -, hp, he⟩ | ⟨-, -, -, -, hc, he⟩ |
    ⟨hphase, -⟩
  · exact absurd hv (by simp [hhunt])
  · have hlen : pkt.len.c < 16 := h.lenBits ▸ hl
    obtain ⟨-, hpay⟩ := h.pay_empty hlen
    have hckf := h.ckf_empty (.inl hlen)
    rw [he, pushLen_room b h.lenBits hlen]
    simp [Packet.heldBits, hpay, hckf, take_succ_set_cursor hl]
  · have hckf := h.ckf_empty (.inr hp)
    rw [he, PayField.push_room _ b hp]
    simp [Packet.heldBits, hckf, take_succ_set_cursor (hp.trans_le hfit)]
  · rw [he, BitSeq.push_room _ b hc]
    simp [Packet.heldBits, take_succ_set_cursor hc]
  · exact absurd hphase hroom

section
variable {cfg : FramerCfg} {pkt : Packet} {bits : List Bit} (hstart : HasTaken cfg pkt.pre [] pkt)
  (hlength : bits.length = lockLength cfg.ckAlg.width bits)
include hstart hlength

/-- A matched packet is done with the last of the bits that it takes, and not before. -/
theorem phaseOf_foldl_take {n : Nat} (hn : n ≤ bits.length) :
    phaseOf cfg ((bits.take n).foldl (pktPush cfg) pkt) = .done ↔ n = bits.length := by
  rw [(hasTaken_take hstart hlength hn).done_iff, List.length_take_of_le hn, lockLength_take_le_iff hlength hn]

theorem isFulfilled_foldl_take {n : Nat} (hn : n ≤ bits.length) :
    ((bits.take n).foldl (pktPush cfg) pkt).isFulfilled = true ↔ n = bits.length := by
  have hinv := (hasTaken_take hstart hlength hn).inv
  rw [isFulfilled_iff_cursors hinv, ← phaseOf_eq_done_iff hinv, phaseOf_foldl_take hstart hlength hn]

/-- A length that `MAX_PAYLOAD` allows leaves room for the whole payload. -/
theorem payEnd_foldl_take_le (hfit : val (bits.take 16) ≤ cfg.maxPayload.toNat) {n : Nat} (hn : n ≤ bits.length) :
    ((bits.take n).foldl (pktPush cfg) pkt).pay.endBits
      ≤ ((bits.take n).foldl (pktPush cfg) pkt).pay.bits.length := by
  have htaken := hasTaken_take hstart hlength hn
  rw [htaken.inv.payBits, capBits]
  rcases Nat.lt_or_ge ((bits.take n).foldl (pktPush cfg) pkt).len.c 16 with hlen | hlen
  · rw [(htaken.inv.pay_empty hlen).1]
    exact Nat.zero_le _
  · have hcount := htaken.count
    rw [List.length_take_of_le hn] at hcount
    rw [htaken.payEnd hlen, List.take_take, Nat.min_eq_left (by omega)]
    omega

theorem heldBits_foldl_take (hfit : val (bits.take 16) ≤ cfg.maxPayload.toNat) {n : Nat} (hn : n ≤ bits.length) :
    ((bits.take n).foldl (pktPush cfg) pkt).heldBits = bits.take n := by
  induction n with
  | zero =>
    have hcount := hstart.count
    rw [List.length_nil] at hcount
    obtain ⟨hl, hp, hc⟩ : pkt.len.c = 0 ∧ pkt.pay.c = 0 ∧ pkt.ckf.c = 0 := by omega
    simp [Packet.heldBits, hl, hp, hc]
  | succ n ih =>
    have htaken := hasTaken_take hstart hlength (show n ≤ bits.length by omega)
    have hopen := mt (phaseOf_foldl_take hstart hlength (show n ≤ bits.length by omega)).1 (by omega)
    have hroom := payEnd_foldl_take_le hstart hlength hfit (show n ≤ bits.length by omega)
    rw [List.take_succ_eq_append_getElem (show n < bits.length by omega), List.foldl_append, List.foldl_cons,
      List.foldl_nil, heldBits_push htaken.inv htaken.locked hroom hopen, ih (by omega)]

end

/-! ## A run of `RX_PUSH` (rules R103 and R250) -/

theorem exec_rxPush {s : State} {u : FrxUnit} (b : Bit) (hb : s.frx.built = some u) :
    exec (.rxPush b) s = .next (s.setFrx (Port.after (decoderPush u b))) := by
  rw [exec, execRxPush, Port.run_built _ _ hb]

/-- `RX_FEED` of at least one bit is the turns of the Decoder, one after another. -/
theorem execAll_rxFeed {s : State} {u : FrxUnit} {bits : List Bit} (hb : s.frx.built = some u) (hne : bits ≠ []) :
    execAll (rxFeed bits) s = .next (s.setFrx (Port.after (bits.foldl decoderPush u))) := by
  induction bits generalizing s u with
  | nil => exact absurd rfl hne
  | cons b bits ih =>
    simp only [rxFeed, List.map_cons, execAll, exec_rxPush b hb]
    cases bits with
    | nil => rfl
    | cons c rest => exact ih (Port.after_built _) (List.cons_ne_nil c rest)

/-- As long as the packet is not fulfilled, the Decoder's turns are the packet's pushes. -/
theorem foldl_decoderPush_open {u : FrxUnit} {bits : List Bit}
    (h : ∀ n ≤ bits.length, ((bits.take n).foldl (pktPush u.cfg) u.pkt).isFulfilled = false) :
    bits.foldl decoderPush u = { u with pkt := bits.foldl (pktPush u.cfg) u.pkt } := by
  induction bits generalizing u with
  | nil => rfl
  | cons b bits ih =>
    have hfirst : (pktPush u.cfg u.pkt b).isFulfilled = false := h 1 (Nat.le_add_left 1 _)
    have hpush : decoderPush u b = { u with pkt := pktPush u.cfg u.pkt b } := by
      rw [decoderPush, if_neg (by simp [hfirst])]
    rw [List.foldl_cons, hpush]
    exact ih fun n hn => h (n + 1) (Nat.succ_le_succ hn)

theorem decoderPush_valid {u : FrxUnit} {b : Bit} (hu : u.Inv) (hv : pktValid u.cfg (pktPush u.cfg u.pkt b) = true) :
    decoderPush u b = { u with
      pkt := Packet.fresh u.cfg
      payload := u.payload ++
        [{ len := BitVec.ofNat 16 (pktPush u.cfg u.pkt b).len.value, bytes := (pktPush u.cfg u.pkt b).pay.bytes }] } := by
  have hfull : (pktPush u.cfg u.pkt b).isFulfilled = true := by
    rw [pktValid, Bool.and_eq_true, Bool.and_eq_true] at hv
    obtain ⟨⟨hfull, -⟩, -⟩ := hv
    exact hfull
  rw [decoderPush, if_pos hfull, if_pos hv, Packet.clear_eq_fresh (pktPush_inv hu b)]

/-! ## The round trip (rule R165) -/

/-- What follows the preamble on the wire (rule R93). -/
def wireBody (alg : CkAlg) (bytes : List Byte) : List Bit :=
  bitsN 16 bytes.length ++ bitsOf bytes ++ bitsN alg.width (checksum alg bytes)

theorem wirePacket_eq (cfg : FramerCfg) (bytes : List Byte) :
    wirePacket cfg bytes = bitsOf cfg.pattern ++ wireBody cfg.ckAlg bytes := by
  rw [wirePacket, wireBody, List.append_assoc, List.append_assoc, List.append_assoc]

theorem checksum_lt (alg : CkAlg) (bytes : List Byte) : checksum alg bytes < 2 ^ alg.width := by
  cases alg with
  | noop => exact Nat.one_pos
  | crc24 => exact (crc24 bytes).isLt

section
variable {bytes : List Byte} (h16 : bytes.length < 2 ^ 16)
include h16

/-- The first 16 bits spell the length. -/
theorem val_take_wireBody (alg : CkAlg) : val ((wireBody alg bytes).take 16) = bytes.length := by
  rw [wireBody, List.append_assoc, List.take_left' (length_bitsN _ _), val_bitsN h16]

theorem length_wireBody (alg : CkAlg) :
    (wireBody alg bytes).length = lockLength alg.width (wireBody alg bytes) := by
  rw [lockLength, val_take_wireBody h16, wireBody, List.length_append, List.length_append, length_bitsN, length_bitsOf,
    length_bitsN]

/-- A packet that is done and holds the body of a packet on the wire has its length, payload and checksum. -/
theorem fields_of_heldBits {cfg : FramerCfg} {pkt : Packet} (h : PacketInv cfg pkt) (hdone : phaseOf cfg pkt = .done)
    (hheld : pkt.heldBits = wireBody cfg.ckAlg bytes) :
    pkt.len.value = bytes.length ∧ pkt.pay.bytes = bytes ∧ pkt.ckf.value = checksum cfg.ckAlg bytes := by
  obtain ⟨hl, hp, hc⟩ := (phaseOf_eq_done_iff h).1 hdone
  rw [Packet.heldBits, wireBody, List.take_of_length_le (h.lenBits.trans_le hl),
    Nat.le_antisymm h.payCursor hp, List.take_of_length_le (h.ckfBits.trans_le hc)] at hheld
  obtain ⟨hfront, hckf⟩ := List.append_inj' hheld (by rw [h.ckfBits, length_bitsN])
  obtain ⟨hlen, hpay⟩ := List.append_inj hfront (by rw [h.lenBits, length_bitsN])
  refine ⟨?_, ?_, ?_⟩
  · rw [BitSeq.value, hlen, val_bitsN h16]
  · rw [PayField.bytes, hpay, bytesOf_bitsOf]
  · rw [BitSeq.value, hckf, val_bitsN (checksum_lt _ _)]

end

/-- The packet after the whole body is valid, with the payload that was sent. -/
theorem foldl_pktPush_wireBody {cfg : FramerCfg} {pkt : Packet} {bytes : List Byte} (h16 : bytes.length < 2 ^ 16)
    (hstart : HasTaken cfg pkt.pre [] pkt) (hfit : bytes.length ≤ cfg.maxPayload.toNat) :
    let received := (wireBody cfg.ckAlg bytes).foldl (pktPush cfg) pkt
    pktValid cfg received = true ∧ received.len.value = bytes.length ∧ received.pay.bytes = bytes := by
  have hlength := length_wireBody h16 cfg.ckAlg
  have htaken := hasTaken_take hstart hlength le_rfl
  have hdone := (phaseOf_foldl_take hstart hlength le_rfl).2 rfl
  have hfull := (isFulfilled_foldl_take hstart hlength le_rfl).2 rfl
  have hheld := heldBits_foldl_take hstart hlength ((val_take_wireBody h16 _).trans_le hfit) le_rfl
  rw [List.take_length] at htaken hdone hfull hheld
  obtain ⟨hlen, hpay, hckf⟩ := fields_of_heldBits h16 htaken.inv hdone hheld
  refine ⟨?_, hlen, hpay⟩
  rw [pktValid, hfull, hlen, hpay, ckfVerify, hckf, decide_eq_true hfit, beq_self_eq_true]
  rfl

/-- The Decoder's turns over the bits after the match: the last one emits the payload and clears. -/
theorem foldl_decoderPush_wireBody {u : FrxUnit} {bytes : List Byte} (h16 : bytes.length < 2 ^ 16)
    (hstart : HasTaken u.cfg u.pkt.pre [] u.pkt) (hfit : bytes.length ≤ u.cfg.maxPayload.toNat) :
    (wireBody u.cfg.ckAlg bytes).foldl decoderPush u = { u with
      pkt := Packet.fresh u.cfg
      payload := u.payload ++ [{ len := BitVec.ofNat 16 bytes.length, bytes := bytes }] } := by
  have hlength := length_wireBody h16 u.cfg.ckAlg
  obtain ⟨hvalid, hlen, hpay⟩ := foldl_pktPush_wireBody h16 hstart hfit
  obtain ⟨init, b, hbody⟩ := (List.eq_nil_or_concat' (wireBody u.cfg.ckAlg bytes)).resolve_left
    (List.ne_nil_of_length_pos (by rw [hlength, lockLength]; omega))
  rw [hbody] at hlength hvalid hlen hpay ⊢
  have hinit : init.foldl decoderPush u = { u with pkt := init.foldl (pktPush u.cfg) u.pkt } := by
    refine foldl_decoderPush_open fun n hn => ?_
    have hshort : n < (init ++ [b]).length := by rw [List.length_append]; exact Nat.lt_succ_of_le hn
    rw [← List.take_append_of_le_length hn, Bool.eq_false_iff, ne_eq,
      isFulfilled_foldl_take hstart hlength hshort.le]
    exact hshort.ne
  have hinv := foldl_decoderPush_inv init (show u.Inv from hstart.inv)
  rw [hinit] at hinv
  rw [List.foldl_append, List.foldl_cons, List.foldl_nil] at hvalid hlen hpay ⊢
  rw [hinit, decoderPush_valid hinv hvalid, hlen, hpay]

/-- The Decoder's turns over the preamble, from the cleared packet: the window matches. -/
theorem foldl_decoderPush_pattern {u : FrxUnit} (hclear : u.pkt = Packet.fresh u.cfg)
    (hnz : ∃ b ∈ u.cfg.pattern, b ≠ 0) :
    (bitsOf u.cfg.pattern).foldl decoderPush u
      = { u with pkt := huntingPacket u.cfg (bitsOf u.cfg.pattern) } := by
  have hlast := foldl_pktPush_pattern hnz le_rfl
  rw [huntWindow_last, preBits, List.take_of_length_le (length_bitsOf _).le] at hlast
  rw [foldl_decoderPush_open, hclear, hlast]
  intro n hn
  rw [hclear, foldl_pktPush_pattern hnz (by rwa [length_bitsOf] at hn)]
  exact huntingPacket_not_fulfilled _ _

/-- The Decoder's turns over a packet on the wire, from the cleared packet. -/
theorem foldl_decoderPush_wirePacket {u : FrxUnit} {bytes : List Byte} (hu : u.Inv)
    (hclear : u.pkt = Packet.fresh u.cfg) (hnz : ∃ b ∈ u.cfg.pattern, b ≠ 0) (h16 : bytes.length < 2 ^ 16)
    (hfit : bytes.length ≤ u.cfg.maxPayload.toNat) :
    (wirePacket u.cfg bytes).foldl decoderPush u
      = { u with payload := u.payload ++ [{ len := BitVec.ofNat 16 bytes.length, bytes := bytes }] } := by
  rw [wirePacket_eq, List.foldl_append, foldl_decoderPush_pattern hclear hnz,
    foldl_decoderPush_wireBody (u := { u with pkt := huntingPacket u.cfg (bitsOf u.cfg.pattern) }) h16
      (huntingPacket_hasTaken hu.patternLength) hfit, ← hclear]

/-- Settles O15: the preamble moves the window until it matches, and the rest is received as it was sent. -/
theorem encodedPacketIsReceivedWhole : Obligations.EncodedPacketIsReceivedWhole := by
  intro s tx rx len bytes htx hrx hinv hclear hpattern halg hnz hwf hfit hfitrx
  have hlen : bytes.length = len.toNat := beq_iff_eq.1 hwf
  have hwire : wirePacket tx.cfg bytes = wirePacket rx.cfg bytes := by
    rw [wirePacket, wirePacket, hpattern, halg]
  have hne : wirePacket tx.cfg bytes ≠ [] := List.ne_nil_of_length_pos (by rw [length_wirePacket]; omega)
  refine ⟨_, _, _, exec_txEncode htx hlen hfit, rfl, rfl, (execAll_rxFeed (by exact hrx) hne).trans ?_⟩
  rw [hwire, foldl_decoderPush_wirePacket hinv hclear hnz (hlen.trans_lt len.isLt) (hlen.trans_le hfitrx), hlen,
    BitVec.ofNat_toNat, BitVec.setWidth_eq]

end Sys2Proof.Machine
end

section
/-! The CRC-24 register (`42_checksum.md` rules R172 and R173).  Between the iterations its top bit is clear, so a shift
loses nothing, and the loop can be run backwards: the polynomial has its lowest bit set, so the lowest bit tells whether
it was XORed in.  Hence two registers, and two bytes fed into one register, stay different. -/

namespace Sys2Proof.Machine

/-- What the register can hold between iterations and between bytes (rule R173 a). -/
def crcRegisters : Set (BitVec 25) := {r | r.toNat < 2 ^ 24}

theorem mem_crcRegisters {r : BitVec 25} : r ∈ crcRegisters ↔ r.toNat < 2 ^ 24 := Iff.rfl

theorem mem_crcRegisters_iff_bit24 {r : BitVec 25} : r ∈ crcRegisters ↔ r.getLsbD 24 = false := by
  have hr := r.isLt
  rw [mem_crcRegisters, BitVec.getLsbD, Nat.testBit_eq_decide_div_mod_eq, decide_eq_false_iff_not]
  omega

/-! ## One iteration -/

theorem toNat_shiftLeft_one {r : BitVec 25} (h : r ∈ crcRegisters) : (r <<< 1).toNat = 2 * r.toNat := by
  have hr := mem_crcRegisters.1 h
  rw [BitVec.toNat_shiftLeft, Nat.shiftLeft_eq, Nat.mod_eq_of_lt (by omega), Nat.mul_comm, pow_one]

/-- The XOR is done when bit 24 is set, and clears it. -/
theorem crcShift_mem (r : BitVec 25) : crcShift r ∈ crcRegisters := by
  rw [mem_crcRegisters_iff_bit24, crcShift]
  split
  next hset =>
    rw [BitVec.getLsbD_xor, hset]
    rfl
  next hclear => exact Bool.eq_false_iff.2 hclear

/-- An iteration of rule R172 on natural numbers. -/
def crcShiftOnNat (r : Nat) : Nat :=
  let r := 2 * r
  if r.testBit 24 then r ^^^ 0x1864CFB else r

theorem toNat_crcShift {r : BitVec 25} (h : r ∈ crcRegisters) : (crcShift r).toNat = crcShiftOnNat r.toNat := by
  rw [crcShift, crcShiftOnNat, ← toNat_shiftLeft_one h, BitVec.getLsbD]
  split
  · exact BitVec.toNat_xor ..
  · rfl

theorem toNat_crcShift_iterate {r : BitVec 25} (h : r ∈ crcRegisters) (n : Nat) :
    (crcShift^[n] r).toNat = crcShiftOnNat^[n] r.toNat := by
  induction n generalizing r with
  | zero => rfl
  | succ n ih => rw [Function.iterate_succ_apply, Function.iterate_succ_apply, ih (crcShift_mem r), toNat_crcShift h]

/-- The iteration before: the lowest bit, which a shift clears, tells whether the polynomial was XORed in. -/
def crcUnshift (r : BitVec 25) : BitVec 25 :=
  (if r.getLsbD 0 then r ^^^ 0x1864CFB else r) >>> 1

theorem crcUnshift_crcShift : Set.LeftInvOn crcUnshift crcShift crcRegisters := by
  intro r h
  have hback : (r <<< 1) >>> 1 = r := by
    apply BitVec.eq_of_toNat_eq
    rw [BitVec.toNat_ushiftRight, toNat_shiftLeft_one h, Nat.shiftRight_eq_div_pow, pow_one,
      Nat.mul_div_cancel_left _ (by decide)]
  have heven : (r <<< 1).getLsbD 0 = false := by simp
  rw [crcShift, crcUnshift]
  split
  · rw [if_pos (by rw [BitVec.getLsbD_xor, heven]; rfl), BitVec.xor_assoc, BitVec.xor_self, BitVec.xor_zero, hback]
  · rw [if_neg (by rw [heven]; exact Bool.false_ne_true), hback]

theorem crcShift_iterate_injOn (n : Nat) : Set.InjOn crcShift^[n] crcRegisters :=
  crcUnshift_crcShift.injOn.iterate (fun r _ => crcShift_mem r) n

/-! ## One byte -/

/-- The XOR of an input byte into bits 23..16. -/
def crcFeed (r : BitVec 25) (b : Byte) : BitVec 25 := r ^^^ (b.zeroExtend 25 <<< 16)

theorem crcByte_eq (r : BitVec 25) (b : Byte) : crcByte r b = crcShift^[8] (crcFeed r b) := rfl

theorem crcByteOnNat_eq (r : Nat) (b : Byte) : crcByteOnNat r b = crcShiftOnNat^[8] (r ^^^ (b.toNat * 2 ^ 16)) := rfl

theorem toNat_byte_shiftLeft (b : Byte) : (b.zeroExtend 25 <<< 16).toNat = b.toNat * 2 ^ 16 := by
  have hb := b.isLt
  rw [BitVec.toNat_shiftLeft, BitVec.toNat_setWidth, Nat.shiftLeft_eq, Nat.mod_eq_of_lt (a := b.toNat) (by omega),
    Nat.mod_eq_of_lt (by omega)]

theorem toNat_crcFeed (r : BitVec 25) (b : Byte) : (crcFeed r b).toNat = r.toNat ^^^ (b.toNat * 2 ^ 16) := by
  rw [crcFeed, BitVec.toNat_xor, toNat_byte_shiftLeft]

theorem crcFeed_mem {r : BitVec 25} (h : r ∈ crcRegisters) (b : Byte) : crcFeed r b ∈ crcRegisters := by
  have hb := b.isLt
  rw [mem_crcRegisters, toNat_crcFeed]
  exact Nat.xor_lt_two_pow h (by omega)

theorem crcFeed_injective_byte (r : BitVec 25) : Function.Injective (crcFeed r) := by
  intro a b h
  have hval := congrArg BitVec.toNat ((BitVec.xor_right_inj r).1 h)
  rw [toNat_byte_shiftLeft, toNat_byte_shiftLeft] at hval
  exact BitVec.eq_of_toNat_eq (Nat.eq_of_mul_eq_mul_right (by decide) hval)

theorem crcByte_mem {r : BitVec 25} (h : r ∈ crcRegisters) (b : Byte) : crcByte r b ∈ crcRegisters :=
  Set.MapsTo.iterate (fun r _ => crcShift_mem r) 8 (crcFeed_mem h b)

theorem toNat_crcByte {r : BitVec 25} (h : r ∈ crcRegisters) (b : Byte) :
    (crcByte r b).toNat = crcByteOnNat r.toNat b := by
  rw [crcByte_eq, crcByteOnNat_eq, toNat_crcShift_iterate (crcFeed_mem h b), toNat_crcFeed]

theorem crcByte_injOn (b : Byte) : Set.InjOn (crcByte · b) crcRegisters := by
  intro r hr r' hr' h
  exact (BitVec.xor_left_inj _).1 (crcShift_iterate_injOn 8 (crcFeed_mem hr b) (crcFeed_mem hr' b) h)

theorem crcByte_injective_byte {r : BitVec 25} (h : r ∈ crcRegisters) : Function.Injective (crcByte r) := fun a b hab =>
  crcFeed_injective_byte r (crcShift_iterate_injOn 8 (crcFeed_mem h a) (crcFeed_mem h b) hab)

/-- Settles O17: the facts about one shift, about the XOR of a byte, and about the eight iterations after it. -/
theorem crcRegisterNeverLosesABit : Obligations.CrcRegisterNeverLosesABit := by
  intro r b (h : r ∈ crcRegisters)
  exact ⟨toNat_shiftLeft_one h, (r <<< 1).isLt, crcShift_mem r, toNat_crcFeed r b, crcFeed_mem h b, toNat_crcByte h b,
    crcByte_mem h b⟩

/-! ## The whole input -/

theorem crcInit_mem : (0xB704CE : BitVec 25) ∈ crcRegisters := mem_crcRegisters_iff_bit24.2 rfl

theorem foldl_crcByte_mem (bytes : List Byte) {r : BitVec 25} (h : r ∈ crcRegisters) :
    bytes.foldl crcByte r ∈ crcRegisters := by
  induction bytes generalizing r with
  | nil => exact h
  | cons b bytes ih => exact ih (crcByte_mem h b)

theorem toNat_foldl_crcByte (bytes : List Byte) {r : BitVec 25} (h : r ∈ crcRegisters) :
    (bytes.foldl crcByte r).toNat = bytes.foldl crcByteOnNat r.toNat := by
  induction bytes generalizing r with
  | nil => rfl
  | cons b bytes ih => rw [List.foldl_cons, List.foldl_cons, ih (crcByte_mem h b), toNat_crcByte h]

theorem foldl_crcByte_injOn (bytes : List Byte) : Set.InjOn (bytes.foldl crcByte ·) crcRegisters := by
  induction bytes with
  | nil => exact Set.injOn_id _
  | cons b bytes ih => exact ih.comp (crcByte_injOn b) fun r hr => crcByte_mem hr b

/-- The mask of rule R172 takes the 24 low bits. -/
theorem toNat_crc24 (bytes : List Byte) : (crc24 bytes).toNat = crc24OnNat bytes := by
  rw [crc24, BitVec.truncate, BitVec.toNat_setWidth, toNat_foldl_crcByte bytes crcInit_mem]
  exact (Nat.and_two_pow_sub_one_eq_mod _ 24).symm

/-- The final mask never removes a set bit (rule R173 a). -/
theorem toNat_crc24_eq_register (bytes : List Byte) : (crc24 bytes).toNat = (bytes.foldl crcByte 0xB704CE).toNat := by
  rw [crc24, BitVec.truncate, BitVec.toNat_setWidth]
  exact Nat.mod_eq_of_lt (foldl_crcByte_mem bytes crcInit_mem)

/-- CRC-24 tells two byte lists apart that differ in one byte. -/
theorem crc24_ne_of_one_byte {a b : Byte} (hne : a ≠ b) (before rest : List Byte) :
    crc24 (before ++ a :: rest) ≠ crc24 (before ++ b :: rest) := by
  intro h
  have hstart := foldl_crcByte_mem before crcInit_mem
  have hregister := congrArg BitVec.toNat h
  rw [toNat_crc24_eq_register, toNat_crc24_eq_register, List.foldl_append, List.foldl_append] at hregister
  exact hne (crcByte_injective_byte hstart
    (foldl_crcByte_injOn rest (crcByte_mem hstart a) (crcByte_mem hstart b) (BitVec.eq_of_toNat_eq hregister)))

/-! ## CKS (rules R170, R171 and R174) -/

/-- `CK_CALC` at a constructed unit. -/
theorem exec_ckCalc {s : State} {u : CksUnit} (hb : s.cks.built = some u) (len : BitVec 16) (bytes : List Byte) :
    exec (.ckCalc len bytes) s = .next (s.setCks (Port.after { u with
      valueOut := u.valueOut ++ [{ width := u.cfg.ckAlg.width, value := checksum u.cfg.ckAlg bytes }] })) := by
  rw [exec, execCkCalc, Port.run_built _ _ hb]

/-- `CK_VERIFY` at a constructed unit. -/
theorem exec_ckVerify {s : State} {u : CksUnit} (hb : s.cks.built = some u) (v : BitVec 24) (len : BitVec 16)
    (bytes : List Byte) :
    exec (.ckVerify v len bytes) s = .next (s.setCks (Port.after { u with
      okOut := u.okOut ++ [storedValue u.cfg.ckAlg v == checksum u.cfg.ckAlg bytes] })) := by
  rw [exec, execCkVerify, Port.run_built _ _ hb]

/-- Settles O16: with CRC-24 the register is the number of the loop on numbers, through every byte. -/
theorem checksumIsTheLoopOnNumbers : Obligations.ChecksumIsTheLoopOnNumbers := by
  intro s u len bytes hb
  rw [exec_ckCalc hb]
  cases u.cfg.ckAlg with
  | noop => rfl
  | crc24 => rw [checksum, toNat_crc24, CkAlg.width]

theorem storedValue_noop (v : BitVec 24) : storedValue .noop v = 0 := Nat.mod_one _

theorem storedValue_crc24 (v : BitVec 24) : storedValue .crc24 v = v.toNat := Nat.mod_eq_of_lt v.isLt

/-- Settles O18: with the no-op both values are 0, with CRC-24 the stored value is read whole. -/
theorem verifyTellsEquality : Obligations.VerifyTellsEquality := by
  intro s u v len bytes hb
  rw [exec_ckVerify hb]
  cases u.cfg.ckAlg with
  | noop => rw [storedValue_noop]; rfl
  | crc24 => rw [storedValue_crc24]; rfl

end Sys2Proof.Machine
end

section
/-! One flipped bit (`42_checksum.md` rule R176).  A flipped payload bit changes one byte of the payload, which CRC-24
tells and the no-op does not; a flipped checksum bit changes the stored value and not the calculated one. -/

namespace Sys2Proof.Machine

/-! ## A bit sequence with one bit flipped -/

/-- The sequence with bit `k` flipped. -/
def flipBit (s : List Bit) (k : Nat) : List Bit := s.set k (!s.getD k false)

@[simp] theorem length_flipBit (s : List Bit) (k : Nat) : (flipBit s k).length = s.length := List.length_set

theorem flipBit_ne {s : List Bit} {k : Nat} (h : k < s.length) : flipBit s k ≠ s := by
  intro heq
  have hbit := congrArg (·.getD k false) heq
  simp [flipBit, h] at hbit

theorem flipBit_append_left {s : List Bit} {k : Nat} (h : k < s.length) (t : List Bit) :
    flipBit (s ++ t) k = flipBit s k ++ t := by
  rw [flipBit, flipBit, List.getD_append _ _ _ _ h, List.set_append_left _ _ h]

theorem flipBit_append_right (s t : List Bit) (k : Nat) :
    flipBit (s ++ t) (k + s.length) = s ++ flipBit t k := by
  rw [flipBit, flipBit, List.getD_append_right _ _ _ _ (Nat.le_add_left _ _),
    List.set_append_right _ _ (Nat.le_add_left _ _), Nat.add_sub_cancel]

theorem take_flipBit {s : List Bit} {k n : Nat} (h : k < n) : (flipBit s k).take n = flipBit (s.take n) k := by
  simp [flipBit, List.take_set, List.getElem?_take_of_lt h]

/-- A sequence is determined by its length and value (rule R9). -/
theorem eq_of_val_eq {s t : List Bit} (hlen : s.length = t.length) (h : val s = val t) : s = t := by
  rw [← bitsN_val s, ← bitsN_val t, hlen, h]

theorem val_flipBit_ne {s : List Bit} {k : Nat} (h : k < s.length) : val (flipBit s k) ≠ val s :=
  fun heq => flipBit_ne h (eq_of_val_eq (length_flipBit s k) heq)

/-- A flipped bit of a byte list's bits is a change of one byte. -/
theorem exists_bytesOf_flipBit {bytes : List Byte} {k : Nat} (h : k < 8 * bytes.length) :
    ∃ before a b rest, a ≠ b ∧ bytes = before ++ a :: rest ∧
      bytesOf (flipBit (bitsOf bytes) k) = before ++ b :: rest := by
  induction bytes generalizing k with
  | nil => exact absurd h (Nat.not_lt_zero k)
  | cons a rest ih =>
    rw [bitsOf_cons]
    rcases Nat.lt_or_ge k 8 with hk | hk
    · have h8 : k < (bits8 a).length := by rwa [length_bits8]
      refine ⟨[], a, BitVec.ofNat 8 (val (flipBit (bits8 a) k)), rest, fun heq => ?_, rfl, ?_⟩
      · have hlt : val (flipBit (bits8 a) k) < 2 ^ 8 := by simpa using val_lt (flipBit (bits8 a) k)
        have hval := congrArg BitVec.toNat heq
        rw [BitVec.toNat_ofNat, Nat.mod_eq_of_lt hlt, ← val_bitsN a.isLt] at hval
        exact val_flipBit_ne h8 hval.symm
      · rw [flipBit_append_left h8, bytesOf_eight _ _ (by simp), bytesOf_bitsOf]
        rfl
    · obtain ⟨j, rfl⟩ := Nat.exists_eq_add_of_le' hk
      rw [List.length_cons] at h
      obtain ⟨before, c, d, tail, hne, hbytes, hflip⟩ := ih (k := j) (by omega)
      refine ⟨a :: before, c, d, tail, hne, congrArg (a :: ·) hbytes, ?_⟩
      rw [← length_bits8 a, flipBit_append_right, bytesOf_eight _ _ (length_bits8 a), byte_of_bits8, hflip]
      rfl

/-- Whole bytes read from a sequence of which one bit is flipped: CRC-24 tells. -/
theorem crc24_bytesOf_flipBit_ne {s : List Bit} {k : Nat} (h8 : 8 ∣ s.length) (h : k < s.length) :
    crc24 (bytesOf (flipBit s k)) ≠ crc24 (bytesOf s) := by
  have hs : bitsOf (bytesOf s) = s := by
    have := bitsOf_bytesOf_append s
    rwa [Nat.mul_div_cancel' h8, List.drop_length, List.append_nil] at this
  obtain ⟨before, a, b, rest, hne, hbytes, hflip⟩ :=
    exists_bytesOf_flipBit (bytes := bytesOf s) (k := k) (by rw [length_bytesOf, Nat.mul_div_cancel' h8]; exact h)
  rw [hs] at hflip
  rw [hflip, hbytes]
  exact (crc24_ne_of_one_byte hne before rest).symm

/-! ## A packet with one bit flipped (rules R137 and R141) -/

theorem pktValid_iff {cfg : FramerCfg} {pkt : Packet} :
    pktValid cfg pkt = true ↔ pkt.isFulfilled = true ∧ pkt.len.value ≤ cfg.maxPayload.toNat ∧
      pkt.ckf.value = checksum cfg.ckAlg pkt.pay.bytes := by
  rw [pktValid, Bool.and_eq_true, Bool.and_eq_true, decide_eq_true_iff, ckfVerify, beq_iff_eq, and_assoc]

/-- A packet that is fulfilled has its whole length field. -/
theorem payEnd_of_isFulfilled {cfg : FramerCfg} {pkt : Packet} (h : PacketInv cfg pkt)
    (hfull : pkt.isFulfilled = true) : pkt.pay.endBits = 8 * pkt.len.value := by
  obtain ⟨hlen, -, -⟩ := (isFulfilled_iff_cursors h).1 hfull
  rw [h.payEnd, if_pos (Nat.le_antisymm h.lenCursor hlen)]

section
variable {cfg : FramerCfg} {pkt : Packet}

/-- Once a packet is valid, other payload bits in it are judged by its checksum. -/
theorem pktValid_payBits (hv : pktValid cfg pkt = true) (bits : List Bit) :
    pktValid cfg { pkt with pay := { pkt.pay with bits := bits } } = true ↔
      checksum cfg.ckAlg (bytesOf (bits.take pkt.pay.endBits)) = checksum cfg.ckAlg pkt.pay.bytes := by
  obtain ⟨hfull, hfit, hck⟩ := pktValid_iff.1 hv
  rw [pktValid_iff, ← hck]
  exact ⟨fun ⟨_, _, h⟩ => h.symm, fun h => ⟨hfull, hfit, h.symm⟩⟩

theorem pktValid_flipped_payload (h : PacketInv cfg pkt) (hv : pktValid cfg pkt = true) {k : Nat}
    (hk : k < pkt.pay.endBits) :
    pktValid cfg { pkt with pay := { pkt.pay with bits := flipBit pkt.pay.bits k } } = true ↔ cfg.ckAlg = .noop := by
  obtain ⟨hfull, hfit, -⟩ := pktValid_iff.1 hv
  have hend := payEnd_of_isFulfilled h hfull
  have hlength : (pkt.pay.bits.take pkt.pay.endBits).length = pkt.pay.endBits :=
    List.length_take_of_le (by rw [h.payBits, capBits]; omega)
  rw [pktValid_payBits hv, take_flipBit hk]
  cases cfg.ckAlg with
  | noop => exact iff_of_true rfl rfl
  | crc24 =>
    have hne := crc24_bytesOf_flipBit_ne (s := pkt.pay.bits.take pkt.pay.endBits) (k := k)
      (by rw [hlength, hend]; exact Nat.dvd_mul_right 8 _) (by rwa [hlength])
    exact iff_of_false (fun heq => hne (BitVec.eq_of_toNat_eq heq)) nofun

theorem pktValid_flipped_checksum (h : PacketInv cfg pkt) (hv : pktValid cfg pkt = true) {k : Nat}
    (hk : k < cfg.ckAlg.width) :
    pktValid cfg { pkt with ckf := { pkt.ckf with bits := flipBit pkt.ckf.bits k } } = false := by
  obtain ⟨-, -, hck⟩ := pktValid_iff.1 hv
  rw [Bool.eq_false_iff]
  intro hflipped
  obtain ⟨-, -, hck'⟩ := pktValid_iff.1 hflipped
  exact val_flipBit_ne (by rwa [h.ckfBits]) (hck'.trans hck.symm)

end

/-- Settles O9: CRC-24 tells the changed payload byte and the changed stored value, and the no-op calculates 0 for every
payload. -/
theorem singleBitFlipSoundness : Obligations.SingleBitFlipSoundness := by
  intro cfg pkt h hv
  refine ⟨fun k hk => ?_, fun k hk => pktValid_flipped_checksum h hv hk⟩
  rw [Bool.eq_iff_iff, decide_eq_true_iff]
  exact pktValid_flipped_payload h hv hk

end Sys2Proof.Machine
end

section
/-! The oscillator and the symbol (`43_modulator.md` rules R182 to R188, R200 and R204).  A ramp is advanced in the same
way for the frequency and for the amplitude, and in no other way, so its run is followed once (`rampRun`); a run of
`OSC_STEP` is what `render` renders, and `MOD_SYM` renders twice. -/

namespace Sys2Proof.Machine

/-! ## MOD at its port -/

section
variable {s : State} {u : ModUnit} (hb : s.mod.built = some u)
include hb

theorem exec_modSym (b : Bit) : exec (.modSym b) s = .next (s.setMod (Port.after (modSym b u))) := by
  rw [exec, execModSym, Port.run_built _ _ hb]

theorem exec_oscSetf (f : Num) :
    exec (.oscSetf f) s = .next (s.setMod (Port.after { u with osc := u.osc.setFreq f })) := by
  rw [exec, execOscSetf, Port.run_built _ _ hb]

theorem exec_oscSeta (a : Num) :
    exec (.oscSeta a) s = .next (s.setMod (Port.after { u with osc := u.osc.setAmp a })) := by
  rw [exec, execOscSeta, Port.run_built _ _ hb]

theorem exec_oscStep :
    exec .oscStep s = .next (s.setMod (Port.after { u with
      osc := (u.osc.advance u.cfg).2, oscOut := u.oscOut ++ [(u.osc.advance u.cfg).1] })) := by
  rw [exec, execOscStep, Port.run_built _ _ hb]

theorem exec_modFlush :
    exec .modFlush s = .next (s.setMod (Port.after { u with
      samplesOut := u.samplesOut ++ [u.obuf.map (quantise u.cfg)], obuf := [] })) := by
  rw [exec, execModFlush, Port.run_built _ _ hb]

end

/-- Settles O19: `Osc.setFreq` and `Osc.setAmp` replace one ramp each. -/
theorem settingATargetStartsARamp : Obligations.SettingATargetStartsARamp :=
  fun _ _ x hb => ⟨exec_oscSetf hb x, exec_oscSeta hb x⟩

/-- Settles O20: `Osc.advance` with its two `easeAdvance` and its `phaseStep` written out. -/
theorem oscillatorStepOrder : Obligations.OscillatorStepOrder := by
  intro s u hb
  rw [exec_oscStep hb]
  rfl

/-- Settles O23: the flush replaces the buffer and the sample stream only. -/
theorem flushEmitsAndEmptiesTheBuffer : Obligations.FlushEmitsAndEmptiesTheBuffer :=
  fun _ _ hb => ⟨_, exec_modFlush hb, rfl, rfl, rfl, rfl, rfl, rfl⟩

/-! ## A run of `OSC_STEP` -/

theorem execAll_append {l : List Instr} {s t : State} (h : execAll l s = .next t) (m : List Instr) :
    execAll (l ++ m) s = execAll m t := by
  induction l generalizing s with
  | nil => rw [execAll_nil, Host.Outcome.next.injEq] at h; rw [List.nil_append, h]
  | cons i l ih =>
    rw [execAll_cons] at h
    rw [List.cons_append, execAll_cons, ih h]

theorem execAll_cons_of_exec {i : Instr} {s t : State} (h : exec i s = .next t) (l : List Instr) :
    execAll (i :: l) s = execAll l t := by rw [execAll, h]

/-- MOD after `n` times `OSC_STEP`. -/
def ModUnit.afterSteps (u : ModUnit) (n : Nat) : ModUnit :=
  { u with osc := (render u.cfg n u.osc).2, oscOut := u.oscOut ++ (render u.cfg n u.osc).1 }

theorem ModUnit.afterSteps_zero (u : ModUnit) : u.afterSteps 0 = u := by
  rw [ModUnit.afterSteps, render, List.append_nil]

theorem ModUnit.afterSteps_succ (u : ModUnit) (n : Nat) :
    u.afterSteps (n + 1) = { u with
      osc := (u.osc.advance u.cfg).2, oscOut := u.oscOut ++ [(u.osc.advance u.cfg).1] : ModUnit }.afterSteps n := by
  simp only [ModUnit.afterSteps, render, mix_one, List.append_assoc, List.singleton_append]

/-- `OSC_STEP` again and again is `render`, after any operation that MOD has ended. -/
theorem execAll_oscSteps (s : State) (u : ModUnit) (n : Nat) :
    execAll (List.replicate n .oscStep) (s.setMod (Port.after u)) = .next (s.setMod (Port.after (u.afterSteps n))) := by
  induction n generalizing u with
  | zero => rw [List.replicate_zero, execAll_nil, ModUnit.afterSteps_zero]
  | succ n ih =>
    rw [List.replicate_succ, execAll_cons_of_exec (exec_oscStep (Port.after_built u)), State.setMod_twice, ih,
      ModUnit.afterSteps_succ]

theorem execAll_oscSteps_pos {s : State} {u : ModUnit} (hb : s.mod.built = some u) {n : Nat} (hn : 1 ≤ n) :
    execAll (List.replicate n .oscStep) s = .next (s.setMod (Port.after (u.afterSteps n))) := by
  obtain ⟨m, rfl⟩ := Nat.exists_eq_add_of_le' hn
  rw [List.replicate_succ, execAll_cons_of_exec (exec_oscStep hb), execAll_oscSteps, ModUnit.afterSteps_succ]

/-- MOD after `OSC_SETF f` and `n` times `OSC_STEP`. -/
def ModUnit.afterTone (u : ModUnit) (f : Num) (n : Nat) : ModUnit :=
  { u with osc := u.osc.setFreq f : ModUnit }.afterSteps n

theorem execAll_setf_steps {s : State} {u : ModUnit} (hb : s.mod.built = some u) (f : Num) (n : Nat) :
    execAll (.oscSetf f :: List.replicate n .oscStep) s = .next (s.setMod (Port.after (u.afterTone f n))) := by
  rw [execAll_cons_of_exec (exec_oscSetf hb f), execAll_oscSteps, ModUnit.afterTone]

theorem execAll_seta_steps {s : State} {u : ModUnit} (hb : s.mod.built = some u) (a : Num) (n : Nat) :
    execAll (.oscSeta a :: List.replicate n .oscStep) s
      = .next (s.setMod (Port.after ({ u with osc := u.osc.setAmp a : ModUnit }.afterSteps n))) := by
  rw [execAll_cons_of_exec (exec_oscSeta hb a), execAll_oscSteps]

theorem execAll_two_tones {s : State} {u : ModUnit} (hb : s.mod.built = some u) (f g : Num) (n : Nat) :
    execAll ([.oscSetf f] ++ List.replicate n .oscStep ++ [.oscSetf g] ++ List.replicate n .oscStep) s
      = .next (s.setMod (Port.after ((u.afterTone f n).afterTone g n))) := by
  rw [List.append_assoc, List.singleton_append, List.singleton_append, execAll_append (execAll_setf_steps hb f n),
    execAll_setf_steps (Port.after_built _), State.setMod_twice]

/-- Settles O22: each half is a frequency and a run of `OSC_STEP`, and `MOD_SYM` puts what they render into `OBUF`. -/
theorem symbolIsCarrierThenTone : Obligations.SymbolIsCarrierThenTone := by
  intro s u b hb
  generalize htone : (if b then u.cfg.fMark else u.cfg.fSpace) = tone
  have hrun := execAll_two_tones hb u.cfg.fCarrier tone u.cfg.sps
  refine ⟨_, _, _, hrun, Port.after_built _, List.append_assoc _ _ _, ?_, ?_⟩
  · rw [List.length_append, render_length, Nat.two_mul]
    exact congrArg (u.cfg.sps + ·) (render_length _ _ _)
  · rw [exec_modSym hb, modSym, htone, List.append_assoc]
    rfl

/-! ## The run of a ramp (rules R182 and R188) -/

/-- A value in force and its ramp, after `n` samples. -/
def rampRun (cfg : ModCfg) (n : Nat) (p : Num × Ramp) : Num × Ramp := (fun p => easeAdvance cfg p.2)^[n] p

theorem render_freq (cfg : ModCfg) (n : Nat) (o : Osc) :
    ((render cfg n o).2.freq, (render cfg n o).2.fRamp) = rampRun cfg n (o.freq, o.fRamp) := by
  induction n generalizing o with
  | zero => rfl
  | succ n ih => exact ih _

theorem render_amp (cfg : ModCfg) (n : Nat) (o : Osc) :
    ((render cfg n o).2.amp, (render cfg n o).2.aRamp) = rampRun cfg n (o.amp, o.aRamp) := by
  induction n generalizing o with
  | zero => rfl
  | succ n ih => exact ih _

/-- One sample on, the value is the curve at the new counter, which stays at `EASE` once there. -/
theorem easeAdvance_eq {cfg : ModCfg} {r : Ramp} (h : r.k ≤ cfg.ease) :
    easeAdvance cfg r = (easeCurve cfg r.fromValue r.toValue (min (r.k + 1) cfg.ease),
      { r with k := min (r.k + 1) cfg.ease }) := by
  rcases easeAdvance_cases cfg r with ⟨hk, he⟩ | ⟨hk, he⟩
  · rw [he, Nat.min_eq_left hk]
  · have hlast : r.k = cfg.ease := Nat.le_antisymm h hk
    rw [he, Nat.min_eq_right (by omega), easeCurve_last, ← hlast]

theorem rampRun_started (cfg : ModCfg) (v x y : Num) (n : Nat) :
    rampRun cfg (n + 1) (v, { fromValue := x, toValue := y, k := 0 })
      = (easeCurve cfg x y (min (n + 1) cfg.ease), { fromValue := x, toValue := y, k := min (n + 1) cfg.ease }) := by
  induction n with
  | zero => exact easeAdvance_eq (Nat.zero_le _)
  | succ n ih =>
    have hcounter : min (min (n + 1) cfg.ease + 1) cfg.ease = min (n + 1 + 1) cfg.ease := by omega
    rw [rampRun, Function.iterate_succ_apply', ← rampRun, ih, easeAdvance_eq (Nat.min_le_right _ _), hcounter]

theorem easeCurve_linear {cfg : ModCfg} {k : Nat} (hk : k < cfg.ease) (h : cfg.easeFn = .reference) (x y : Num) :
    let ops := numOps cfg.num
    easeCurve cfg x y k = ops.add x (ops.div (ops.mul (ops.sub y x) (ops.ofInt k)) (ops.ofInt cfg.ease)) := by
  simp only [easeCurve, if_neg hk.ne, h]

theorem easeCurve_other {cfg : ModCfg} {k m : Nat} (hk : k < cfg.ease) (h : cfg.easeFn = .other m) (x y : Num) :
    let ops := numOps cfg.num
    easeCurve cfg x y k = ops.add x (ops.mul (ops.sub y x) (Config.otherEase m k cfg.ease)) := by
  simp only [easeCurve, if_neg hk.ne, h]

/-- `v` is the value in force `n` samples into a ramp from `x` to `y`: the target from sample `EASE` on, and the curve
before (rules R182 and R188). -/
def InForceAfter (cfg : ModCfg) (x y : Num) (n : Nat) (v : Num) : Prop :=
  let ops := numOps cfg.num
  (cfg.ease ≤ n → v = y) ∧
  (n < cfg.ease → v = easeCurve cfg x y n) ∧
  (n < cfg.ease → cfg.easeFn = .reference →
    v = ops.add x (ops.div (ops.mul (ops.sub y x) (ops.ofInt n)) (ops.ofInt cfg.ease))) ∧
  (n < cfg.ease → ∀ m, cfg.easeFn = .other m →
    v = ops.add x (ops.mul (ops.sub y x) (Config.otherEase m n cfg.ease)))

theorem rampRun_inForce (cfg : ModCfg) (v x y : Num) {n : Nat} (hn : 1 ≤ n) :
    InForceAfter cfg x y n (rampRun cfg n (v, { fromValue := x, toValue := y, k := 0 })).1 := by
  obtain ⟨m, rfl⟩ := Nat.exists_eq_add_of_le' hn
  rw [rampRun_started]
  have hbefore (h : m + 1 < cfg.ease) : easeCurve cfg x y (min (m + 1) cfg.ease) = easeCurve cfg x y (m + 1) := by
    rw [Nat.min_eq_left h.le]
  exact ⟨fun h => by rw [Nat.min_eq_right h, easeCurve_last], hbefore,
    fun h hf => (hbefore h).trans (easeCurve_linear h hf x y),
    fun h _ hf => (hbefore h).trans (easeCurve_other h hf x y)⟩

theorem render_setFreq_freq (cfg : ModCfg) (n : Nat) (o : Osc) (f : Num) :
    (render cfg n (o.setFreq f)).2.freq
      = (rampRun cfg n (o.freq, { fromValue := o.freq, toValue := f, k := 0 })).1 :=
  congrArg Prod.fst (render_freq cfg n (o.setFreq f))

theorem render_setAmp_amp (cfg : ModCfg) (n : Nat) (o : Osc) (a : Num) :
    (render cfg n (o.setAmp a)).2.amp = (rampRun cfg n (o.amp, { fromValue := o.amp, toValue := a, k := 0 })).1 :=
  congrArg Prod.fst (render_amp cfg n (o.setAmp a))

/-- Settles O21: after `OSC_SETF` the frequency in force is the value of the ramp's run. -/
theorem frequencyRampRunsItsCurve : Obligations.FrequencyRampRunsItsCurve := by
  intro s u f n hb hn
  have hfreq : InForceAfter u.cfg u.osc.freq f n (render u.cfg n (u.osc.setFreq f)).2.freq := by
    rw [render_setFreq_freq]
    exact rampRun_inForce u.cfg _ _ _ hn
  exact ⟨_, _, execAll_setf_steps hb f n, Port.after_built _, hfreq⟩

/-! ## The amplitude does not reach the tone -/

/-- Two oscillators of the same frequency, frequency ramp and phase. -/
structure Osc.SameTone (o p : Osc) : Prop where
  freq : o.freq = p.freq
  fRamp : o.fRamp = p.fRamp
  phase : o.phase = p.phase

theorem Osc.setAmp_sameTone (o : Osc) (a : Num) : (o.setAmp a).SameTone o := ⟨rfl, rfl, rfl⟩

theorem Osc.SameTone.advance {o p : Osc} (h : o.SameTone p) (cfg : ModCfg) :
    (o.advance cfg).2.SameTone (p.advance cfg).2 := by
  constructor <;> simp only [Osc.advance, h.fRamp, h.phase]

theorem Osc.SameTone.render {o p : Osc} (h : o.SameTone p) (cfg : ModCfg) (n : Nat) :
    (render cfg n o).2.SameTone (render cfg n p).2 := by
  induction n generalizing o p with
  | zero => exact h
  | succ n ih => exact ih (h.advance cfg)

/-- Settles O59: after `OSC_SETA` the amplitude in force is the value of the ramp's run, and the tone is that of the run
without it. -/
theorem amplitudeRampRunsItsCurve : Obligations.AmplitudeRampRunsItsCurve := by
  intro s u a n hb hn
  have hamp : InForceAfter u.cfg u.osc.amp a n (render u.cfg n (u.osc.setAmp a)).2.amp := by
    rw [render_setAmp_amp]
    exact rampRun_inForce u.cfg _ _ _ hn
  obtain ⟨hdone, hcurve, hlinear, hother⟩ := hamp
  obtain ⟨hfreq, hfRamp, hphase⟩ := (u.osc.setAmp_sameTone a).render u.cfg n
  exact ⟨_, _, _, _, execAll_seta_steps hb a n, Port.after_built _, hdone, hcurve, hlinear, hother,
    execAll_oscSteps_pos hb hn, Port.after_built _, hfreq, hfRamp, hphase⟩

/-! ## A ramp of zero height -/

theorem rampRun_zero_height {cfg : ModCfg} {x : Num} (h : NumOpsZeroHeight (numOps cfg.num) x cfg.ease) (n : Nat) :
    (rampRun cfg n (x, { fromValue := x, toValue := x, k := 0 })).1 = x := by
  cases n with
  | zero => rfl
  | succ n => rw [rampRun_started, easeCurve_zero_height h (Nat.min_le_right _ _)]

/-- Settles O60: binary64 has the laws of zero that a ramp needs, and with them the run of a ramp stays where it
starts. -/
theorem zeroHeightRampIsHarmless : Obligations.ZeroHeightRampIsHarmless := by
  intro s u n hb flat
  have hlaws {x : Num} (h : flat x) : NumOpsZeroHeight (numOps u.cfg.num) x u.cfg.ease := by
    rcases h with ⟨hnum, hvalue, hease⟩ | hzero
    · exact hnum ▸ reference_zeroHeight hvalue hease
    · exact hzero
  refine ⟨fun h => ⟨_, _, execAll_setf_steps hb u.osc.freq n, Port.after_built _, ?_⟩,
    fun h => ⟨_, _, execAll_seta_steps hb u.osc.amp n, Port.after_built _, ?_⟩⟩
  · exact (render_setFreq_freq u.cfg n u.osc _).trans (rampRun_zero_height (hlaws h) n)
  · exact (render_setAmp_amp u.cfg n u.osc _).trans (rampRun_zero_height (hlaws h) n)

end Sys2Proof.Machine
end

section
/-! The quantiser (`43_modulator.md` rule R205).  The model rounds to an integer with half-integers that are read right
only in the range of the widest format; a value beyond it is clamped in every format, whichever of its two neighbouring
integers it is rounded to. -/

namespace Sys2Proof.Machine

/-! ## The nearest integer -/

/-- `q` is the integer nearest `x`, halves away from zero. -/
def NearestInt (x : ℝ) (q : Int) : Prop := |x - q| ≤ 1 / 2 ∧ (|x - q| = 1 / 2 → |x| ≤ |(q : ℝ)|)

theorem NearestInt.neg {x : ℝ} {q : Int} (h : NearestInt x q) : NearestInt (-x) (-q) := by
  have hdist : |-x - ((-q : Int) : ℝ)| = |x - q| := by rw [Int.cast_neg, neg_sub_neg, abs_sub_comm]
  rwa [NearestInt, hdist, Int.cast_neg, abs_neg, abs_neg]

theorem nearestInt_floor {x : ℝ} (hx : 0 ≤ x) : NearestInt x ⌊x + 1 / 2⌋ := by
  have hle := Int.floor_le (x + 1 / 2)
  have hlt := Int.lt_floor_add_one (x + 1 / 2)
  refine ⟨abs_le.2 ⟨by linarith, by linarith⟩, fun hhalf => ?_⟩
  have hup : (⌊x + 1 / 2⌋ : ℝ) = x + 1 / 2 := by
    rcases (abs_eq (by norm_num)).1 hhalf with h | h <;> linarith
  rw [hup, abs_of_nonneg hx, abs_of_nonneg (by linarith)]
  linarith

theorem exists_nearestInt (x : ℝ) : ∃ q, NearestInt x q := by
  rcases le_total 0 x with hx | hx
  · exact ⟨_, nearestInt_floor hx⟩
  · exact ⟨_, by simpa only [neg_neg] using (nearestInt_floor (neg_nonneg.2 hx)).neg⟩

theorem NearestInt.between {x : ℝ} {q : Int} (h : NearestInt x q) : ⌊x⌋ ≤ q ∧ q ≤ ⌊x⌋ + 1 := by
  obtain ⟨hlow, hhigh⟩ := abs_le.1 h.1
  have hle := Int.floor_le x
  have hlt := Int.lt_floor_add_one x
  have hlower : (⌊x⌋ : ℝ) < q + 1 := by linarith
  have hupper : (q : ℝ) < ⌊x⌋ + 1 + 1 := by linarith
  exact ⟨Int.lt_add_one_iff.1 (by exact_mod_cast hlower), Int.lt_add_one_iff.1 (by exact_mod_cast hupper)⟩

/-! ## Clamping -/

/-- `q` clamped to a format of the integers from `-full` up to `full - 1`. -/
def clampTo (full q : Int) : Int := max (-full) (min q (full - 1))

/-- Both integers beside a floor out of the range are clamped to the same end. -/
theorem clampTo_eq_of_beyond {full m q r : Int} (hfull : 1 ≤ full ∧ full ≤ 2 ^ 31) (hm : ¬|m| ≤ 2 ^ 31)
    (hq : m ≤ q ∧ q ≤ m + 1) (hr : m ≤ r ∧ r ≤ m + 1) : clampTo full q = clampTo full r := by
  rw [abs_le] at hm
  unfold clampTo
  omega

/-- Clamped, the model's rounding is the nearest integer, of every value. -/
theorem exists_nearestInt_clampTo {ops : NumOps} {real : Num → ℝ} (h : NumOpsReads ops real) (x : Num) {full : Int}
    (hfull : 1 ≤ full ∧ full ≤ 2 ^ 31) :
    ∃ r, NearestInt (real x) r ∧ clampTo full (roundHalfAway ops x) = clampTo full r := by
  by_cases hx : |⌊real x⌋| ≤ 2 ^ 31
  · exact ⟨_, roundHalfAway_nearest h hx, rfl⟩
  · obtain ⟨r, hr⟩ := exists_nearestInt (real x)
    have hround := roundHalfAway_between ops x
    rw [h.floor] at hround
    exact ⟨r, hr, clampTo_eq_of_beyond hfull hx hround hr.between⟩

theorem clampTo_mem {full : Int} (hfull : 1 ≤ full) (q : Int) : -full ≤ clampTo full q ∧ clampTo full q < full := by
  unfold clampTo
  omega

theorem toInt_ofInt_clampTo {width : Nat} (hw : 0 < width) (q : Int) :
    (BitVec.ofInt width (clampTo (2 ^ (width - 1)) q)).toInt = clampTo (2 ^ (width - 1)) q := by
  obtain ⟨hlow, hhigh⟩ := clampTo_mem (full := 2 ^ (width - 1)) (one_le_pow₀ (by norm_num)) q
  exact BitVec.toInt_ofInt_eq_self hw hlow hhigh

/-! ## The formats -/

/-- An integer format of up to 32 bits holds the nearest integer, clamped. -/
theorem exists_nearestInt_codecInt {cfg : ModCfg} (hc : cfg.codec = .reference) {real : Num → ℝ}
    (h : NumOpsReads (numOps cfg.num) real) (y : Num) {width : Nat} (hw : 0 < width) (hw' : width ≤ 32) :
    ∃ r, NearestInt (real ((numOps cfg.num).mul y ((numOps cfg.num).ofInt (2 ^ (width - 1) - 1)))) r ∧
      (BitVec.ofInt width (codecInt cfg width y)).toInt = clampTo (2 ^ (width - 1)) r := by
  have hfull : (2 : Int) ^ (width - 1) ≤ 2 ^ 31 := pow_le_pow_right₀ (by norm_num) (by omega)
  obtain ⟨r, hr, hclamp⟩ := exists_nearestInt_clampTo h
    ((numOps cfg.num).mul y ((numOps cfg.num).ofInt (2 ^ (width - 1) - 1))) ⟨one_le_pow₀ (by norm_num), hfull⟩
  have hcodec : codecInt cfg width y = clampTo (2 ^ (width - 1)) r := by
    rw [← hclamp]
    simp only [codecInt, hc, clampTo]
  exact ⟨r, hr, by rw [hcodec, toInt_ofInt_clampTo hw]⟩

theorem nearestBinary_reference_32 (y : Num) : nearestBinary .reference 32 y = fl32 y := by
  rw [nearestBinary, if_pos rfl]

theorem nearestBinary_reference_64 (y : Num) : nearestBinary .reference 64 y = fl64 y := by
  rw [nearestBinary, if_neg (by decide)]

/-- Settles O25: every integer format is `exists_nearestInt_codecInt` at its width, and a floating one the rounding to
the binary format. -/
theorem quantiserRoundsAndClamps : Obligations.QuantiserRoundsAndClamps := by
  intro cfg y hc
  refine ⟨fun real hreal => ?_, fun hnum => ⟨fun hd hy => ?_, fun hd hy => ?_⟩⟩
  · have hreads : NumOpsReads (numOps cfg.num) real := by
      rcases hreal with ⟨hnum, rfl⟩ | h
      · exact hnum ▸ reference_reads
      · exact h
    refine ⟨fun hd => ?_, fun hd => ?_, fun hd => ?_⟩
    · obtain ⟨r, hr, hq⟩ := exists_nearestInt_codecInt hc hreads y (width := 8) (by decide) (by decide)
      exact ⟨r, _, by rw [quantise, hd], hr, hq⟩
    · obtain ⟨r, hr, hq⟩ := exists_nearestInt_codecInt hc hreads y (width := 16) (by decide) (by decide)
      exact ⟨r, _, by rw [quantise, hd], hr, hq⟩
    · obtain ⟨r, hr, hq⟩ := exists_nearestInt_codecInt hc hreads y (width := 32) (by decide) (by decide)
      exact ⟨r, _, by rw [quantise, hd], hr, hq⟩
  · exact ⟨fl32 y, by simp only [quantise, hd, hc, hnum, nearestBinary_reference_32], fl32_nearest hy⟩
  · exact ⟨fl64 y, by simp only [quantise, hd, hc, hnum, nearestBinary_reference_64], fl64_nearest hy⟩

end Sys2Proof.Machine
end

section
/-! The analyzer (`44_analyzer.md` rules R212 to R217) and the class of a ranked window (rules R215 and R229).  A lane runs
over a window by itself (`Lane.run`); with exact arithmetic a run is linear in the samples and its energy is the power of
their Fourier sum; a ranking is an insertion sort of the numbered energies (`rankEntries`). -/

namespace Sys2Proof.Machine

/-! ## GZL at its port -/

section
variable {s : State} {u : GzlUnit} (hb : s.gzl.built = some u)
include hb

theorem exec_gzSample (x : Num) :
    exec (.gzSample x) s = .next (s.setGzl (Port.after { u with gz := u.gz.sample x })) := by
  rw [exec, execGzSample, Port.run_built _ _ hb]

theorem exec_gzRank :
    exec .gzRank s = .next (s.setGzl (Port.after { u with rankOut := u.rankOut ++ [u.gz.rank] })) := by
  rw [exec, execGzRank, Port.run_built _ _ hb]

theorem exec_gzReset : exec .gzReset s = .next (s.setGzl (Port.after { u with gz := u.gz.clear })) := by
  rw [exec, execGzReset, Port.run_built _ _ hb]

end

/-- Settles O26: `Goertzel.sample` with its `Lane.sample` written out. -/
theorem analyzerSampleStepsEveryLane : Obligations.AnalyzerSampleStepsEveryLane :=
  fun _ _ x hb => exec_gzSample hb x

/-! ## Clearing -/

/-- What is left after a clear is the configuration and the coefficients. -/
theorem Goertzel.clear_congr {g g' : Goertzel} (hcfg : g.cfg = g'.cfg)
    (hcoeffs : g.lanes.map Lane.coeff = g'.lanes.map Lane.coeff) : g.clear = g'.clear := by
  have hlanes (h : Goertzel) : h.clear.lanes = (h.lanes.map Lane.coeff).map
      fun c => { coeff := c, s1 := (numOps h.cfg.num).zero, s2 := (numOps h.cfg.num).zero } := by
    rw [List.map_map]; rfl
  calc g.clear = { cfg := g.cfg, lanes := g.clear.lanes, n := 0 } := rfl
    _ = { cfg := g'.cfg, lanes := g'.clear.lanes, n := 0 } := by rw [hlanes, hlanes, hcfg, hcoeffs]

theorem Goertzel.clear_coeffs (g : Goertzel) : g.clear.lanes.map Lane.coeff = g.lanes.map Lane.coeff :=
  List.map_map

@[simp] theorem Goertzel.clear_clear (g : Goertzel) : g.clear.clear = g.clear :=
  Goertzel.clear_congr g.clear_cfg g.clear_coeffs

/-- Settles O27: the second clear finds the analyzer cleared already. -/
theorem analyzerResetZeroesAccumulators : Obligations.AnalyzerResetZeroesAccumulators := by
  intro s u hb
  refine ⟨exec_gzReset hb, ?_⟩
  rw [execAll_cons_of_exec (exec_gzReset hb), execAll_cons_of_exec (exec_gzReset (Port.after_built _)), execAll_nil,
    State.setGzl_twice, Goertzel.clear_clear]
  rfl

/-- Settles O29: a window begins with a clear, and the invariant fixes the coefficients by the configuration. -/
theorem windowAnalysisForgetsThePast : Obligations.WindowAnalysisForgetsThePast := by
  intro g g' w hg hg' hcfg
  have hcoeffs : g.lanes.map Lane.coeff = g'.lanes.map Lane.coeff := by rw [hg.coeffs, hg'.coeffs, hcfg]
  rw [Goertzel.window, Goertzel.window, Goertzel.clear_congr hcfg hcoeffs]

/-! ## The class of a window -/

theorem classify_one : classify 1 = .mark := rfl

theorem markSpaceTie_iff {ops : NumOps} {r : RankRecord} :
    markSpaceTie ops r = true ↔ ∃ carrier mark space, r.energy = [carrier, mark, space] ∧ ops.le mark space = true := by
  unfold markSpaceTie
  split
  · next carrier mark space h => simp [h]
  · next h => simpa using fun carrier mark space he => absurd he (h carrier mark space)

/-- Settles O33: the two classes differ only in the branch of `windowClass` for a tie. -/
theorem tieOnlyDecidesBetweenMarkAndSpace : Obligations.TieOnlyDecidesBetweenMarkAndSpace := by
  intro cfg r
  cases htie : cfg.tie with
  | reference => exact .inl (by rw [windowClass, htie])
  | other n =>
    by_cases h : r.dominant = 1 ∧ markSpaceTie (numOps cfg.num) r = true
    · obtain ⟨hdominant, htied⟩ := h
      have hclass : windowClass cfg r = if Config.otherTie n r.energy then .mark else .space := by
        simp only [windowClass, htie, hdominant, htied, and_self, if_true]
      have hmark : classify r.dominant = .mark := by rw [hdominant, classify_one]
      rw [hclass, hmark]
      split
      · exact .inl rfl
      · exact .inr ⟨rfl, rfl, by simp, markSpaceTie_iff.1 htied⟩
    · exact .inl (by simp only [windowClass, htie, if_neg h])

/-! ## The ranking (rules R214 and R215) -/

/-- The insertion of a ranking is the library's, before the first entry whose energy is not at least the new one. -/
theorem insertRank_eq_orderedInsert (le : Num → Num → Bool) (x : Nat × Num) (l : List (Nat × Num)) :
    insertRank le x l = l.orderedInsert (fun a b => ¬ le a.2 b.2 = true) x := by
  induction l with
  | nil => rfl
  | cons y ys ih => rw [insertRank, List.orderedInsert_cons, ih, ite_not]

theorem insertRank_perm (le : Num → Num → Bool) (x : Nat × Num) (l : List (Nat × Num)) :
    (insertRank le x l).Perm (x :: l) := by
  rw [insertRank_eq_orderedInsert]
  exact List.perm_orderedInsert _ _ _

/-- Rule R215 on numbered energies: `x` has at least the energy of `y`, and the lower number where they are equal. -/
def RanksBefore (le : Num → Num → Bool) (x y : Nat × Num) : Prop :=
  le y.2 x.2 = true ∧ (le x.2 y.2 = true → x.1 < y.1)

/-- Inserting an entry that is numbered above all others keeps a ranking sorted. -/
theorem insertRank_pairwise {ops : NumOps} (h : NumOpsOrdered ops) {x : Nat × Num} {l : List (Nat × Num)}
    (hl : l.Pairwise (RanksBefore ops.le)) (hx : ∀ y ∈ l, y.1 < x.1) :
    (insertRank ops.le x l).Pairwise (RanksBefore ops.le) := by
  induction l with
  | nil => exact List.pairwise_singleton _ _
  | cons y ys ih =>
    obtain ⟨hy, hys⟩ := List.pairwise_cons.1 hl
    rw [insertRank]
    split
    · next hle =>
      refine List.pairwise_cons.2 ⟨fun z hz => ?_, ih hys fun z hz => hx z (List.mem_cons_of_mem _ hz)⟩
      rcases List.mem_cons.1 ((insertRank_perm _ _ _).mem_iff.1 hz) with rfl | hz
      · exact ⟨hle, fun _ => hx y List.mem_cons_self⟩
      · exact hy z hz
    · next hle =>
      have hyx : ops.le y.2 x.2 = true := (h.total _ _).resolve_left hle
      refine List.pairwise_cons.2 ⟨fun z hz => ?_, hl⟩
      have hzy : ops.le z.2 y.2 = true := by
        rcases List.mem_cons.1 hz with rfl | hz
        · exact or_self_iff.1 (h.total _ _)
        · exact (hy z hz).1
      exact ⟨h.trans _ _ _ hzy hyx, fun hxz => absurd (h.trans _ _ _ hxz hzy) hle⟩

/-- The numbered energies in the order of `rankOrder`. -/
def rankEntries (le : Num → Num → Bool) (energy : List Num) : List (Nat × Num) :=
  energy.zipIdx.foldl (fun ranked e => insertRank le (e.2, e.1) ranked) []

theorem rankOrder_eq_entries (le : Num → Num → Bool) (energy : List Num) :
    rankOrder le energy = (rankEntries le energy).map Prod.fst := rfl

theorem rankEntries_append (le : Num → Num → Bool) (energy : List Num) (e : Num) :
    rankEntries le (energy ++ [e]) = insertRank le (energy.length, e) (rankEntries le energy) := by
  simp [rankEntries, List.zipIdx_append]

theorem rankEntries_perm (le : Num → Num → Bool) (energy : List Num) :
    (rankEntries le energy).Perm (energy.zipIdx.map Prod.swap) := by
  induction energy using List.reverseRecOn with
  | nil => exact .nil
  | append_singleton energy e ih =>
    rw [rankEntries_append]
    calc insertRank le (energy.length, e) (rankEntries le energy)
      _ |>.Perm ((energy.length, e) :: rankEntries le energy) := insertRank_perm _ _ _
      _ |>.Perm ((energy.length, e) :: energy.zipIdx.map Prod.swap) := ih.cons _
      _ |>.Perm (energy.zipIdx.map Prod.swap ++ [(energy.length, e)]) := (List.perm_append_singleton _ _).symm
      _ = (energy ++ [e]).zipIdx.map Prod.swap := by simp [List.zipIdx_append]

theorem mem_rankEntries_iff {le : Num → Num → Bool} {energy : List Num} {x : Nat × Num} :
    x ∈ rankEntries le energy ↔ energy[x.1]? = some x.2 := by
  obtain ⟨i, e⟩ := x
  rw [(rankEntries_perm le energy).mem_iff]
  simp [List.mem_zipIdx_iff_getElem?]

theorem rankEntries_pairwise {ops : NumOps} (h : NumOpsOrdered ops) (energy : List Num) :
    (rankEntries ops.le energy).Pairwise (RanksBefore ops.le) := by
  induction energy using List.reverseRecOn with
  | nil => exact .nil
  | append_singleton energy e ih =>
    rw [rankEntries_append]
    exact insertRank_pairwise h ih fun y hy => (List.getElem?_eq_some_iff.1 (mem_rankEntries_iff.1 hy)).1

theorem rankOrder_perm (le : Num → Num → Bool) (energy : List Num) :
    (rankOrder le energy).Perm (List.range energy.length) := by
  have hfst : (energy.zipIdx.map Prod.swap).map Prod.fst = List.range energy.length := by
    rw [List.map_map, List.range_eq_range']
    exact List.zipIdx_map_snd 0 energy
  rw [rankOrder_eq_entries, ← hfst]
  exact (rankEntries_perm le energy).map _

theorem rankOrder_pairwise {ops : NumOps} (h : NumOpsOrdered ops) (energy : List Num) :
    (rankOrder ops.le energy).Pairwise fun i j =>
      RanksBefore ops.le (i, energy.getD i 0) (j, energy.getD j 0) := by
  rw [rankOrder_eq_entries, List.pairwise_map]
  have hread {x : Nat × Num} (hx : x ∈ rankEntries ops.le energy) : (x.1, energy.getD x.1 0) = x := by
    rw [List.getD_eq_getElem?_getD, mem_rankEntries_iff.1 hx, Option.getD_some]
  refine (rankEntries_pairwise h energy).imp_of_mem fun hx hy hxy => ?_
  rwa [hread hx, hread hy]

/-- The ranking of an analyzer lists the index of every lane once. -/
theorem Goertzel.rank_order_perm (g : Goertzel) : g.rank.order.Perm (List.range g.lanes.length) := by
  have h := rankOrder_perm (numOps g.cfg.num).le (g.lanes.map (Lane.energy (numOps g.cfg.num)))
  rwa [List.length_map] at h

/-- The first of a ranking is the dominant one. -/
theorem Goertzel.rank_head (g : Goertzel) (h : 1 ≤ g.lanes.length) : g.rank.order.head? = some g.rank.dominant := by
  have hlength : g.rank.order.length = g.lanes.length := by rw [g.rank_order_perm.length_eq, List.length_range]
  obtain ⟨i, order, horder⟩ := List.exists_cons_of_length_pos (hlength ▸ h)
  have hdominant : g.rank.dominant = g.rank.order.headD 0 := rfl
  rw [hdominant, horder, List.head?_cons, List.headD_cons]

/-- Settles O28: `rankOrder` is a permutation of the indices, sorted by `RanksBefore`. -/
theorem rankingIsSortedByEnergy : Obligations.RankingIsSortedByEnergy := by
  intro s u hb hlanes
  exact ⟨u.gz.rank, exec_gzRank hb, rfl, u.gz.rank_order_perm, u.gz.rank_head hlanes, fun h => rankOrder_pairwise h _⟩

section
variable {le : Num → Num → Bool} {f : Num → Num} (h : ∀ x y, le (f x) (f y) = le x y)
include h

theorem insertRank_map (x : Nat × Num) (l : List (Nat × Num)) :
    insertRank le (Prod.map id f x) (l.map (Prod.map id f)) = (insertRank le x l).map (Prod.map id f) := by
  induction l with
  | nil => rfl
  | cons y ys ih =>
    simp only [List.map_cons, insertRank, ih, Prod.map_snd, h]
    split <;> rfl

theorem rankEntries_map (energy : List Num) :
    rankEntries le (energy.map f) = (rankEntries le energy).map (Prod.map id f) := by
  induction energy using List.reverseRecOn with
  | nil => rfl
  | append_singleton energy e ih =>
    rw [List.map_append, List.map_singleton, rankEntries_append, rankEntries_append, ih, List.length_map,
      ← insertRank_map h]
    rfl

/-- A change of the energies that keeps their comparisons keeps the ranking. -/
theorem rankOrder_map (energy : List Num) : rankOrder le (energy.map f) = rankOrder le energy := by
  rw [rankOrder_eq_entries, rankOrder_eq_entries, rankEntries_map h, List.map_map]
  rfl

end

/-! ## A lane in exact arithmetic (rules R212 and R213) -/

/-- A lane after a window. -/
def Lane.run (ops : NumOps) (w : List Num) (l : Lane) : Lane := w.foldl (fun l x => Lane.sample ops x l) l

theorem Lane.run_cons (ops : NumOps) (x : Num) (w : List Num) (l : Lane) :
    Lane.run ops (x :: w) l = Lane.run ops w (Lane.sample ops x l) := rfl

theorem Lane.run_append (ops : NumOps) (w : List Num) (x : Num) (l : Lane) :
    Lane.run ops (w ++ [x]) l = Lane.sample ops x (Lane.run ops w l) := by
  simp [Lane.run]

@[simp] theorem Lane.run_coeff (ops : NumOps) (w : List Num) (l : Lane) : (Lane.run ops w l).coeff = l.coeff := by
  induction w generalizing l with
  | nil => rfl
  | cons x w ih => rw [Lane.run_cons, ih]; rfl

/-- The lane with both accumulators scaled. -/
def Lane.scale (a : Rat) (l : Lane) : Lane := { l with s1 := a * l.s1, s2 := a * l.s2 }

theorem Lane.scale_of_cleared {l : Lane} (h : l.s1 = 0 ∧ l.s2 = 0) (a : Rat) : l.scale a = l := by
  obtain ⟨coeff, s1, s2⟩ := l
  obtain ⟨rfl, rfl⟩ := h
  simp [Lane.scale]

/-- The Fourier sum of a window at the rotation `(c, s)`: its cosine and its sine part. -/
def fourierSum (c s : Rat) (xs : List Num) : Rat × Rat :=
  ((xs.zipIdx.map fun e => e.1 * (turnBy c s e.2).1).sum, (xs.zipIdx.map fun e => e.1 * (turnBy c s e.2).2).sum)

theorem fourierSum_append (c s : Rat) (xs : List Num) (x : Num) :
    fourierSum c s (xs ++ [x]) = ((fourierSum c s xs).1 + x * (turnBy c s xs.length).1,
      (fourierSum c s xs).2 + x * (turnBy c s xs.length).2) := by
  simp [fourierSum, List.zipIdx_append]

theorem turnBy_succ (c s : Rat) (n : Nat) :
    turnBy c s (n + 1) = ((turnBy c s n).1 * c - (turnBy c s n).2 * s, (turnBy c s n).2 * c + (turnBy c s n).1 * s) := rfl

/-- Turning keeps the unit circle. -/
theorem turnBy_unit {c s : Rat} (h : c * c + s * s = 1) (n : Nat) :
    (turnBy c s n).1 * (turnBy c s n).1 + (turnBy c s n).2 * (turnBy c s n).2 = 1 := by
  induction n with
  | zero => norm_num [turnBy]
  | succ n ih =>
    rw [turnBy_succ]
    linear_combination (c * c + s * s) * ih + h

section
variable {ops : NumOps} (h : NumOpsExact ops)
include h

theorem Lane.sample_exact (x : Num) (l : Lane) :
    Lane.sample ops x l = { coeff := l.coeff, s1 := x + l.coeff * l.s1 - l.s2, s2 := l.s1 } := by
  simp only [Lane.sample, h.add, h.sub, h.mul]

theorem Lane.energy_exact (l : Lane) :
    Lane.energy ops l = l.s1 * l.s1 + l.s2 * l.s2 - l.coeff * l.s1 * l.s2 := by
  simp only [Lane.energy, h.add, h.sub, h.mul]

theorem Lane.sample_scale (a : Rat) (x : Num) (l : Lane) :
    Lane.sample ops (a * x) (l.scale a) = (Lane.sample ops x l).scale a := by
  simp only [Lane.sample_exact h, Lane.scale, Lane.mk.injEq, true_and, and_true]
  ring

theorem Lane.run_scale (a : Rat) (w : List Num) (l : Lane) :
    Lane.run ops (w.map (a * ·)) (l.scale a) = (Lane.run ops w l).scale a := by
  induction w generalizing l with
  | nil => rfl
  | cons x w ih => rw [List.map_cons, Lane.run_cons, Lane.sample_scale h, ih, Lane.run_cons]

theorem Lane.energy_scale (a : Rat) (l : Lane) : Lane.energy ops (l.scale a) = a * a * Lane.energy ops l := by
  rw [Lane.energy_exact h, Lane.energy_exact h, Lane.scale]
  ring

/-- With the rotation `z = c + s i`, the accumulators are the Fourier sum `S` turned: `z (s1 - s2 / z)` is the conjugate
of `S` times `z ^ n`, here by its real and imaginary parts. -/
theorem Lane.run_eq_turned_fourierSum {c s : Rat} (hunit : c * c + s * s = 1) (xs : List Num) :
    let l := Lane.run ops xs { coeff := 2 * c, s1 := 0, s2 := 0 }
    let p := turnBy c s xs.length
    let f := fourierSum c s xs
    c * l.s1 - l.s2 = p.1 * f.1 + p.2 * f.2 ∧ s * l.s1 = p.2 * f.1 - p.1 * f.2 := by
  induction xs using List.reverseRecOn with
  | nil => simp [Lane.run, fourierSum]
  | append_singleton xs x ih =>
    obtain ⟨hre, him⟩ := ih
    have hturn := turnBy_unit hunit xs.length
    simp only [Lane.run_append, Lane.sample_exact h, Lane.run_coeff, fourierSum_append, List.length_append,
      List.length_singleton, turnBy_succ]
    constructor
    · linear_combination c * hre - s * him - c * x * hturn + (Lane.run ops xs ⟨2 * c, 0, 0⟩).s1 * hunit
    · linear_combination s * hre + c * him - s * x * hturn

end

/-- Settles O30: the energy is the squared magnitude of the turned sum, and turning keeps it. -/
theorem energyIsSpectralPower : Obligations.EnergyIsSpectralPower := by
  intro ops c s xs h hunit lane re im
  have henergy : Lane.energy ops lane = re * re + im * im := by
    obtain ⟨hre, him⟩ := Lane.run_eq_turned_fourierSum h hunit xs
    have hturn := turnBy_unit hunit xs.length
    have hcoeff : lane.coeff = 2 * c := Lane.run_coeff ops xs _
    generalize turnBy c s xs.length = p at hre him hturn
    change c * lane.s1 - lane.s2 = p.1 * re + p.2 * im at hre
    change s * lane.s1 = p.2 * re - p.1 * im at him
    calc Lane.energy ops lane = (c * lane.s1 - lane.s2) ^ 2 + (s * lane.s1) ^ 2 := by
          rw [Lane.energy_exact h, hcoeff]
          linear_combination -(lane.s1 * lane.s1) * hunit
      _ = (p.1 * p.1 + p.2 * p.2) * (re * re + im * im) := by rw [hre, him]; ring
      _ = re * re + im * im := by rw [hturn, one_mul]
  exact ⟨henergy, henergy ▸ add_nonneg (mul_self_nonneg re) (mul_self_nonneg im)⟩

/-- Settles O31: the scaling reaches every energy as the same positive factor, which keeps their comparisons. -/
theorem commonScalingKeepsTheRanking : Obligations.CommonScalingKeepsTheRanking := by
  intro ops lanes xs a h hle ha hcleared
  have henergies : lanes.map (fun l => Lane.energy ops (Lane.run ops (xs.map (a * ·)) l))
      = (lanes.map fun l => Lane.energy ops (Lane.run ops xs l)).map (a * a * ·) := by
    rw [List.map_map]
    refine List.map_congr_left fun l hl => ?_
    calc Lane.energy ops (Lane.run ops (xs.map (a * ·)) l)
      _ = Lane.energy ops (Lane.run ops (xs.map (a * ·)) (l.scale a)) := by rw [Lane.scale_of_cleared (hcleared l hl)]
      _ = a * a * Lane.energy ops (Lane.run ops xs l) := by rw [Lane.run_scale h, Lane.energy_scale h]
  have hcompare (x y : Num) : ops.le (a * a * x) (a * a * y) = ops.le x y := by
    rw [Bool.eq_iff_iff, hle, hle]
    exact mul_le_mul_iff_right₀ (mul_pos ha ha)
  exact (congrArg (rankOrder ops.le) henergies).trans (rankOrder_map hcompare _)

end Sys2Proof.Machine
end

section
/-! The demodulator (`45_demodulator.md` rules R226 to R235, R243 and R244).  A run of `DM_SAMPLE` is a fold of the
unit's `dmSample` (`DemUnit.afterSamples`); a window fed to an empty buffer is one `closeWindow`, whose bit is that of
`edgeBits`; where the buffer begins is told by the quotient behind `windowsAfter`. -/

namespace Sys2Proof.Machine

/-! ## DEM at its port -/

section
variable {s : State} {u : DemUnit} (hb : s.dem.built = some u)
include hb

theorem exec_dmSample (x : Num) : exec (.dmSample x) s = .next (s.setDem (Port.after (dmSample x u))) := by
  rw [exec, execDmSample, Port.run_built _ _ hb]

theorem exec_dmFlush : exec .dmFlush s = .next (s.setDem (Port.after (dmFlush u))) := by
  rw [exec, execDmFlush, Port.run_built _ _ hb]

end

/-- Settles O36: the whole bytes of `PACK` and what `dmFlush` leaves of it are `PACK`. -/
theorem flushPacksWholeBytes : Obligations.FlushPacksWholeBytes := by
  intro s u hb
  refine ⟨bytesOf u.pack, u.pack.drop (8 * (u.pack.length / 8)), exec_dmFlush hb, bitsOf_bytesOf_append _,
    length_bytesOf _, ?_⟩
  rw [List.length_drop]
  omega

/-! ## The end of a window (rules R229 and R231) -/

theorem classify_zero : classify 0 = .idle := rfl

theorem classify_eq_ite (d : Nat) : classify d = if d = 0 then .idle else if d = 1 then .mark else .space := by
  match d with
  | 0 | 1 | _ + 2 => rfl

theorem windowClass_of_reference {cfg : DemCfg} (h : cfg.tie = .reference) (r : RankRecord) :
    windowClass cfg r = classify r.dominant := by
  rw [windowClass, h]

/-- No build may take a window with the carrier dominant for a tone: a free tie has mark dominant. -/
theorem windowClass_of_carrier (cfg : DemCfg) {r : RankRecord} (h : r.dominant = 0) : windowClass cfg r = .idle := by
  rcases tieOnlyDecidesBetweenMarkAndSpace cfg r with hclass | ⟨hmark, -⟩
  · rw [hclass, h, classify_zero]
  · rw [h, classify_zero] at hmark
    cases hmark

theorem edgeBits_cons (prev cur : Tone) (rest : List Tone) :
    edgeBits prev (cur :: rest) = edgeBits prev [cur] ++ edgeBits cur rest := by
  simp only [edgeBits, List.append_nil]

theorem append_edgeBits_singleton (pack : List Bit) (prev cur : Tone) :
    pack ++ edgeBits prev [cur] =
      if prev = .idle ∧ cur = .mark then pack ++ [true]
      else if prev = .idle ∧ cur = .space then pack ++ [false] else pack := by
  by_cases hprev : prev = .idle
  · cases cur <;> simp [edgeBits, Tone.bit, hprev]
  · simp [edgeBits, hprev]

/-- What the end of a window does, with the edge trigger as `edgeBits` says it. -/
theorem closeWindow_eq (u : DemUnit) (w : List Num) :
    closeWindow u w = { u with
      gz := u.gz.window w
      pack := u.pack ++ edgeBits u.prev [windowClass u.cfg (u.gz.window w).rank]
      prev := windowClass u.cfg (u.gz.window w).rank
      wbuf := w.drop u.cfg.step } := by
  simp only [closeWindow, edgeBits, List.append_nil, apply_ite (u.pack ++ ·)]

/-- Settles O32: `dmSample` keeps a partial window and closes a full one. -/
theorem demodulatorSampleSlidesTheWindow : Obligations.DemodulatorSampleSlidesTheWindow := by
  intro s u x hb
  refine ⟨dmSample x u, windowClass u.cfg (u.gz.window (u.wbuf ++ [x])).rank, exec_dmSample hb x, ?_⟩
  dsimp only
  rw [List.length_append, List.length_singleton]
  refine ⟨dmSample_partial u x, fun hfull => ⟨?_, windowClass_of_carrier u.cfg, fun htie => ?_⟩⟩
  · rw [dmSample_full u x hfull, closeWindow_eq, append_edgeBits_singleton]
  · rw [windowClass_of_reference htie, classify_eq_ite]

/-! ## A run of `DM_SAMPLE` (rule R103) -/

/-- DEM after `DM_FEED xs`. -/
def DemUnit.afterSamples (u : DemUnit) (xs : List Num) : DemUnit := xs.foldl (fun v x => dmSample x v) u

@[simp] theorem DemUnit.afterSamples_nil (u : DemUnit) : u.afterSamples [] = u := rfl

theorem DemUnit.afterSamples_cons (u : DemUnit) (x : Num) (xs : List Num) :
    u.afterSamples (x :: xs) = (dmSample x u).afterSamples xs := rfl

theorem DemUnit.afterSamples_append (u : DemUnit) (xs ys : List Num) :
    u.afterSamples (xs ++ ys) = (u.afterSamples xs).afterSamples ys := List.foldl_append

theorem DemUnit.afterSamples_concat (u : DemUnit) (xs : List Num) (x : Num) :
    u.afterSamples (xs ++ [x]) = dmSample x (u.afterSamples xs) := u.afterSamples_append xs [x]

theorem execAll_dmFeed (xs : List Num) {s : State} {u : DemUnit} (hb : s.dem.built = some u) :
    ∃ t, execAll (dmFeed xs) s = .next t ∧ t.dem.built = some (u.afterSamples xs) := by
  induction xs generalizing s u with
  | nil => exact ⟨s, rfl, hb⟩
  | cons x xs ih =>
    rw [dmFeed, List.map_cons, execAll_cons_of_exec (exec_dmSample hb x)]
    exact ih (Port.after_built (dmSample x u))

theorem DemUnit.afterSamples_cfg (u : DemUnit) (xs : List Num) : (u.afterSamples xs).cfg = u.cfg := by
  induction xs generalizing u with
  | nil => rfl
  | cons x xs ih => rw [DemUnit.afterSamples_cons, ih, (dmSample_cfg x u).1]

theorem DemUnit.afterSamples_inv {u : DemUnit} (h : DemInv u) (xs : List Num) : DemInv (u.afterSamples xs) := by
  induction xs generalizing u with
  | nil => exact h
  | cons x xs ih => exact ih (dmSample_inv h x)

theorem DemUnit.afterSamples_bytesOut (u : DemUnit) (xs : List Num) : (u.afterSamples xs).bytesOut = u.bytesOut := by
  induction xs generalizing u with
  | nil => rfl
  | cons x xs ih => rw [DemUnit.afterSamples_cons, ih, dmSample_bytesOut]

/-! ## The grid of windows (rule R233) -/

section
variable {win step : Nat} (hstep : 1 ≤ step ∧ step ≤ win)
include hstep

/-- Before the first whole window the truncated difference is less than `STEP`, and the quotient 0. -/
theorem windowsAfter_eq_div (n : Nat) : windowsAfter win step n = (n + step - win) / step := by
  obtain ⟨hpos, hle⟩ := hstep
  rw [windowsAfter]
  split
  · exact (Nat.div_eq_of_lt (by omega)).symm
  · rw [← Nat.add_div_right _ hpos, Nat.sub_add_comm (by omega)]

theorem windowsAfter_eq_iff {n k : Nat} :
    windowsAfter win step n = k ↔ k * step ≤ n + step - win ∧ n < k * step + win := by
  rw [windowsAfter_eq_div hstep, Nat.div_eq_iff hstep.1]
  omega

/-- The beginning of the next window is at most the window away, and has been reached. -/
theorem windowsAfter_bounds (n : Nat) :
    windowsAfter win step n * step ≤ n ∧ n < windowsAfter win step n * step + win := by
  obtain ⟨hbegun, hopen⟩ := (windowsAfter_eq_iff hstep (n := n)).1 rfl
  omega

theorem windowsAfter_succ_full {n : Nat} (h : n + 1 = windowsAfter win step n * step + win) :
    windowsAfter win step (n + 1) = windowsAfter win step n + 1 := by
  rw [windowsAfter_eq_iff hstep, Nat.succ_mul]
  omega

theorem windowsAfter_succ_partial {n : Nat} (h : n + 1 ≠ windowsAfter win step n * step + win) :
    windowsAfter win step (n + 1) = windowsAfter win step n := by
  obtain ⟨hbegun, hopen⟩ := (windowsAfter_eq_iff hstep (n := n)).1 rfl
  rw [windowsAfter_eq_iff hstep]
  omega

end

/-- Before and after every sample, the buffer begins at the next window of the grid. -/
theorem DemUnit.afterSamples_wbuf {u : DemUnit} (h : DemInv u) (hempty : u.wbuf = []) (xs : List Num) :
    (u.afterSamples xs).wbuf = xs.drop (windowsAfter u.cfg.win u.cfg.step xs.length * u.cfg.step) := by
  induction xs using List.reverseRecOn with
  | nil => rw [DemUnit.afterSamples_nil, hempty, List.drop_nil]
  | append_singleton xs x ih =>
    obtain ⟨hbegun, -⟩ := windowsAfter_bounds h.step xs.length
    have hcfg := u.afterSamples_cfg xs
    have hlength := congrArg List.length ih
    rw [List.length_drop] at hlength
    have hjoin := (List.drop_append_of_le_length (l₂ := [x]) hbegun).symm
    rw [DemUnit.afterSamples_concat, List.length_append, List.length_singleton]
    by_cases hfull : (u.afterSamples xs).wbuf.length + 1 = u.cfg.win
    · rw [dmSample_full _ _ (hfull.trans (congrArg DemCfg.win hcfg.symm)), windowsAfter_succ_full h.step (by omega),
        Nat.succ_mul, closeWindow_eq]
      dsimp only
      rw [hcfg, ih, hjoin, List.drop_drop]
    · rw [dmSample_partial _ _ (hcfg ▸ hfull), windowsAfter_succ_partial h.step (by omega)]
      dsimp only
      rw [ih, hjoin]

/-- Settles O35: sample by sample the buffer begins at the next window, which a full window moves on by `STEP`. -/
theorem windowGridIsAlignedToTheFirstSample : Obligations.WindowGridIsAlignedToTheFirstSample := by
  intro s u xs hb h hempty
  obtain ⟨t, hrun, hbuilt⟩ := execAll_dmFeed xs hb
  exact ⟨t, _, hrun, hbuilt, DemUnit.afterSamples_wbuf h hempty xs⟩

/-! ## A run of windows (rules R227, R231, R232 and R235) -/

theorem DemUnit.afterSamples_of_room {u : DemUnit} {xs : List Num} (h : u.wbuf.length + xs.length < u.cfg.win) :
    u.afterSamples xs = { u with wbuf := u.wbuf ++ xs } := by
  induction xs using List.reverseRecOn with
  | nil => rw [DemUnit.afterSamples_nil, List.append_nil]
  | append_singleton xs x ih =>
    rw [List.length_append, List.length_singleton] at h
    have hroom : (u.wbuf ++ xs).length + 1 ≠ u.cfg.win := by rw [List.length_append]; omega
    rw [DemUnit.afterSamples_concat, ih (by omega), dmSample_partial _ _ hroom, List.append_assoc]

/-- A whole window fed to an empty buffer is closed by its last sample. -/
theorem DemUnit.afterSamples_window {u : DemUnit} (hempty : u.wbuf = []) {w : List Num} (hne : w ≠ [])
    (hw : w.length = u.cfg.win) : u.afterSamples w = closeWindow u w := by
  obtain ⟨init, x, rfl⟩ := List.eq_nil_or_concat' w |>.resolve_left hne
  rw [List.length_append, List.length_singleton] at hw
  rw [DemUnit.afterSamples_concat, DemUnit.afterSamples_of_room (by rw [hempty, List.length_nil]; omega), hempty,
    List.nil_append, dmSample_full _ _ hw]
  rfl

/-- The class of a window is that of the window by itself (rule R227). -/
theorem DemInv.windowClass_eq {u : DemUnit} (h : DemInv u) (w : List Num) :
    windowClass u.cfg (u.gz.window w).rank = classOfWindow u.cfg w := by
  have hrate : positiveRate (demGzCfg u.cfg).num (demGzCfg u.cfg).fs = true := h.gzCfg ▸ h.gz.rate
  have hfresh : GoertzelInv (Goertzel.fresh (demGzCfg u.cfg)) := Goertzel.fresh_inv (by simp [demGzCfg]) hrate
  rw [classOfWindow, windowAnalysisForgetsThePast _ _ w h.gz hfresh h.gzCfg]

/-- What a run of windows leaves in `PACK` and `prev`. -/
theorem DemUnit.afterSamples_windows {windows : List (List Num)} {u : DemUnit} (h : DemInv u)
    (hstep : u.cfg.step = u.cfg.win) (hempty : u.wbuf = []) (hw : ∀ w ∈ windows, w.length = u.cfg.win) :
    (u.afterSamples windows.flatten).pack = u.pack ++ edgeBits u.prev (windows.map (classOfWindow u.cfg)) ∧
    (u.afterSamples windows.flatten).prev = ((windows.map (classOfWindow u.cfg)).getLast?).getD u.prev ∧
    (u.afterSamples windows.flatten).wbuf = [] := by
  induction windows generalizing u with
  | nil => exact ⟨(List.append_nil _).symm, rfl, hempty⟩
  | cons w windows ih =>
    obtain ⟨hlength, hrest⟩ := List.forall_mem_cons.1 hw
    have hne : w ≠ [] := List.ne_nil_of_length_pos (by have := h.window; omega)
    have hclosed := closeWindow_eq u w
    rw [h.windowClass_eq] at hclosed
    have hfirst := DemUnit.afterSamples_window hempty hne hlength
    have hinv : DemInv (u.afterSamples w) := DemUnit.afterSamples_inv h w
    rw [hfirst, hclosed] at hinv
    have hend : w.drop u.cfg.step = [] := List.drop_eq_nil_of_le (by omega)
    obtain ⟨hpack, hprev, hwbuf⟩ := ih hinv hstep hend hrest
    rw [List.map_cons, edgeBits_cons, List.getLast?_cons, Option.getD_some, ← List.append_assoc, List.flatten_cons,
      DemUnit.afterSamples_append, hfirst, hclosed]
    exact ⟨hpack, hprev, hwbuf⟩

theorem edgeBits_mark_replicate (n : Nat) : edgeBits .mark (List.replicate n .mark) = [] := by
  induction n with
  | zero => rfl
  | succ n ih => rw [List.replicate_succ, edgeBits_cons, ih]; rfl

/-- Settles O34: every window is one `closeWindow`; after the edge from idle, mark follows mark and is no edge. -/
theorem edgeTriggerEmitsOneBitPerEdge : Obligations.EdgeTriggerEmitsOneBitPerEdge := by
  refine ⟨fun s u windows hb h hstep hempty hw => ?_, fun prev n => ?_⟩
  · obtain ⟨t, hrun, hbuilt⟩ := execAll_dmFeed windows.flatten hb
    obtain ⟨hpack, hprev, hwbuf⟩ := DemUnit.afterSamples_windows h hstep hempty hw
    exact ⟨t, _, hrun, hbuilt, hpack, hprev, hwbuf, u.afterSamples_bytesOut _⟩
  · have hidle : edgeBits prev [.idle] = [] := by simp [edgeBits]
    rw [edgeBits_cons, hidle, List.replicate_succ, edgeBits_cons, edgeBits_mark_replicate]
    rfl

end Sys2Proof.Machine
end

section
/-! The Decoder (`46_decoder.md` rules R250 to R254).  A turn of the Decoder pushes a bit and, when that fulfils the
packet, delivers its record, if it has one, and clears it (`decoderPush_open`, `decoderPush_fulfilled`).  A cleared packet
has its whole length field before it, so 16 bits cannot fulfil a packet twice. -/

namespace Sys2Proof.Machine

/-! ## What a fulfilled packet delivers (rules R141, R251 and R254) -/

/-- The records that a fulfilled packet puts out: one if it is valid, else none. -/
def delivered (cfg : FramerCfg) (pkt : Packet) : List PayloadRecord :=
  if pktValid cfg pkt then [{ len := BitVec.ofNat 16 pkt.len.value, bytes := pkt.pay.bytes }] else []

/-- A record as rule R254 has it, no longer than `MAX_PAYLOAD`. -/
def PayloadRecord.Fits (cfg : FramerCfg) (r : PayloadRecord) : Prop :=
  r.len.toNat ≤ cfg.maxPayload.toNat ∧ r.bytes.length = r.len.toNat

section
variable {cfg : FramerCfg} {pkt : Packet} (h : PacketInv cfg pkt)
include h

/-- A fulfilled packet's payload is as long as its length field says, so that field alone tells what is delivered. -/
theorem delivered_eq (hfull : pkt.isFulfilled = true) :
    delivered cfg pkt =
      if pkt.len.value ≤ cfg.maxPayload.toNat ∧
          val pkt.ckf.bits = checksum cfg.ckAlg (bytesOf (pkt.pay.bits.take (8 * pkt.len.value))) then
        [{ len := BitVec.ofNat 16 pkt.len.value, bytes := bytesOf (pkt.pay.bits.take (8 * pkt.len.value)) }]
      else [] := by
  rw [delivered, ← payEnd_of_isFulfilled h hfull]
  exact if_congr (pktValid_iff.trans (and_iff_right hfull)) rfl rfl

theorem lenValue_lt : pkt.len.value < 2 ^ 16 := h.lenBits ▸ val_lt pkt.len.bits

/-- Up to `MAX_PAYLOAD` the storage holds the whole payload. -/
theorem length_payBytes (hfull : pkt.isFulfilled = true) (hfit : pkt.len.value ≤ cfg.maxPayload.toNat) :
    pkt.pay.bytes.length = pkt.len.value := by
  have hroom : 8 * pkt.len.value ≤ pkt.pay.bits.length := by rw [h.payBits, capBits]; omega
  rw [PayField.bytes, payEnd_of_isFulfilled h hfull, length_bytesOf, List.length_take_of_le hroom,
    Nat.mul_div_cancel_left _ (by decide)]

theorem delivered_fits : ∀ r ∈ delivered cfg pkt, r.Fits cfg := by
  intro r hr
  rw [delivered] at hr
  split at hr
  next hvalid =>
    obtain ⟨hfull, hfit, -⟩ := pktValid_iff.1 hvalid
    obtain rfl := List.mem_singleton.1 hr
    rw [PayloadRecord.Fits, length_payBytes h hfull hfit, BitVec.toNat_ofNat, Nat.mod_eq_of_lt (lenValue_lt h)]
    exact ⟨hfit, rfl⟩
  next => exact absurd hr List.not_mem_nil

end

/-! ## One turn of the Decoder (rule R250) -/

theorem decoderPush_open {u : FrxUnit} {b : Bit} (h : (pktPush u.cfg u.pkt b).isFulfilled = false) :
    decoderPush u b = { u with pkt := pktPush u.cfg u.pkt b } := by
  rw [decoderPush, if_neg (Bool.eq_false_iff.1 h)]

theorem decoderPush_fulfilled {u : FrxUnit} (hu : u.Inv) {b : Bit} (h : (pktPush u.cfg u.pkt b).isFulfilled = true) :
    decoderPush u b = { u with
      pkt := Packet.fresh u.cfg, payload := u.payload ++ delivered u.cfg (pktPush u.cfg u.pkt b) } := by
  rw [decoderPush, if_pos h, Packet.clear_eq_fresh (pktPush_inv hu b), delivered]
  split
  · rfl
  · rw [List.append_nil]

/-- After a turn no packet waits to be delivered. -/
theorem decoderPush_not_fulfilled {u : FrxUnit} (hu : u.Inv) (b : Bit) :
    (decoderPush u b).pkt.isFulfilled = false := by
  cases h : (pktPush u.cfg u.pkt b).isFulfilled with
  | false => rw [decoderPush_open h, h]
  | true => rw [decoderPush_fulfilled hu h, Packet.fresh_not_fulfilled]

theorem pktValid_of_not_fulfilled {cfg : FramerCfg} {pkt : Packet} (h : pkt.isFulfilled = false) :
    pktValid cfg pkt = false :=
  Bool.eq_false_iff.2 fun hvalid => Bool.eq_false_iff.1 h (pktValid_iff.1 hvalid).1

/-- Settles O3: a turn that does not fulfil the packet leaves it open, and one that does leaves it cleared. -/
theorem decoderEmitsOrDropsAndClears : Obligations.DecoderEmitsOrDropsAndClears := by
  intro s u b hb hu
  have hopen := decoderPush_not_fulfilled hu b
  obtain ⟨-, hdone⟩ := fulfilledExactlyInPhaseDone _ (decoderPush_inv hu b)
  refine ⟨_, _, exec_rxPush b hb, exec_pkPush b hb, decoderPush_cfg u b, fun h => ?_, fun h => ?_,
    mt hdone.2 (Bool.eq_false_iff.1 hopen), hopen, pktValid_of_not_fulfilled hopen⟩
  · rw [decoderPush_fulfilled hu h, delivered_eq (pktPush_inv hu b) h]
    exact ⟨rfl, rfl⟩
  · rw [decoderPush_open h]
    exact ⟨rfl, rfl⟩

/-! ## Eight turns (rule R252) -/

theorem exec_rxPushb {s : State} {u : FrxUnit} (byte : Byte) (hb : s.frx.built = some u) :
    exec (.rxPushb byte) s = .next (s.setFrx (Port.after ((receivedBits byte).foldl decoderPush u))) := by
  rw [exec, execRxPushb, Port.run_built _ _ hb]

/-- Bit 7 first (rule R67). -/
theorem receivedBits_eq (byte : Byte) :
    receivedBits byte = [byte.getLsbD 7, byte.getLsbD 6, byte.getLsbD 5, byte.getLsbD 4, byte.getLsbD 3,
      byte.getLsbD 2, byte.getLsbD 1, byte.getLsbD 0] := rfl

/-- A push counts at most one bit of the length field. -/
theorem lenCursor_pktPush_le (cfg : FramerCfg) (pkt : Packet) (b : Bit) :
    (pktPush cfg pkt b).len.c ≤ pkt.len.c + 1 := by
  rcases pktPush_cases cfg pkt b with ⟨-, -, he⟩ | ⟨-, -, hl, he⟩ | ⟨-, -, -, -, he⟩ | ⟨-, -, -, -, -, he⟩ |
    ⟨-, -, -, -, -, he⟩ <;> rw [he]
  · exact Nat.le_succ _
  · rw [pushLen, BitSeq.push_room _ _ hl]
  · exact Nat.le_succ _
  · exact Nat.le_succ _
  · exact Nat.le_succ _

/-- Bits that cannot complete the length field deliver nothing. -/
theorem foldl_decoderPush_payload_of_short {bits : List Bit} {u : FrxUnit} (hu : u.Inv)
    (hshort : u.pkt.len.c + bits.length < 16) : (bits.foldl decoderPush u).payload = u.payload := by
  induction bits generalizing u with
  | nil => rfl
  | cons b bits ih =>
    have hcursor := lenCursor_pktPush_le u.cfg u.pkt b
    rw [List.length_cons] at hshort
    have hopen : (pktPush u.cfg u.pkt b).isFulfilled = false := by
      rw [Bool.eq_false_iff, ne_eq, isFulfilled_iff_cursors (pktPush_inv hu b)]
      omega
    have hpush := decoderPush_open hopen
    have hinv := decoderPush_inv hu b
    rw [hpush] at hinv
    rw [List.foldl_cons, hpush]
    exact ih hinv (by dsimp only; omega)

/-- At most 16 bits deliver at most one record: after it the length field is empty, and too few bits are left for it. -/
theorem foldl_decoderPush_payload_cases {bits : List Bit} (hlength : bits.length ≤ 16) {u : FrxUnit} (hu : u.Inv) :
    (bits.foldl decoderPush u).payload = u.payload ∨
      ∃ r, (bits.foldl decoderPush u).payload = u.payload ++ [r] := by
  induction bits generalizing u with
  | nil => exact .inl rfl
  | cons b bits ih =>
    rw [List.length_cons] at hlength
    have hinv := decoderPush_inv hu b
    rw [List.foldl_cons]
    cases h : (pktPush u.cfg u.pkt b).isFulfilled with
    | false =>
      rw [decoderPush_open h] at hinv ⊢
      exact ih (by omega) hinv
    | true =>
      rw [decoderPush_fulfilled hu h] at hinv ⊢
      have hrest := foldl_decoderPush_payload_of_short (bits := bits) hinv
        (by rw [show (Packet.fresh u.cfg).len.c = 0 from rfl]; omega)
      rw [hrest, delivered]
      split
      · exact .inr ⟨_, rfl⟩
      · exact .inl (List.append_nil _)

/-- Settles O4: both are eight turns of the Decoder over the bits of the byte. -/
theorem byteIsEightPushesFirstBitSeven : Obligations.ByteIsEightPushesFirstBitSeven := by
  intro s u byte hb hu
  rw [← receivedBits_eq]
  exact ⟨_, exec_rxPushb byte hb, execAll_rxFeed hb (List.cons_ne_nil _ _),
    foldl_decoderPush_payload_cases (by rw [receivedBits, length_bits8]; decide) hu⟩

/-! ## No oversize payload (rules R251 and R254) -/

/-- Every record of `v` that `u` does not have fits. -/
def NewRecordsFit (u v : FrxUnit) : Prop := ∀ r ∈ v.payload, r ∈ u.payload ∨ r.Fits u.cfg

theorem NewRecordsFit.of_payload_eq {u v : FrxUnit} (h : v.payload = u.payload) : NewRecordsFit u v :=
  fun _ hr => .inl (h ▸ hr)

theorem NewRecordsFit.trans {u v w : FrxUnit} (hcfg : v.cfg = u.cfg) (h : NewRecordsFit u v) (h' : NewRecordsFit v w) :
    NewRecordsFit u w := fun r hr => (h' r hr).elim (h r) fun hfit => .inr (hcfg ▸ hfit)

theorem decoderPush_newRecordsFit {u : FrxUnit} (hu : u.Inv) (b : Bit) : NewRecordsFit u (decoderPush u b) := by
  cases h : (pktPush u.cfg u.pkt b).isFulfilled with
  | false => exact .of_payload_eq (by rw [decoderPush_open h])
  | true =>
    rw [decoderPush_fulfilled hu h]
    exact fun r hr => (List.mem_append.1 hr).imp_right (delivered_fits (pktPush_inv hu b) r)

theorem foldl_decoderPush_newRecordsFit (bits : List Bit) {u : FrxUnit} (hu : u.Inv) :
    NewRecordsFit u (bits.foldl decoderPush u) := by
  induction bits generalizing u with
  | nil => exact .of_payload_eq rfl
  | cons b bits ih => exact (decoderPush_newRecordsFit hu b).trans (decoderPush_cfg u b) (ih (decoderPush_inv hu b))

/-- The unit at FRX's port after an operation whose next state is known. -/
theorem frx_eq_of_exec {i : Instr} {s t : State} {v w : FrxUnit} (hw : exec i s = .next (s.setFrx (Port.after w)))
    (hexec : exec i s = .next t) (hv : t.frx.built = some v) : v = w := by
  obtain rfl := Host.Outcome.next.inj (hw.symm.trans hexec)
  exact (Option.some.inj hv).symm

/-- Operations of other units leave FRX as it is (rule R75). -/
theorem frx_eq_of_other_unit {i : Instr} {s t : State} {u v : FrxUnit} (hunit : i.unit ≠ .frx)
    (hb : s.frx.built = some u) (hexec : exec i s = .next t) (hv : t.frx.built = some v) : v = u := by
  obtain ⟨-, hframe⟩ := operationTouchesOnlyItsUnit i s t hexec
  have hport : t.frx = s.frx := hframe .frx hunit.symm
  rw [hport, hb] at hv
  exact (Option.some.inj hv).symm

/-- Settles O8: only the turns of the Decoder deliver, and what they deliver fits. -/
theorem noOversizePayloadIsEmitted : Obligations.NoOversizePayloadIsEmitted := by
  intro i s t u v hb hu hexec hv
  change NewRecordsFit u v
  cases i with
  | rxPush b =>
    rw [frx_eq_of_exec (exec_rxPush b hb) hexec hv]
    exact decoderPush_newRecordsFit hu b
  | rxPushb byte =>
    rw [frx_eq_of_exec (exec_rxPushb byte hb) hexec hv]
    exact foldl_decoderPush_newRecordsFit _ hu
  | rxClear =>
    rw [frx_eq_of_exec (exec_rxClear hb hu) hexec hv]
    exact .of_payload_eq rfl
  | pkPush b =>
    rw [frx_eq_of_exec (exec_pkPush b hb) hexec hv]
    exact .of_payload_eq rfl
  | txEncode | ckCalc | ckVerify | modSym | oscSetf | oscSeta | oscStep | modFlush | gzSample | gzRank | gzReset
  | dmSample | dmFlush =>
    rw [frx_eq_of_other_unit (by rintro ⟨⟩) hb hexec hv]
    exact .of_payload_eq rfl

end Sys2Proof.Machine
end

section
/-! What the flushes of MOD and DEM leave to be seen (`70_reset_and_hazards.md` rule R314; `43_modulator.md` rule R204;
`45_demodulator.md` rule R243), what a unit answers (`60_exceptions.md` rules R261 and R268), and the resets of FTX and
CKS (rules R262 and R290).  For the flushes, a unit is read through a form that forgets how its output is grouped: a
flush keeps that form, and every other operation takes units of one form to units of one form. -/

namespace Sys2Proof.Machine

/-! ## Leaving the flushes out of a run (rule R314) -/

/-- A run stays related to the same run without its flushes when a flush keeps the relation by itself and every other
operation keeps it on both sides. -/
theorem execAll_filter_related {R : State → State → Prop} {flush : Instr} {l : List Instr}
    (hflush : ∀ s s', R s s' → R ((unitOp flush).serve s) s')
    (hop : ∀ i ∈ l, i ≠ flush → ∀ s s', R s s' → R ((unitOp i).serve s) ((unitOp i).serve s'))
    {s s' : State} (h : R s s') :
    ∃ t t', execAll l s = .next t ∧ execAll (l.filter fun i => decide (i ≠ flush)) s' = .next t' ∧ R t t' := by
  induction l generalizing s s' with
  | nil => exact ⟨s, s', execAll_nil s, execAll_nil s', h⟩
  | cons i l ih =>
    replace ih := @ih fun j hj => hop j (List.mem_cons_of_mem i hj)
    by_cases hi : i = flush
    · subst hi
      rw [List.filter_cons_of_neg (by simp), execAll_cons]
      exact ih (hflush s s' h)
    · rw [List.filter_cons_of_pos (by simpa using hi), execAll_cons, execAll_cons]
      exact ih (hop i List.mem_cons_self hi s s' h)

theorem execAll_concat {l : List Instr} {s t : State} (h : execAll l s = .next t) (i : Instr) :
    execAll (l ++ [i]) s = exec i t := by
  rw [execAll_append h, execAll_cons, execAll_nil, exec_eq]

/-- Two ports with constructed units of which `f` reads the same. -/
def Port.Agree {α β : Type} (f : α → β) (p q : Port α) : Prop :=
  ∃ u v, p.built = some u ∧ q.built = some v ∧ f u = f v

section
variable {α β : Type} {f : α → β} {op : α → α} {p q : Port α}

/-- Serving an operation that cannot fail (rule R261). -/
theorem Port.serve_total {u : α} (h : p.built = some u) : p.serve (total op) = Port.after (op u) := p.run_built op h

theorem Port.Agree.serve_left (h : p.Agree f q) (hop : ∀ u, f (op u) = f u) : (p.serve (total op)).Agree f q := by
  obtain ⟨u, v, hu, hv, huv⟩ := h
  exact ⟨op u, v, by rw [Port.serve_total hu, Port.after_built], hv, (hop u).trans huv⟩

theorem Port.Agree.serve_both (h : p.Agree f q) (hop : ∀ u v, f u = f v → f (op u) = f (op v)) :
    (p.serve (total op)).Agree f (q.serve (total op)) := by
  obtain ⟨u, v, hu, hv, huv⟩ := h
  exact ⟨op u, op v, by rw [Port.serve_total hu, Port.after_built], by rw [Port.serve_total hv, Port.after_built],
    hop u v huv⟩

end

/-! ### MOD (rule R204) -/

/-- The samples that MOD has emitted and those that the next flush will emit. -/
def ModUnit.allSamples (u : ModUnit) : List Sample := u.samplesOut.flatten ++ u.obuf.map (quantise u.cfg)

/-- MOD with all its samples in one record. -/
def ModUnit.gathered (u : ModUnit) : ModUnit := { u with samplesOut := [u.allSamples], obuf := [] }

theorem ModUnit.allSamples_flush (u : ModUnit) :
    (u.samplesOut ++ [u.obuf.map (quantise u.cfg)]).flatten = u.allSamples := by
  rw [List.flatten_append, List.flatten_singleton, ModUnit.allSamples]

/-- The flush only moves samples into a record. -/
theorem gathered_flush (u : ModUnit) :
    ModUnit.gathered { u with samplesOut := u.samplesOut ++ [u.obuf.map (quantise u.cfg)], obuf := [] }
      = u.gathered := by
  simp [ModUnit.gathered, ModUnit.allSamples]

/-- An operation whose outcome, gathered, does not depend on whether the samples before it were gathered takes units of
one gathered form to units of one gathered form. -/
theorem gathered_congr {op : ModUnit → ModUnit} (hop : ∀ u, (op u).gathered = (op u.gathered).gathered)
    (u v : ModUnit) (h : u.gathered = v.gathered) : (op u).gathered = (op v).gathered := by
  rw [hop u, h, ← hop v]

/-- No operation of MOD but the flush reads how the samples are grouped: a symbol puts its samples after all of them,
and the others touch the oscillator and `OSC_OUT` only. -/
theorem agree_gathered_serve {i : Instr} (hunit : i.unit = .mod) (hne : i ≠ .modFlush) {s s' : State}
    (h : s.mod.Agree ModUnit.gathered s'.mod) :
    ((unitOp i).serve s).mod.Agree ModUnit.gathered ((unitOp i).serve s').mod := by
  cases i with
  | modSym b => exact h.serve_both (gathered_congr fun u => by simp [modSym, ModUnit.gathered, ModUnit.allSamples])
  | oscSetf | oscSeta | oscStep =>
    exact h.serve_both (gathered_congr fun u => by simp [ModUnit.gathered, ModUnit.allSamples])
  | modFlush => exact absurd rfl hne
  | rxPush | rxPushb | rxClear | pkPush | txEncode | ckCalc | ckVerify | gzSample | gzRank | gzReset | dmSample
  | dmFlush => cases hunit

/-- Settles O24: the gathered form is the same with the flushes and without them, and after a last flush the emitted
samples are all there are. -/
theorem modulatorChunkingIsInvisible : Obligations.ModulatorChunkingIsInvisible := by
  intro s u l hb hmod
  obtain ⟨t, t', hrun, hrun', w, w', hw, hw', hgathered⟩ :=
    execAll_filter_related (R := fun s s' => s.mod.Agree ModUnit.gathered s'.mod) (flush := .modFlush)
      (fun s s' h => h.serve_left gathered_flush)
      (fun i hi hne s s' h => agree_gathered_serve (hmod i hi) hne h) ⟨u, u, hb, hb, rfl⟩
  have hsamples : w.allSamples = w'.allSamples := List.singleton_inj.1 (congrArg ModUnit.samplesOut hgathered)
  have hosc : w.gathered.osc = w'.gathered.osc := congrArg ModUnit.osc hgathered
  have hout : w.gathered.oscOut = w'.gathered.oscOut := congrArg ModUnit.oscOut hgathered
  refine ⟨_, _, _, _, (execAll_concat hrun _).trans (exec_modFlush hw),
    (execAll_concat hrun' _).trans (exec_modFlush hw'), Port.after_built _, Port.after_built _,
    ?_, rfl, rfl, hosc, hout⟩
  rw [ModUnit.allSamples_flush, ModUnit.allSamples_flush, hsamples]

/-! ### DEM (rule R243) -/

/-- DEM as if it had flushed nothing: the bits that have left are still in `PACK`. -/
def DemUnit.unflushed (u : DemUnit) : DemUnit :=
  { u with bytesOut := [], pack := bitsOf u.bytesOut.flatten ++ u.pack }

/-- The bytes of a flush and the bits that it leaves are the bits of `PACK`. -/
theorem unflushed_dmFlush (u : DemUnit) : (dmFlush u).unflushed = u.unflushed := by
  simp [dmFlush, DemUnit.unflushed, bitsOf_bytesOf_append]

/-- A sample puts its bit, if any, after the bits that have left and those that have not. -/
theorem unflushed_dmSample (x : Num) (u : DemUnit) : (dmSample x u).unflushed = dmSample x u.unflushed := by
  by_cases h : u.wbuf.length + 1 = u.cfg.win
  · rw [dmSample_full u x h, dmSample_full u.unflushed x h, closeWindow_eq, closeWindow_eq]
    simp only [DemUnit.unflushed, List.append_assoc]
  · rw [dmSample_partial u x h, dmSample_partial u.unflushed x h]
    rfl

/-- No operation of DEM but the flush reads what has left. -/
theorem agree_unflushed_serve {i : Instr} (hunit : i.unit = .dem) (hne : i ≠ .dmFlush) {s s' : State}
    (h : s.dem.Agree DemUnit.unflushed s'.dem) :
    ((unitOp i).serve s).dem.Agree DemUnit.unflushed ((unitOp i).serve s').dem := by
  cases i with
  | dmSample x => exact h.serve_both fun u v huv => by rw [unflushed_dmSample, huv, unflushed_dmSample]
  | dmFlush => exact absurd rfl hne
  | rxPush | rxPushb | rxClear | pkPush | txEncode | ckCalc | ckVerify | modSym | oscSetf | oscSeta | oscStep | modFlush
  | gzSample | gzRank | gzReset => cases hunit

/-- With less than a byte in `PACK`, the bits of the unflushed form say which of them have left. -/
theorem bytesOf_unflushed_pack {u : DemUnit} (h : u.pack.length < 8) : bytesOf u.unflushed.pack = u.bytesOut.flatten :=
  bytesOf_bitsOf_append u.bytesOut.flatten u.pack h

theorem length_pack_dmFlush (u : DemUnit) : (dmFlush u).pack.length < 8 := by
  simp only [dmFlush, List.length_drop]
  omega

/-- Settles O37: the unflushed form is the same with the flushes and without them, and after a last flush it tells the
bytes from the bits that stay. -/
theorem demodulatorChunkingIsInvisible : Obligations.DemodulatorChunkingIsInvisible := by
  intro s u l hb hdem
  obtain ⟨t, t', hrun, hrun', w, w', hw, hw', hagree⟩ :=
    execAll_filter_related (R := fun s s' => s.dem.Agree DemUnit.unflushed s'.dem) (flush := .dmFlush)
      (fun s s' h => h.serve_left unflushed_dmFlush)
      (fun i hi hne s s' h => agree_unflushed_serve (hdem i hi) hne h) ⟨u, u, hb, hb, rfl⟩
  have hflushed : (dmFlush w).unflushed = (dmFlush w').unflushed := by
    rw [unflushed_dmFlush, hagree, unflushed_dmFlush]
  have hbits : bitsOf (dmFlush w).bytesOut.flatten ++ (dmFlush w).pack
      = bitsOf (dmFlush w').bytesOut.flatten ++ (dmFlush w').pack := congrArg DemUnit.pack hflushed
  have hbytes : (dmFlush w).bytesOut.flatten = (dmFlush w').bytesOut.flatten := by
    rw [← bytesOf_unflushed_pack (length_pack_dmFlush w), hflushed, bytesOf_unflushed_pack (length_pack_dmFlush w')]
  rw [hbytes] at hbits
  have hprev : w.unflushed.prev = w'.unflushed.prev := congrArg DemUnit.prev hagree
  have hwbuf : w.unflushed.wbuf = w'.unflushed.wbuf := congrArg DemUnit.wbuf hagree
  have hgz : w.unflushed.gz = w'.unflushed.gz := congrArg DemUnit.gz hagree
  exact ⟨_, _, _, _, (execAll_concat hrun _).trans (exec_dmFlush hw),
    (execAll_concat hrun' _).trans (exec_dmFlush hw'), Port.after_built _, Port.after_built _,
    hbytes, List.append_cancel_left hbits, hprev, hwbuf, hgz⟩

/-! ## What a unit answers (rules R261 and R268) -/

/-- A constructed unit ends an operation that cannot fail with `ERR` 0. -/
theorem Port.serve_total_err {α : Type} {p : Port α} (h : p.built.isSome = true) (op : α → α) :
    (p.serve (total op)).err = .none := by
  obtain ⟨u, hu⟩ := Option.isSome_iff_exists.1 h
  rw [Port.serve_total hu, Port.after_err]

/-- Settles O47: sixteen of the operations cannot fail, and `TX_ENCODE` fails only above `MAX_PAYLOAD`. -/
theorem onlyEncodeCanFail : Obligations.OnlyEncodeCanFail := by
  intro i s hbuilt
  cases i with
  | txEncode len bytes =>
    obtain ⟨u, hu⟩ := Option.isSome_iff_exists.1 hbuilt
    rcases Nat.lt_or_ge u.cfg.maxPayload.toNat len.toNat with hover | hfit
    · exact ⟨_, exec_txEncode_oversize bytes hu hover, .inr ⟨len, bytes, u, rfl, hu, hover, rfl⟩⟩
    · exact ⟨_, exec_txEncode_emits bytes hu hfit, .inl rfl⟩
  | rxPush | rxPushb | rxClear | pkPush | ckCalc | ckVerify | modSym | oscSetf | oscSeta | oscStep | modFlush | gzSample
  | gzRank | gzReset | dmSample | dmFlush => exact ⟨_, exec_eq _ s, .inl (Port.serve_total_err hbuilt _)⟩

/-- An unconstructed unit answers whatever its port serves with code 1. -/
theorem Port.serve_unbuilt_code {α : Type} {p : Port α} (h : p.built.isSome = false)
    (op : α → Except ErrReport α) : (p.serve op).err.code = 1 := by
  rw [p.serve_unbuilt op (Option.isNone_iff_eq_none.1 (Option.isSome_eq_false_iff.1 h)), ErrReport.again_code]

theorem UnitOp.serve_unbuilt_code {s : State} {op : UnitOp} (h : unitBuilt s op.unit = false) :
    ((op.serve s).err op.unit).code = 1 := by
  cases op <;> exact Port.serve_unbuilt_code h _

/-- At an unconstructed unit every rejected transaction is answered as a reserved command is (rule R268). -/
theorem rejectTransaction_unbuilt {s : State} {tr : Transaction} (h : unitBuilt s tr.unit = false) (e : DecodeError) :
    rejectTransaction tr e s = .next (rejectCommand s tr.unit tr.code) := by
  cases e with
  | badCommand => rfl
  | operandMismatch => simp [rejectTransaction, h]

/-- A command at an unconstructed unit, whatever its code and operand, is one thing served at that unit's port. -/
theorem step_cmd_unbuilt {s : State} {tr : Transaction} {rest : List PortEvent} (hp : s.presented = .cmd tr :: rest)
    (h : unitBuilt s tr.unit = false) :
    ∃ op : UnitOp, op.unit = tr.unit ∧ step s = .next (op.serve (s.setPresented rest)) := by
  cases hd : decode tr with
  | ok i =>
    obtain ⟨hunit, -, -⟩ := decode_eq_ok hd
    exact ⟨unitOp i, by rw [unitOp_unit, hunit], by rw [step_operation hp hd, exec_eq]⟩
  | error e =>
    refine ⟨rejectOp tr.code tr.unit, rejectOp_unit _ _, ?_⟩
    rw [step_rejected hp hd, rejectTransaction_unbuilt (by rwa [unitBuilt_setPresented]), rejectCommand_eq]

/-- Settles O45: what an unconstructed unit is made to serve ends with code 1, which is an error, and an error keeps the
units. -/
theorem unconstructedUnitAnswersCodeOne : Obligations.UnconstructedUnitAnswersCodeOne := by
  intro s tr rest hp hbuilt
  obtain ⟨op, hunit, hstep⟩ := step_cmd_unbuilt hp hbuilt
  have hcode : ((op.serve (s.setPresented rest)).err op.unit).code = 1 :=
    UnitOp.serve_unbuilt_code (by rwa [unitBuilt_setPresented, hunit])
  have hsame : SameUnits s (op.serve (s.setPresented rest)) :=
    (UnitOp.sameUnits_of_error (by rw [hcode]; decide)).of_setPresented
  refine ⟨_, hstep, by rw [← hunit, hcode], hsame, hsame.outputs_eq, ?_, fun u hu => ?_⟩
  · rw [UnitOp.serve_presented, State.setPresented_presented]
  · exact (samePort_setPresented s _ rest u).1 (UnitOp.serve_samePort (by rwa [hunit]) _)

/-! ## Resets (rules R262, R290 and R291) -/

/-- Settles O57: FTX latches its configuration as FRX does; nothing of CKS's is checked. -/
theorem resetOfEncoderAndChecksum : Obligations.ResetOfEncoderAndChecksum := by
  intro s rest
  refine ⟨fun c hp hlen => ⟨fun hpre => ?_, fun hpre hbad => ?_, fun pattern hpre hbytes => ?_⟩, fun c hp => ?_⟩
  · rw [step_rst hp, resetUnit, latchFramer_of_no_bytes hpre, installed_error]
  · rw [step_rst hp, resetUnit, latchFramer_of_bad_element hlen hpre hbad, installed_error]
  · exact step_rst_ftx hp (latchFramer_of_bytes hlen hpre hbytes)
  · exact step_rst_cks hp

end Sys2Proof.Machine
end
